-- ==== Sys2Proof/Word.lean ====
section
/-! DEFINITION. The word types of HTB, one abbreviation per width that the spec names (00_scope.md R6, R7). -/

namespace Sys2Proof

/-- A host register, a frequency count or a node weight: 32 bits (R7 REG_BITS, COUNT_BITS). -/
abbrev Word := BitVec 32

/-- An index into the NODE arena: 10 bits (R7 IDX_BITS). -/
abbrev NodeIdx := BitVec 10

/-- A symbol: 9 bits, of which 0 to 256 are legal (R6 SYM_BITS, R110). -/
abbrev Sym := BitVec 9

/-- The length of a code: 9 bits (R7 LEN_BITS). -/
abbrev CodeLen := BitVec 9

/-- The stored bits of a code: 256 bits, right-aligned (R45). -/
abbrev CodeBits := BitVec 256

/-- A finite bit string in stream order, the first bit first (R12). -/
abbrev Bits := List Bool

end Sys2Proof
end

