-- ==== Sys2Proof/Config.lean ====
section
/-! DEFINITION. The implementation parameters of HTB (00_scope.md R6, R7) and the values the spec leaves open. A parameter
the spec fixes has its value here. A value the spec leaves open is an opaque constant: nothing can evaluate it, so every
statement about the machine holds for every value of it. -/

namespace Sys2Proof.Config

/-- R6 NSYM: the alphabet, byte values 0 to 255 and the sentinel. -/
abbrev nsym : Nat := 257

/-- R6 SENTINEL: the END-OF-STREAM symbol. -/
abbrev sentinel : Nat := 256

/-- R7 NODE_CAP: the capacity of the node arena, and of the traversal stack (R55). -/
abbrev nodeCap : Nat := 513

/-- R7 MAX_TOTAL: the largest sum of all counts that BUILD_TREE accepts. -/
abbrev maxTotal : Nat := 4294967295

/-- R7 WINDOW_BYTES: the size of the host register window. -/
abbrev windowBytes : Nat := 0x80

/-- R7, R23 ID_VALUE. -/
abbrev idValue : Word := 0x48554601

/-- R7, R32 MAGIC_RESET, an OPEN parameter (log entry 1). -/
opaque magicReset : Word

/-- R51: what the `n`-th drawn host read of a result register or window returns (log entry 6). -/
opaque freeWord : Nat → Word

/-- R51: STATUS.OUT_CLOSED in the `n`-th drawn host read of STATUS (log entry 6). -/
opaque freeOutClosed : Nat → Bool

/-- R51: STATUS.IN_END in the `n`-th drawn host read of STATUS (log entry 6). -/
opaque freeInEnd : Nat → Bool

/-- R56: STATUS.DEC_STATE in the `n`-th drawn host read of STATUS (log entry 6). -/
opaque freeDecState : Nat → BitVec 2

/-- R263: how far IN.pos has moved at the `n`-th reset of a pending command; brought within the rule's bounds by the
operation that uses it (log entry 7). -/
opaque freePos : Nat → Nat

/-- R263: how many appended bits OUT keeps at the `n`-th reset of a pending command; brought within the rule's bounds by
the operation that uses it (log entry 7). -/
opaque freePrefix : Nat → Nat

/-- R263: whether OUT is found closed at the `n`-th reset of a pending command, where the rule lets it be
(log entry 7). -/
opaque freeClosed : Nat → Bool

/-- R78: the window offset that an access to a bus offset of 0x80 or more reaches, if it reaches HTB at all: the platform's
choice (log entry 10). -/
opaque platformDecode : Nat → Option (BitVec 7)

end Sys2Proof.Config
end

