-- ==== Sys2Proof/Syntax.lean ====
section
/-! DEFINITION. The commands of HTB: one constructor per row of spec/opcode_table.json (30_encoding.md R102). A command
word has no operand, register or immediate field (R100), so no constructor has an argument. -/

namespace Sys2Proof

/-- The 14 commands (R102), in the order of the opcode map. -/
inductive Instr where
  /-- R200 -/
  | nop
  /-- R130 -/
  | count
  /-- R134 -/
  | buildTree
  /-- R150 -/
  | genCodes
  /-- R160 -/
  | writeHeader
  /-- R166 -/
  | readHeader
  /-- R180 -/
  | encodeBody
  /-- R186 -/
  | decodeBody
  /-- R206 -/
  | writeMagic
  /-- R208 -/
  | checkMagic
  /-- R202 -/
  | rewindIn
  /-- R204 -/
  | closeOut
  /-- R212 -/
  | compress
  /-- R216 -/
  | decompress
  deriving DecidableEq, Repr

end Sys2Proof
end

