-- ==== Sys2Proof/WellFormed.lean ====
section
/-! DEFINITION. The checks on terms that come from outside: an instruction, a command word, a bus access and a symbol. -/

namespace Sys2Proof

/-- A command carries no operand (R100), so every command is well formed. -/
def Instr.wf : Instr → Bool
  | .nop => true
  | .count => true
  | .buildTree => true
  | .genCodes => true
  | .writeHeader => true
  | .readHeader => true
  | .encodeBody => true
  | .decodeBody => true
  | .writeMagic => true
  | .checkMagic => true
  | .rewindIn => true
  | .closeOut => true
  | .compress => true
  | .decompress => true

/-- R100, R103: a command word is legal when bits [31:8] are 0 and its OPCODE is not reserved. -/
def commandWordWf (w : Word) : Bool :=
  w.extractLsb' 8 24 == 0 && (w.extractLsb' 0 8 ≤ 0x0B || w.extractLsb' 0 8 == 0x10 || w.extractLsb' 0 8 == 0x11)

/-- R78: a bus access is well formed when its offset is a multiple of 4 and it is 32 bits wide. -/
def accessWf (offset widthBits : Nat) : Bool :=
  offset % 4 == 0 && widthBits == 32

/-- R110: the legal values of a 9-bit symbol field. -/
def symWf (v : Nat) : Bool :=
  v ≤ Config.sentinel

end Sys2Proof
end

