-- ==== Sys2Proof/Decode.lean ====
section
/-! DEFINITION. The decoder of the command word (30_encoding.md R100 to R103), total on every 32-bit word, and after it the
encoder, written from the same opcode map. -/

namespace Sys2Proof

/-- Why a word selects no command; either way HTB raises ILLEGAL_CMD (R101, R236). -/
inductive DecodeError where
  /-- A bit of [31:8] is set. -/
  | reservedBitsSet
  /-- OPCODE is 0x0C to 0x0F or 0x12 to 0xFF. -/
  | reservedOpcode
  deriving DecidableEq, Repr

/-- R100: OPCODE, bits [7:0]. -/
def opcodeField (w : Word) : BitVec 8 := w.extractLsb' 0 8

/-- R100: RSVD, bits [31:8]. -/
def rsvdField (w : Word) : BitVec 24 := w.extractLsb' 8 24

/-- R102: the opcode map. -/
def opcodeMap : List (BitVec 8 × Instr) :=
  [ (0x00, .nop), (0x01, .count), (0x02, .buildTree), (0x03, .genCodes),
    (0x04, .writeHeader), (0x05, .readHeader), (0x06, .encodeBody), (0x07, .decodeBody),
    (0x08, .writeMagic), (0x09, .checkMagic), (0x0A, .rewindIn), (0x0B, .closeOut),
    (0x10, .compress), (0x11, .decompress) ]

/-- R101: RSVD is checked first, then OPCODE. -/
def decode (w : Word) : Except DecodeError Instr :=
  if rsvdField w ≠ 0 then .error .reservedBitsSet
  else
    match opcodeMap.find? (fun row => row.1 == opcodeField w) with
    | some row => .ok row.2
    | none => .error .reservedOpcode

/-- The instruction of a word whose bits are numbered as spec/opcode_table.json numbers them. A command word is one 32-bit
word and no form is longer (R105). -/
def decodeTableWord (nbits w : Nat) : Option Instr :=
  if 32 < nbits then none
  else
    match decode (BitVec.ofNat 32 (w % 2 ^ nbits)) with
    | .ok i => some i
    | .error _ => none

/-- R102: the command word of a command, `zext_32(OPCODE)`. -/
def encode : Instr → Word
  | .nop => 0x00000000
  | .count => 0x00000001
  | .buildTree => 0x00000002
  | .genCodes => 0x00000003
  | .writeHeader => 0x00000004
  | .readHeader => 0x00000005
  | .encodeBody => 0x00000006
  | .decodeBody => 0x00000007
  | .writeMagic => 0x00000008
  | .checkMagic => 0x00000009
  | .rewindIn => 0x0000000A
  | .closeOut => 0x0000000B
  | .compress => 0x00000010
  | .decompress => 0x00000011

end Sys2Proof
end

