-- ==== Sys2Proof/Machine/State.lean ====
section
/-! DEFINITION. The state of the machine (10_state.md R20, 20_memory.md R70), as plain data, and the state right after
power-on and reset (R58, R77). -/

namespace Sys2Proof.Machine

/-- R230: the error codes, with NONE for "the last command succeeded, or none has been performed since reset". -/
inductive ErrCode where
  | none
  | badMagic
  | truncHeader
  | truncBody
  | overflow
  | noSentinel
  | noTree
  | noCodes
  | noCode
  | dupSymbol
  | headerTooLarge
  | badSymbol
  | outClosed
  | illegalCmd
  deriving DecidableEq, Repr

/-- R28, R56: the decoder states of STATUS.DEC_STATE. -/
inductive DecState where
  | idle
  | walking
  | done
  | error
  deriving DecidableEq, Repr

/-- R28: the STATUS fields that HTB stores. OUT_CLOSED and IN_END have no storage (R30). -/
structure Status where
  /-- [0] -/
  busy : Bool
  /-- [1] -/
  done : Bool
  /-- [2] -/
  err : Bool
  /-- [3] -/
  ovr : Bool
  /-- [4] -/
  treeValid : Bool
  /-- [5] -/
  codeValid : Bool
  /-- [11:8] -/
  errCode : ErrCode
  /-- [13:12] -/
  decState : DecState
  deriving DecidableEq, Repr

/-- R31: CFG. -/
structure Cfg where
  /-- [0] IRQ_EN -/
  irqEn : Bool
  /-- [2:1] DBG_LEVEL: stored, and read by no rule -/
  dbgLevel : BitVec 2
  deriving DecidableEq, Repr

/-- R33 to R37: the result registers. -/
structure TreeRegs where
  /-- ROOT [9:0] -/
  root : NodeIdx
  /-- NODE_COUNT [9:0] -/
  nodeCount : BitVec 10
  /-- LEAF_COUNT [9:0] -/
  leafCount : BitVec 10
  /-- TOTAL -/
  total : Word
  /-- MAX_LEN [8:0] -/
  maxLen : CodeLen
  deriving DecidableEq, Repr

/-- R39, R42, R46, R48: the index registers of the table windows. -/
structure IndexRegs where
  /-- FREQ_IDX [8:0] -/
  freqIdx : BitVec 9
  /-- NODE_IDX [9:0] -/
  nodeIdx : BitVec 10
  /-- CODE_IDX [8:0] -/
  codeIdx : BitVec 9
  /-- CODE_WSEL [2:0] -/
  codeWsel : BitVec 3
  deriving DecidableEq, Repr

/-- R41: the value of a NODE entry. -/
inductive Node where
  | leaf (sym : Sym) (w : Word)
  | internal (w : Word) (l r : NodeIdx)
  deriving DecidableEq, Repr

/-- R45: one symbol's entry in the three arrays CODE_PRESENT, CODE_LEN and CODE_BITS. -/
structure CodeEntry where
  /-- CODE_PRESENT[s] -/
  present : Bool
  /-- CODE_LEN[s] -/
  len : CodeLen
  /-- CODE_BITS[s] -/
  bits : CodeBits
  deriving DecidableEq, Repr

/-- R45: the entry of a symbol without a code. -/
def CodeEntry.empty : CodeEntry := ⟨false, 0, 0⟩

/-- R70: the input stream. -/
structure InStream where
  data : Bits
  pos : Nat
  deriving DecidableEq, Repr

/-- R70: the output stream. -/
structure OutStream where
  bits : Bits
  closed : Bool
  deriving DecidableEq, Repr

/-- R78: the widths of a bus access. -/
inductive AccessWidth where
  | byte
  | half
  | word
  deriving DecidableEq, Repr

/-- R21: what a word-aligned offset of the register window names. -/
inductive HostReg where
  | id
  | ctrl
  | cmd
  | status
  | cfg
  | magic
  | root
  | nodeCount
  | leafCount
  | total
  | maxLen
  | freqIdx
  | freqData
  | nodeIdx
  | nodeWeight
  | nodeInfo
  | codeIdx
  | codeInfo
  | codeWsel
  | codeWord
  /-- 0x2C and 0x54 to 0x7C -/
  | reserved
  deriving DecidableEq, Repr

/-- The moves of HOST and of HTB's reset input: register accesses (R78), stream actions (R77), hardware reset (R260). -/
inductive HostAction where
  | read (offset : Nat) (width : AccessWidth)
  | write (offset : Nat) (width : AccessWidth) (v : Word)
  | attachIn (d : Bits)
  | openOut
  | takeOut
  | hardReset
  deriving DecidableEq, Repr

/-- Who moves next (R9, R10): the order of HOST moves and CORE steps is free, so it stands in the state as data
(log entry 3). -/
inductive Turn where
  | core
  | host (a : HostAction)
  deriving DecidableEq, Repr

/-- What HOST got back from its last move (log entry 5). -/
inductive Response where
  /-- A read returned `v` (R78). -/
  | value (v : Word)
  /-- A well-formed write ended on the bus, dropped or not (R78). -/
  | written
  /-- The bus reported an error response (R78, R239). -/
  | busError
  /-- The access did not reach HTB (R78). -/
  | notClaimed
  /-- TakeOut returned these bits (R77). -/
  | taken (bits : Bits)
  /-- A stream action or a hardware reset was made. -/
  | acted
  deriving DecidableEq, Repr

/-- The machine. `cmd` to `out` are the state the spec lists (R20); `queue`, `response` and `draws` are the model's own
(log entries 3, 5 and 6). -/
structure State where
  /-- CMD: the last command word accepted (R25) -/
  cmd : Word
  /-- PENDING: the word CORE will perform (R53) -/
  pending : Word
  /-- STATUS (R28) -/
  status : Status
  /-- CFG (R31) -/
  cfg : Cfg
  /-- MAGIC (R32) -/
  magic : Word
  /-- ROOT, NODE_COUNT, LEAF_COUNT, TOTAL, MAX_LEN (R33 to R37) -/
  regs : TreeRegs
  /-- FREQ_IDX, NODE_IDX, CODE_IDX, CODE_WSEL (R39, R42, R46, R48) -/
  idx : IndexRegs
  /-- FREQ[0..256] (R38) -/
  freq : Vector Word 257
  /-- NODE[0..512]; `none` is "holds no value" (R41, R58) -/
  node : Vector (Option Node) 513
  /-- CODE_PRESENT, CODE_LEN, CODE_BITS [0..256] (R45) -/
  code : Vector CodeEntry 257
  /-- IN (R70) -/
  inp : InStream
  /-- OUT (R70) -/
  out : OutStream
  /-- the turns to come, the next one first -/
  queue : List Turn
  /-- what HOST's last move returned -/
  response : Option Response
  /-- how many free values have been drawn -/
  draws : Nat
  deriving DecidableEq, Repr

/-- Why a step stops the model. Neither reason is an outcome of HTB: an HTB error is a next state (R232). -/
inductive Fault where
  /-- Raised by a HOST turn that attaches IN or opens OUT while STATUS.BUSY = 1: "a host that does it is outside the
  model" (R270). Safe (log entry 8). -/
  | streamMoveWhileBusy
  /-- Raised by BUILD_TREE, GEN_CODES, WRITE_HEADER, READ_HEADER or DECODE_BODY when a walk meets an arena that holds no
  valid tree although TREE_VALID = 1. No run reaches it (R41, R57). Safe (log entry 9). -/
  | brokenArena
  deriving DecidableEq, Repr

/-- Why an instruction has no meaning. -/
inductive Refusal where
  /-- An arm of exec that has no meaning yet: none is left. Safe. -/
  | notModelled (mnemonic : String)
  deriving DecidableEq, Repr

/-- R58 and R77: HTB after reset with the streams as they are at power-on, and no HOST move to come. -/
def State.reset : State where
  cmd := 0
  pending := 0
  status :=
    { busy := false, done := false, err := false, ovr := false, treeValid := false, codeValid := false,
      errCode := .none, decState := .idle }
  cfg := { irqEn := false, dbgLevel := 0 }
  magic := Config.magicReset
  regs := { root := 0, nodeCount := 0, leafCount := 0, total := 0, maxLen := 0 }
  idx := { freqIdx := 0, nodeIdx := 0, codeIdx := 0, codeWsel := 0 }
  freq := Vector.replicate 257 0
  node := Vector.replicate 513 none
  code := Vector.replicate 257 CodeEntry.empty
  inp := { data := [], pos := 0 }
  out := { bits := [], closed := false }
  queue := []
  response := none
  draws := 0

end Sys2Proof.Machine
end

