-- ==== Sys2Proof/Machine/Ops.lean ====
section
/-! DEFINITION. The named operations over streams, tables and the command outcome. A command body is a function from a
state to a `Run`; completion turns a `Run` into the outcome of the CORE step (60_exceptions.md R231, R232). -/

namespace Sys2Proof.Machine

/-! ### Bit strings (00_scope.md R12) -/

/-- R12 `val(s)`: the natural whose bits, the first one most significant, are `s`. -/
def val (bs : Bits) : Nat := bs.foldl (fun acc b => 2 * acc + b.toNat) 0

/-- R12 `bin_n(v mod 2^n)`: the low `n` bits of `v`, the most significant first. -/
def bin : Nat → Nat → Bits
  | 0, _ => []
  | n + 1, v => v.testBit n :: bin n v

/-- R75: the bits of a byte file, MSB first per byte. -/
def bitsOfBytes (bytes : List (BitVec 8)) : Bits := bytes.flatMap (fun b => bin 8 b.toNat)

/-! ### How a command body ends -/

/-- The end of a command body (R11, R231): success, an error with the writes made before it, or a walk over an arena that
holds no valid tree. -/
inductive Run where
  | ok (s : State)
  | raised (c : ErrCode) (s : State)
  | stuck (f : Fault) (s : State)
  deriving DecidableEq, Repr

/-- R15: the next statement runs only after success. -/
def Run.andThen (r : Run) (next : State → Run) : Run :=
  match r with
  | .ok s => next s
  | .raised c s => .raised c s
  | .stuck f s => .stuck f s

/-- The state a body has written when it ends, however it ends. -/
def Run.state : Run → State
  | .ok s => s
  | .raised _ s => s
  | .stuck _ s => s

/-- R15 `require c else code`. -/
def State.require (s : State) (c : Bool) (code : ErrCode) : Run :=
  if c then .ok s else .raised code s

/-- R232, success. -/
def State.completeOk (s : State) : State :=
  { s with status := { s.status with done := true, err := false, errCode := .none, busy := false } }

/-- R232, error `c`: the whole of what HTB does when it takes an error (R234, R242). There is no return (R243). -/
def State.completeErr (s : State) (c : ErrCode) : State :=
  { s with status := { s.status with done := false, err := true, errCode := c, busy := false } }

/-- R232: the outcome of the CORE step that performed a command. -/
def finish : Run → Host.Outcome State Fault Refusal
  | .ok s => .next s.completeOk
  | .raised c s => .next (s.completeErr c)
  | .stuck f _ => .fault f

/-! ### Streams (20_memory.md R70 to R74) -/

/-- The number of bits IN still holds. -/
def State.bitsLeft (s : State) : Nat := s.inp.data.length - s.inp.pos

/-- A new IN.pos; the data of IN never changes (R70). -/
def State.seek (s : State) (p : Nat) : State :=
  { s with inp := { s.inp with pos := p } }

/-- R71: what a read that answers END does to IN: the remaining bits are consumed. -/
def State.inToEnd (s : State) : State := s.seek s.inp.data.length

/-- R71 `ReadBits(n)` on IN: the value, `none` for END, and the new position. -/
def InStream.read (i : InStream) (n : Nat) : Option Nat × Nat :=
  if i.pos + n ≤ i.data.length then (some (val ((i.data.drop i.pos).take n)), i.pos + n)
  else (none, i.data.length)

/-- R71 `ReadBits(n)`; `none` is END. -/
def State.readBits (s : State) (n : Nat) : Option Nat × State :=
  ((s.inp.read n).1, s.seek (s.inp.read n).2)

/-- R14 `WriteStr(s)`. -/
def State.writeStr (s : State) (bs : Bits) : State :=
  { s with out := { s.out with bits := s.out.bits ++ bs } }

/-- R72 `WriteBits(n, v)`. -/
def State.writeBits (s : State) (n v : Nat) : State := s.writeStr (bin n v)

/-- R73 `Rewind()`. -/
def State.rewind (s : State) : State := s.seek 0

/-- R74: the zero bits that bring OUT to a byte boundary. -/
def OutStream.padding (o : OutStream) : Bits := List.replicate ((8 - o.bits.length % 8) % 8) false

/-- R74: what `Close()` leaves of OUT. -/
def OutStream.close (o : OutStream) : OutStream :=
  if o.closed then o else { bits := o.bits ++ o.padding, closed := true }

/-- R74 `Close()`. -/
def State.close (s : State) : State :=
  { s with out := s.out.close }

/-! ### The tables -/

/-- R38 `FREQ[i]`; an index above 256 selects no entry and reads 0 (R40). -/
def State.freqAt (s : State) (i : Nat) : Word := s.freq[i]?.getD 0

/-- R38 `FREQ[i] <- w`; an index above 256 selects no entry and nothing is written (R40). -/
def State.setFreq (s : State) (i : Nat) (w : Word) : State :=
  { s with freq := s.freq.setIfInBounds i w }

/-- R130: every FREQ entry to 0. -/
def State.clearFreq (s : State) : State :=
  { s with freq := Vector.replicate 257 0 }

/-- R41 `NODE[i]`; `none` where the entry holds no value. -/
def State.nodeAt (s : State) (i : NodeIdx) : Option Node := (s.node[i.toNat]?).join

/-- R41 `NODE[i] <- n`. -/
def State.setNode (s : State) (i : Nat) (n : Node) : State :=
  { s with node := s.node.setIfInBounds i (some n) }

/-- R41 `NODE[i].w`. -/
def Node.weight : Node → Word
  | .leaf _ w => w
  | .internal w _ _ => w

/-- R45 `CODE_PRESENT[i]`, `CODE_LEN[i]` and `CODE_BITS[i]`; an index above 256 selects no entry (R47, R49). -/
def State.codeAt (s : State) (i : Nat) : CodeEntry := s.code[i]?.getD CodeEntry.empty

/-- R45: the three array writes of one symbol. -/
def State.setCode (s : State) (i : Nat) (e : CodeEntry) : State :=
  { s with code := s.code.setIfInBounds i e }

/-! ### The result registers -/

/-- R134, R166: what BUILD_TREE and READ_HEADER write on entry. -/
def State.dropTree (s : State) : State :=
  { s with
    status := { s.status with treeValid := false, codeValid := false }
    regs := { root := 0, nodeCount := 0, leafCount := 0, total := 0, maxLen := 0 } }

/-- R134, R166: what they write when the tree is complete. -/
def State.publishTree (s : State) (root n leaves : Nat) (total : Word) : State :=
  { s with
    status := { s.status with treeValid := true }
    regs :=
      { s.regs with
        root := BitVec.ofNat 10 root, nodeCount := BitVec.ofNat 10 n,
        leafCount := BitVec.ofNat 10 leaves, total := total } }

end Sys2Proof.Machine
end

