-- ==== Sys2Proof/Machine/Operands.lean ====
section
/-! DEFINITION. The operand forms of HTB. A command word has no operand field (30_encoding.md R100, R104): a command takes
its operands from IN, as fields of 1, 8, 9 or 32 bits (20_memory.md R82), from the tables, and from MAGIC; it gives them to
OUT as fields of 1, 8, 9 or 32 bits or as a code. The registers of the host window are named by an offset (R21). -/

namespace Sys2Proof.Machine

/-- R82, R104: a header tag, or one step of the decode walk. -/
def State.readBit (s : State) : Option Nat × State := s.readBits 1

/-- R82, R104: an input symbol. -/
def State.readByte (s : State) : Option Nat × State := s.readBits 8

/-- R82, R104: a header symbol. -/
def State.readSym (s : State) : Option Nat × State := s.readBits 9

/-- R82, R104: a magic word. -/
def State.readMagic (s : State) : Option Nat × State := s.readBits 32

/-- R107: the record of an Internal node. -/
def State.writeInternalTag (s : State) : State := s.writeBits 1 0

/-- R107: the record of a Leaf, its tag and then its symbol. -/
def State.writeLeafRecord (s : State) (sym : Sym) : State := (s.writeBits 1 1).writeBits 9 sym.toNat

/-- R113: a code, `WriteBits(CODE_LEN, CODE_BITS)`. -/
def State.writeCode (s : State) (e : CodeEntry) : State := s.writeBits e.len.toNat e.bits.toNat

/-- R186: a decoded symbol. -/
def State.writeByte (s : State) (sym : Sym) : State := s.writeBits 8 sym.toNat

/-- R206: the magic word. -/
def State.writeMagicWord (s : State) : State := s.writeBits 32 s.magic.toNat

/-- R45, R150: the entries of a symbol whose code is the bit string `c`. -/
def CodeEntry.ofPath (c : Bits) : CodeEntry := ⟨true, BitVec.ofNat 9 c.length, BitVec.ofNat 256 (val c)⟩

/-- R21: the register at a word-aligned window offset. -/
def regAt (offset : BitVec 7) : HostReg :=
  match offset.toNat with
  | 0x00 => .id
  | 0x04 => .ctrl
  | 0x08 => .cmd
  | 0x0C => .status
  | 0x10 => .cfg
  | 0x14 => .magic
  | 0x18 => .root
  | 0x1C => .nodeCount
  | 0x20 => .leafCount
  | 0x24 => .total
  | 0x28 => .maxLen
  | 0x30 => .freqIdx
  | 0x34 => .freqData
  | 0x38 => .nodeIdx
  | 0x3C => .nodeWeight
  | 0x40 => .nodeInfo
  | 0x44 => .codeIdx
  | 0x48 => .codeInfo
  | 0x4C => .codeWsel
  | 0x50 => .codeWord
  | _ => .reserved

/-- R78: the width of an access in bits. -/
def AccessWidth.bits : AccessWidth → Nat
  | .byte => 8
  | .half => 16
  | .word => 32

/-- R78: the window offset that a bus offset reaches. HTB decodes 0x00 to 0x7F; which other offsets reach it is the
platform's choice (log entry 10). -/
def windowOffset (offset : Nat) : Option (BitVec 7) :=
  if offset < Config.windowBytes then some (BitVec.ofNat 7 offset) else Config.platformDecode offset

end Sys2Proof.Machine
end

