-- ==== Sys2Proof/Machine/Flags.lean ====
section
/-! DEFINITION. STATUS, CFG and IRQ: how their bits are packed, read, set and cleared (10_state.md R27 to R31, R50 to R52,
60_exceptions.md R230, R240). -/

namespace Sys2Proof.Machine

/-- R230: the number of an error code. -/
def ErrCode.toBits : ErrCode → BitVec 4
  | .none => 0
  | .badMagic => 1
  | .truncHeader => 2
  | .truncBody => 3
  | .overflow => 4
  | .noSentinel => 5
  | .noTree => 6
  | .noCodes => 7
  | .noCode => 8
  | .dupSymbol => 9
  | .headerTooLarge => 10
  | .badSymbol => 11
  | .outClosed => 12
  | .illegalCmd => 13

/-- R28: the number of a decoder state. -/
def DecState.toBits : DecState → BitVec 2
  | .idle => 0
  | .walking => 1
  | .done => 2
  | .error => 3

/-- R28: the STATUS word for given values of the three fields that a read may draw. -/
def Status.word (st : Status) (outClosed inEnd : Bool) (dec : BitVec 2) : Word :=
  (0 : BitVec 18) ++ dec ++ st.errCode.toBits ++ BitVec.ofBool inEnd ++ BitVec.ofBool outClosed
    ++ BitVec.ofBool st.codeValid ++ BitVec.ofBool st.treeValid ++ BitVec.ofBool st.ovr
    ++ BitVec.ofBool st.err ++ BitVec.ofBool st.done ++ BitVec.ofBool st.busy

/-- R30: the mirror of the end of IN. -/
def State.inEnd (s : State) : Bool := s.inp.pos == s.inp.data.length

/-- R28, R30: STATUS as HOST reads it while BUSY = 0. -/
def State.statusWord (s : State) : Word := s.status.word s.out.closed s.inEnd s.status.decState.toBits

/-- R51, R56: STATUS as HOST reads it while BUSY = 1: OUT_CLOSED, IN_END and DEC_STATE are drawn. -/
def State.statusWordBusy (s : State) : Word :=
  s.status.word (Config.freeOutClosed s.draws) (Config.freeInEnd s.draws) (Config.freeDecState s.draws)

/-- R31: CFG as HOST reads it. -/
def Cfg.word (c : Cfg) : Word := (0 : BitVec 29) ++ c.dbgLevel ++ BitVec.ofBool c.irqEn

/-- R31: CFG as HOST writes it. -/
def Cfg.ofWord (v : Word) : Cfg := { irqEn := v.getLsbD 0, dbgLevel := v.extractLsb' 1 2 }

/-- R29: a HOST write of `v` to STATUS clears the W1C bits that `v` has set. -/
def State.clearStatus (s : State) (v : Word) : State :=
  { s with
    status :=
      { s.status with
        done := s.status.done && !v.getLsbD 1
        err := s.status.err && !v.getLsbD 2
        ovr := s.status.ovr && !v.getLsbD 3 } }

/-- R26, R52: a HOST write dropped because BUSY = 1. -/
def State.dropWrite (s : State) : State :=
  { s with status := { s.status with ovr := true } }

/-- R27: command acceptance. -/
def State.accept (s : State) (v : Word) : State :=
  { s with cmd := v, pending := v, status := { s.status with busy := true, done := false, err := false } }

/-- R240: the interrupt output, a level. -/
def State.irq (s : State) : Bool := s.cfg.irqEn && (s.status.done || s.status.err)

end Sys2Proof.Machine
end

