-- ==== Sys2Proof/Machine/CountTree.lean ====
section
/-! DEFINITION. COUNT and BUILD_TREE (40_count_and_tree.md R130 to R139). A loop that reads IN recurses on the number of bits
IN still holds, since each pass consumes at least one of them (R279); with none left its next read answers END. -/

namespace Sys2Proof.Machine

/-! ### COUNT -/

/-- R130: the loop of COUNT; `n` is the number of bytes counted so far. -/
def countLoop : Nat → Nat → State → Run
  | 0, _, s => .ok s.inToEnd
  | fuel + 1, n, s =>
    match s.readByte with
    | (none, s') => .ok s'
    | (some v, s') =>
      if n = 4294967294 then .raised .overflow s'
      else countLoop fuel (n + 1) (s'.setFreq v (s'.freqAt v + 1))

/-- R130, R131, R132. -/
def countBody (s : State) : Run :=
  (countLoop s.bitsLeft 0 s.clearFreq).andThen fun s' => .ok (s'.setFreq Config.sentinel 1)

/-- R130 COUNT. -/
def execCount (s : State) : Host.Outcome State Fault Refusal := finish (countBody s)

/-! ### BUILD_TREE -/

/-- R54: an element of PQ, the index `i` with its order key (NODE[i].w, i). -/
structure PqEntry where
  w : Word
  i : Nat
  deriving DecidableEq, Repr

/-- R135: lexicographic order of the keys (weight, index). -/
def PqEntry.before (a b : PqEntry) : Bool := a.w < b.w || (a.w == b.w && a.i < b.i)

/-- The entry of least key among `e` and `q`. -/
def pqMin (e : PqEntry) (q : List PqEntry) : PqEntry := q.foldl (fun m x => if x.before m then x else m) e

/-- R135 `ExtractMin(PQ)`; `none` when PQ is empty. -/
def extractMin : List PqEntry → Option (PqEntry × List PqEntry)
  | [] => none
  | e :: q => some (pqMin e q, (e :: q).erase (pqMin e q))

/-- The locals of BUILD_TREE: the state written so far, the number of NODE entries in use, and PQ. -/
structure Builder where
  s : State
  n : Nat
  pq : List PqEntry
  deriving DecidableEq, Repr

/-- R134: one pass of the loop over the symbols. -/
def placeLeaf (b : Builder) (sym : Nat) : Builder :=
  if b.s.freqAt sym = 0 then b
  else
    { s := b.s.setNode b.n (.leaf (BitVec.ofNat 9 sym) (b.s.freqAt sym))
      n := b.n + 1
      pq := ⟨b.s.freqAt sym, b.n⟩ :: b.pq }

/-- R134: the leaves of the active symbols, in ascending symbol order. -/
def placeLeaves (s : State) : Builder := (List.range Config.nsym).foldl placeLeaf ⟨s, 0, []⟩

/-- R134: one pass of the merge loop; `none` when PQ has fewer than two elements. -/
def mergeStep (b : Builder) : Option Builder :=
  match extractMin b.pq with
  | none => none
  | some (left, rest) =>
    match extractMin rest with
    | none => none
    | some (right, rest') =>
      some
        { s := b.s.setNode b.n (.internal (left.w + right.w) (BitVec.ofNat 10 left.i) (BitVec.ofNat 10 right.i))
          n := b.n + 1
          pq := ⟨left.w + right.w, b.n⟩ :: rest' }

/-- R134: the merge loop. Each pass takes one element from PQ, so as many passes as PQ has elements are enough. -/
def mergeAll : Nat → Builder → Builder
  | 0, b => b
  | fuel + 1, b =>
    match mergeStep b with
    | none => b
    | some b' => mergeAll fuel b'

/-- R134: the exact sum of the counts. -/
def State.freqSum (s : State) : Nat := (s.freq.toList.map BitVec.toNat).sum

/-- R134: ROOT is the single element of PQ. The sentinel is active, so PQ is not empty. -/
def publishRoot (leaves : Nat) (b : Builder) : Run :=
  match b.pq with
  | [] => .stuck .brokenArena b.s
  | root :: _ => .ok (b.s.publishTree root.i b.n leaves root.w)

/-- R134: the part of BUILD_TREE after its checks. -/
def growTree (s : State) : Run := publishRoot (placeLeaves s).n (mergeAll (placeLeaves s).n (placeLeaves s))

/-- R134. -/
def buildTreeBody (s : State) : Run :=
  (s.dropTree.require (s.freqAt Config.sentinel != 0) .noSentinel).andThen fun s' =>
    (s'.require (s'.freqSum ≤ Config.maxTotal) .overflow).andThen growTree

/-- R134 BUILD_TREE. -/
def execBuildTree (s : State) : Host.Outcome State Fault Refusal := finish (buildTreeBody s)

end Sys2Proof.Machine
end

