-- ==== Sys2Proof/Machine/CodeTable.lean ====
section
/-! DEFINITION. GEN_CODES (41_code_table.md R150 to R156). -/

namespace Sys2Proof.Machine

/-- R150 `Visit(i, c)`. The first argument is the room left on the traversal stack (R55); no walk of a valid tree exhausts
it. -/
def visit : Nat → NodeIdx → Bits → State → Run
  | 0, _, _, s => .stuck .brokenArena s
  | room + 1, i, c, s =>
    match s.nodeAt i with
    | none => .stuck .brokenArena s
    | some (.leaf sym _) =>
      if (s.codeAt sym.toNat).present then .raised .dupSymbol s
      else .ok (s.setCode sym.toNat (CodeEntry.ofPath c))
    | some (.internal _ l r) =>
      (visit room l (c ++ [false]) s).andThen fun s' => visit room r (c ++ [true]) s'

/-- R150: what GEN_CODES writes on entry. -/
def State.dropCodes (s : State) : State :=
  { s with
    status := { s.status with codeValid := false }
    regs := { s.regs with maxLen := 0 }
    code := Vector.replicate 257 CodeEntry.empty }

/-- R37, R150: the largest CODE_LEN of a present symbol. -/
def State.longestCode (s : State) : CodeLen :=
  s.code.toList.foldl (fun m e => if e.present && m < e.len then e.len else m) 0

/-- R150: what GEN_CODES writes when every leaf has its code. -/
def State.publishCodes (s : State) : State :=
  { s with
    status := { s.status with codeValid := true }
    regs := { s.regs with maxLen := s.longestCode } }

/-- R150. -/
def genCodesBody (s : State) : Run :=
  (s.dropCodes.require s.status.treeValid .noTree).andThen fun s' =>
    (visit Config.nodeCap s'.regs.root [] s').andThen fun s'' => .ok s''.publishCodes

/-- R150 GEN_CODES. -/
def execGenCodes (s : State) : Host.Outcome State Fault Refusal := finish (genCodesBody s)

end Sys2Proof.Machine
end

