-- ==== Sys2Proof/Machine/Header.lean ====
section
/-! DEFINITION. WRITE_HEADER and READ_HEADER (42_header.md R160 to R171, 30_encoding.md R107 to R110). -/

namespace Sys2Proof.Machine

/-! ### WRITE_HEADER -/

/-- R160 `Emit(i)`. The first argument is the room left on the traversal stack (R55). -/
def emit : Nat → NodeIdx → State → Run
  | 0, _, s => .stuck .brokenArena s
  | room + 1, i, s =>
    match s.nodeAt i with
    | none => .stuck .brokenArena s
    | some (.leaf sym _) => .ok (s.writeLeafRecord sym)
    | some (.internal _ l r) => (emit room l s.writeInternalTag).andThen fun s' => emit room r s'

/-- R160. -/
def writeHeaderBody (s : State) : Run :=
  (s.require s.status.treeValid .noTree).andThen fun s' =>
    (s'.require (!s'.out.closed) .outClosed).andThen fun s'' => emit Config.nodeCap s''.regs.root s''

/-- R160 WRITE_HEADER. -/
def execWriteHeader (s : State) : Host.Outcome State Fault Refusal := finish (writeHeaderBody s)

/-! ### READ_HEADER -/

/-- The end of a `Parse()` call (R166): the index it returns with the nodes and leaves allocated so far, or the end of the
command. -/
inductive Parse where
  | ok (i n leaves : Nat) (s : State)
  | raised (c : ErrCode) (s : State)
  | stuck (s : State)
  deriving DecidableEq, Repr

/-- The next statement runs only if the call returned. -/
def Parse.andThen (p : Parse) (next : Nat → Nat → Nat → State → Parse) : Parse :=
  match p with
  | .ok i n leaves s => next i n leaves s
  | .raised c s => .raised c s
  | .stuck s => .stuck s

/-- R166: the part of `Parse()` that reads a leaf's symbol, after its tag, for the node `i`. -/
def parseLeaf (i leaves : Nat) (s : State) : Parse :=
  match s.readSym with
  | (none, s') => .raised .truncHeader s'
  | (some v, s') =>
    if symWf v then .ok i (i + 1) (leaves + 1) (s'.setNode i (.leaf (BitVec.ofNat 9 v) 0))
    else .raised .badSymbol s'

/-- R166 `Parse()`. The first argument bounds the depth of the calls: one more than NODE_CAP is never exhausted, since each
call on the way down has allocated a node (log entry 16). -/
def parse : Nat → Nat → Nat → State → Parse
  | 0, _, _, s => .stuck s
  | depth + 1, n, leaves, s =>
    match s.readBit with
    | (none, s') => .raised .truncHeader s'
    | (some t, s') =>
      if n = Config.nodeCap then .raised .headerTooLarge s'
      else if t = 1 then parseLeaf n leaves s'
      else
        (parse depth (n + 1) leaves s').andThen fun l n1 leaves1 s1 =>
          (parse depth n1 leaves1 s1).andThen fun r n2 leaves2 s2 =>
            .ok n n2 leaves2 (s2.setNode n (.internal 0 (BitVec.ofNat 10 l) (BitVec.ofNat 10 r)))

/-- R166. -/
def readHeaderBody (s : State) : Run :=
  match parse (Config.nodeCap + 1) 0 0 s.dropTree with
  | .ok root n leaves s' => .ok (s'.publishTree root n leaves 0)
  | .raised c s' => .raised c s'
  | .stuck s' => .stuck .brokenArena s'

/-- R166 READ_HEADER. -/
def execReadHeader (s : State) : Host.Outcome State Fault Refusal := finish (readHeaderBody s)

end Sys2Proof.Machine
end

