-- ==== Sys2Proof/Machine/Body.lean ====
section
/-! DEFINITION. ENCODE_BODY and DECODE_BODY (43_body.md R180 to R192). Their loops recurse on the number of bits IN still
holds, as COUNT's does (R279). -/

namespace Sys2Proof.Machine

/-! ### ENCODE_BODY -/

/-- R180: the loop of ENCODE_BODY. -/
def encodeLoop : Nat → State → Run
  | 0, s => .ok s.inToEnd
  | fuel + 1, s =>
    match s.readByte with
    | (none, s') => .ok s'
    | (some v, s') =>
      if (s'.codeAt v).present then encodeLoop fuel (s'.writeCode (s'.codeAt v))
      else .raised .noCode s'

/-- R180, R181. -/
def encodeBodyBody (s : State) : Run :=
  (s.require s.status.codeValid .noCodes).andThen fun s1 =>
    (s1.require (!s1.out.closed) .outClosed).andThen fun s2 =>
      (s2.require (s2.codeAt Config.sentinel).present .noCode).andThen fun s3 =>
        (encodeLoop s3.bitsLeft s3).andThen fun s4 => .ok (s4.writeCode (s4.codeAt Config.sentinel))

/-- R180 ENCODE_BODY. -/
def execEncodeBody (s : State) : Host.Outcome State Fault Refusal := finish (encodeBodyBody s)

/-! ### DECODE_BODY -/

/-- R56: a write of STATUS.DEC_STATE. -/
def State.setDec (s : State) (d : DecState) : State :=
  { s with status := { s.status with decState := d } }

/-- R186: "any raise in it first does DEC_STATE <- ERROR". -/
def Run.decodeError : Run → Run
  | .ok s => .ok s
  | .raised c s => .raised c (s.setDec .error)
  | .stuck f s => .stuck f s

/-- R186: the loop of DECODE_BODY, at the walk pointer `p` (R56). -/
def decodeLoop : Nat → NodeIdx → State → Run
  | 0, _, s => .raised .truncBody s.inToEnd
  | fuel + 1, p, s =>
    match s.readBit with
    | (none, s') => .raised .truncBody s'
    | (some b, s') =>
      match s'.nodeAt p with
      | some (.internal _ l r) =>
        match s'.nodeAt (if b = 0 then l else r) with
        | some (.leaf sym _) =>
          if sym.toNat = Config.sentinel then .ok (s'.setDec .done)
          else decodeLoop fuel s'.regs.root (s'.writeByte sym)
        | some (.internal _ _ _) => decodeLoop fuel (if b = 0 then l else r) s'
        | none => .stuck .brokenArena s'
      | _ => .stuck .brokenArena s'

/-- R186, R187: the walk from the root, which is looked at before any bit is read. -/
def decodeWalk (s : State) : Run :=
  match s.nodeAt s.regs.root with
  | none => .stuck .brokenArena s
  | some (.leaf sym _) => if sym.toNat = Config.sentinel then .ok (s.setDec .done) else .raised .truncBody s
  | some (.internal _ _ _) => decodeLoop s.bitsLeft s.regs.root s

/-- R186. -/
def decodeBodyBody (s : State) : Run :=
  (((s.setDec .walking).require s.status.treeValid .noTree).andThen fun s1 =>
    (s1.require (!s1.out.closed) .outClosed).andThen decodeWalk).decodeError

/-- R186 DECODE_BODY. -/
def execDecodeBody (s : State) : Host.Outcome State Fault Refusal := finish (decodeBodyBody s)

end Sys2Proof.Machine
end

