-- ==== Sys2Proof/Machine/Container.lean ====
section
/-! DEFINITION. NOP, REWIND_IN, CLOSE_OUT, WRITE_MAGIC, CHECK_MAGIC and the macro commands COMPRESS and DECOMPRESS
(44_container_and_control.md R200 to R222). -/

namespace Sys2Proof.Machine

/-- R200 NOP. -/
def execNop (s : State) : Host.Outcome State Fault Refusal := finish (.ok s)

/-- R202. -/
def rewindInBody (s : State) : Run := .ok s.rewind

/-- R202 REWIND_IN. -/
def execRewindIn (s : State) : Host.Outcome State Fault Refusal := finish (rewindInBody s)

/-- R204. -/
def closeOutBody (s : State) : Run := .ok s.close

/-- R204 CLOSE_OUT. -/
def execCloseOut (s : State) : Host.Outcome State Fault Refusal := finish (closeOutBody s)

/-- R206. -/
def writeMagicBody (s : State) : Run :=
  (s.require (!s.out.closed) .outClosed).andThen fun s' => .ok s'.writeMagicWord

/-- R206 WRITE_MAGIC. -/
def execWriteMagic (s : State) : Host.Outcome State Fault Refusal := finish (writeMagicBody s)

/-- R208. -/
def checkMagicBody (s : State) : Run :=
  match s.readMagic with
  | (none, s') => .raised .badMagic s'
  | (some v, s') => if v = s'.magic.toNat then .ok s' else .raised .badMagic s'

/-- R208 CHECK_MAGIC. -/
def execCheckMagic (s : State) : Host.Outcome State Fault Refusal := finish (checkMagicBody s)

/-- R210, R212: the steps of COMPRESS. -/
def compressBody (s : State) : Run :=
  (countBody s).andThen fun s1 =>
    (rewindInBody s1).andThen fun s2 =>
      (buildTreeBody s2).andThen fun s3 =>
        (genCodesBody s3).andThen fun s4 =>
          (writeMagicBody s4).andThen fun s5 =>
            (writeHeaderBody s5).andThen fun s6 =>
              (encodeBodyBody s6).andThen closeOutBody

/-- R212 COMPRESS. -/
def execCompress (s : State) : Host.Outcome State Fault Refusal := finish (compressBody s)

/-- R210, R216: the steps of DECOMPRESS. -/
def decompressBody (s : State) : Run :=
  (checkMagicBody s).andThen fun s1 =>
    (readHeaderBody s1).andThen fun s2 =>
      (decodeBodyBody s2).andThen closeOutBody

/-- R216 DECOMPRESS. -/
def execDecompress (s : State) : Host.Outcome State Fault Refusal := finish (decompressBody s)

/-- R101, R236: the performance of a word that selects no command. -/
def execIllegal (s : State) : Host.Outcome State Fault Refusal := finish (.raised .illegalCmd s)

end Sys2Proof.Machine
end

