-- ==== Sys2Proof/Machine/Dispatch.lean ====
section
/-! DEFINITION. What performing each command does: one arm per constructor of Instr. -/

namespace Sys2Proof.Machine

def exec (i : Instr) (s : State) : Host.Outcome State Fault Refusal :=
  match i with
  | .nop => Sys2Proof.Machine.execNop s
  | .count => Sys2Proof.Machine.execCount s
  | .buildTree => Sys2Proof.Machine.execBuildTree s
  | .genCodes => Sys2Proof.Machine.execGenCodes s
  | .writeHeader => Sys2Proof.Machine.execWriteHeader s
  | .readHeader => Sys2Proof.Machine.execReadHeader s
  | .encodeBody => Sys2Proof.Machine.execEncodeBody s
  | .decodeBody => Sys2Proof.Machine.execDecodeBody s
  | .writeMagic => Sys2Proof.Machine.execWriteMagic s
  | .checkMagic => Sys2Proof.Machine.execCheckMagic s
  | .rewindIn => Sys2Proof.Machine.execRewindIn s
  | .closeOut => Sys2Proof.Machine.execCloseOut s
  | .compress => Sys2Proof.Machine.execCompress s
  | .decompress => Sys2Proof.Machine.execDecompress s

end Sys2Proof.Machine
end

