-- ==== Sys2Proof/Machine/HostPort.lean ====
section
/-! DEFINITION. The host register window (10_state.md R21 to R52) and HTB's reset (70_reset_and_hazards.md R260 to R263). -/

namespace Sys2Proof.Machine

/-! ### The table windows -/

/-- R43, R44: the NODE entry that the windows show: none unless TREE_VALID = 1 and NODE_IDX < NODE_COUNT. -/
def State.shownNode (s : State) : Option Node :=
  if s.status.treeValid && s.idx.nodeIdx < s.regs.nodeCount then s.nodeAt s.idx.nodeIdx else none

/-- R43 NODE_WEIGHT. -/
def State.nodeWeightWord (s : State) : Word :=
  match s.shownNode with
  | none => 0
  | some n => n.weight

/-- R44: the layout of NODE_INFO. -/
def Node.infoWord : Node → Word
  | .leaf sym _ => (1 : BitVec 1) ++ (0 : BitVec 2) ++ sym ++ (0 : BitVec 20)
  | .internal _ l r => (0 : BitVec 12) ++ r ++ l

/-- R44 NODE_INFO. -/
def State.nodeInfoWord (s : State) : Word :=
  match s.shownNode with
  | none => 0
  | some n => n.infoWord

/-- R47, R49: the code entries that the windows show: those of no symbol unless CODE_VALID = 1; an index above 256 selects
no entry. -/
def State.shownCode (s : State) : CodeEntry :=
  if s.status.codeValid then s.codeAt s.idx.codeIdx.toNat else CodeEntry.empty

/-- R47 CODE_INFO. -/
def State.codeInfoWord (s : State) : Word :=
  BitVec.ofBool s.shownCode.present ++ (0 : BitVec 22) ++ s.shownCode.len

/-- R49 CODE_WORD. -/
def State.codeWordWord (s : State) : Word := s.shownCode.bits.extractLsb' (32 * s.idx.codeWsel.toNat) 32

/-! ### Reads -/

/-- R22 to R49: what a register reads while BUSY = 0. -/
def State.readReg (s : State) : HostReg → Word
  | .id => Config.idValue
  | .ctrl => 0
  | .cmd => s.cmd
  | .status => s.statusWord
  | .cfg => s.cfg.word
  | .magic => s.magic
  | .root => s.regs.root.setWidth 32
  | .nodeCount => s.regs.nodeCount.setWidth 32
  | .leafCount => s.regs.leafCount.setWidth 32
  | .total => s.regs.total
  | .maxLen => s.regs.maxLen.setWidth 32
  | .freqIdx => s.idx.freqIdx.setWidth 32
  | .freqData => s.freqAt s.idx.freqIdx.toNat
  | .nodeIdx => s.idx.nodeIdx.setWidth 32
  | .nodeWeight => s.nodeWeightWord
  | .nodeInfo => s.nodeInfoWord
  | .codeIdx => s.idx.codeIdx.setWidth 32
  | .codeInfo => s.codeInfoWord
  | .codeWsel => s.idx.codeWsel.setWidth 32
  | .codeWord => s.codeWordWord
  | .reserved => 0

/-- R51: what a register reads while BUSY = 1: a result register or window is drawn freely, and so are three fields of
STATUS. -/
def State.readRegBusy (s : State) : HostReg → Word
  | .id => s.readReg .id
  | .ctrl => s.readReg .ctrl
  | .cmd => s.readReg .cmd
  | .status => s.statusWordBusy
  | .cfg => s.readReg .cfg
  | .magic => s.readReg .magic
  | .root => Config.freeWord s.draws
  | .nodeCount => Config.freeWord s.draws
  | .leafCount => Config.freeWord s.draws
  | .total => Config.freeWord s.draws
  | .maxLen => Config.freeWord s.draws
  | .freqIdx => s.readReg .freqIdx
  | .freqData => Config.freeWord s.draws
  | .nodeIdx => s.readReg .nodeIdx
  | .nodeWeight => Config.freeWord s.draws
  | .nodeInfo => Config.freeWord s.draws
  | .codeIdx => s.readReg .codeIdx
  | .codeInfo => Config.freeWord s.draws
  | .codeWsel => s.readReg .codeWsel
  | .codeWord => Config.freeWord s.draws
  | .reserved => s.readReg .reserved

/-- The response of HOST's move, which is no state of HTB (log entry 5). -/
def State.respond (s : State) (r : Response) : State :=
  { s with response := some r }

/-- The next free value is fresh (log entry 6). -/
def State.drawn (s : State) : State :=
  { s with draws := s.draws + 1 }

/-- R22, R51 `HostRead` of a register: HTB's state does not change. -/
def hostRead (r : HostReg) (s : State) : State :=
  if s.status.busy then s.drawn.respond (.value (s.readRegBusy r))
  else s.respond (.value (s.readReg r))

/-! ### Reset -/

/-- R58, R260: HTB's registers and tables at their reset values. IN and OUT are not changed, and neither are HOST's moves to
come, its last response and the count of free values, which are not HTB's. -/
def State.resetCore (s : State) : State :=
  { State.reset with inp := s.inp, out := s.out, queue := s.queue, response := s.response, draws := s.draws }

/-- R263: does the pending command rewind IN? -/
def State.pendingRewinds (s : State) : Bool :=
  match decode s.pending with
  | .ok .rewindIn => true
  | .ok .compress => true
  | _ => false

/-- R263: IN.pos after a reset of a pending command, where the performed command would have left it at `pos1`. -/
def State.abandonedPos (s : State) (pos1 : Nat) : Nat :=
  if s.pendingRewinds then Config.freePos s.draws % (s.inp.data.length + 1)
  else s.inp.pos + Config.freePos s.draws % (pos1 - s.inp.pos + 1)

/-- R263: OUT.bits after a reset of a pending command, where the performed command would have left it at `bits1`: a prefix of
what the command appends. -/
def State.abandonedBits (s : State) (bits1 : Bits) : Bits :=
  s.out.bits ++
    (bits1.drop s.out.bits.length).take
      (Config.freePrefix s.draws % ((bits1.drop s.out.bits.length).length + 1))

/-- R236, R263: does the pending word select a command, so that performing it could move a stream? -/
def State.pendingSelects (s : State) : Bool :=
  match decode s.pending with
  | .ok _ => true
  | .error _ => false

/-- R263: OUT.closed after a reset of a pending command. -/
def State.abandonedClosed (s : State) (bits1 : Bits) : Bool :=
  s.out.closed || (s.pendingSelects && s.abandonedBits bits1 == bits1 && Config.freeClosed s.draws)

/-- R263: the streams after a reset of a pending command; `post` is the state the command would have left. -/
def State.abandon (s post : State) : State :=
  { s with
    inp := { s.inp with pos := s.abandonedPos post.inp.pos }
    out := { bits := s.abandonedBits post.out.bits, closed := s.abandonedClosed post.out.bits }
    draws := s.draws + 1 }

/-- R260, R262, R263: a hardware or soft reset; `post` is the state that the pending command, if there is one, would have
left. -/
def State.resetHtb (s post : State) : State :=
  if s.status.busy then (s.abandon post).resetCore else s.resetCore

/-! ### Writes -/

/-- R22 to R49: what a write of `v` to a register does while BUSY = 0. -/
def State.writeReg (s : State) (v : Word) (post : State) : HostReg → State
  | .ctrl => if v.getLsbD 0 then s.resetHtb post else s
  | .cmd => s.accept v
  | .status => s.clearStatus v
  | .cfg => { s with cfg := Cfg.ofWord v }
  | .magic => { s with magic := v }
  | .freqIdx => { s with idx := { s.idx with freqIdx := v.extractLsb' 0 9 } }
  | .freqData => s.setFreq s.idx.freqIdx.toNat v
  | .nodeIdx => { s with idx := { s.idx with nodeIdx := v.extractLsb' 0 10 } }
  | .codeIdx => { s with idx := { s.idx with codeIdx := v.extractLsb' 0 9 } }
  | .codeWsel => { s with idx := { s.idx with codeWsel := v.extractLsb' 0 3 } }
  | .id => s
  | .root => s
  | .nodeCount => s
  | .leafCount => s
  | .total => s
  | .maxLen => s
  | .nodeWeight => s
  | .nodeInfo => s
  | .codeInfo => s
  | .codeWord => s
  | .reserved => s

/-- R24, R29, R52: while BUSY = 1 only CTRL and STATUS take a write. -/
def HostReg.writableBusy : HostReg → Bool
  | .ctrl => true
  | .status => true
  | _ => false

/-- R26, R52 `HostWrite` of `v` to a register. -/
def hostWrite (r : HostReg) (v : Word) (post s : State) : State :=
  if s.status.busy && !r.writableBusy then s.dropWrite.respond .written
  else (s.writeReg v post r).respond .written

end Sys2Proof.Machine
end

