-- ==== Sys2Proof/Machine/Sequencer.lean ====
section
/-! DEFINITION. Whose turn it is and what the turn does (00_scope.md R9, R10, 10_state.md R53, 20_memory.md R77, R78, R87).
The operations here take `run`, which performs a command, as an argument; Step.lean gives them exec. -/

namespace Sys2Proof.Machine

/-- R53, R101: CORE performs PENDING. -/
def performWith (run : Instr → State → Host.Outcome State Fault Refusal) (s : State) :
    Host.Outcome State Fault Refusal :=
  match decode s.pending with
  | .ok i => run i s
  | .error _ => execIllegal s

/-- R263: the state that performing PENDING would leave (log entry 7). -/
def postWith (run : Instr → State → Host.Outcome State Fault Refusal) (s : State) : State :=
  match performWith run s with
  | .next t => t
  | .fault _ => s
  | .refused _ => s

/-- R53, R249: CORE's turn: its step is enabled exactly when BUSY = 1; HTB is idle otherwise. -/
def coreTurnWith (run : Instr → State → Host.Outcome State Fault Refusal) (s : State) :
    Host.Outcome State Fault Refusal :=
  if s.status.busy then performWith run s else .next s

/-- R78, R239: a bus access, given what it does when it is well formed and reaches the window offset `off`. -/
def access (offset : Nat) (width : AccessWidth) (go : BitVec 7 → State → State) (s : State) : State :=
  match windowOffset offset with
  | none => s.respond .notClaimed
  | some off => if accessWf off.toNat width.bits then go off s else s.respond .busError

/-- R77: AttachIn and OpenOut are no moves of HOST while BUSY = 1 (R270). -/
def streamAction (s t : State) : Host.Outcome State Fault Refusal :=
  if s.status.busy then .fault .streamMoveWhileBusy else .next (t.respond .acted)

/-- R77, R78, R260: one move of HOST or of the reset input. -/
def hostTurnWith (run : Instr → State → Host.Outcome State Fault Refusal) (a : HostAction) (s : State) :
    Host.Outcome State Fault Refusal :=
  match a with
  | .read offset width => .next (access offset width (fun off t => hostRead (regAt off) t) s)
  | .write offset width v =>
    .next (access offset width (fun off t => hostWrite (regAt off) v (postWith run s) t) s)
  | .attachIn d => streamAction s { s with inp := { data := d, pos := 0 } }
  | .openOut => streamAction s { s with out := { bits := [], closed := false } }
  | .takeOut => .next (s.respond (.taken s.out.bits))
  | .hardReset => .next ((s.resetHtb (postWith run s)).respond .acted)

/-- R10, R87: the next turn. With no turn listed CORE has it, so an accepted command is performed at last (R278, log
entry 4). -/
def stepWith (run : Instr → State → Host.Outcome State Fault Refusal) (s : State) :
    Host.Outcome State Fault Refusal :=
  match s.queue with
  | [] => coreTurnWith run s
  | .core :: rest => coreTurnWith run { s with queue := rest }
  | .host a :: rest => hostTurnWith run a { s with queue := rest }

/-- The command word of a table word: its bits above `nbits` are 0. -/
def tableWord (nbits w : Nat) : Word := BitVec.ofNat 32 (w % 2 ^ nbits)

end Sys2Proof.Machine
end

