-- ==== Sys2Proof/Machine/Step.lean ====
section
/-! DEFINITION. One step of the machine, and the placing of a command word where the next step takes it. -/

namespace Sys2Proof.Machine

/-- One turn of one agent (R9, R10, R87). -/
def step (s : State) : Host.Outcome State Fault Refusal := stepWith exec s

/-- HTB fetches nothing (R59): the next command is the word accepted through CMD (R27). So the word is accepted, and CORE
has the next turn (log entry 13). -/
def State.withFetchWord (s : State) (nbits w : Nat) : State :=
  { s.accept (tableWord nbits w) with queue := .core :: s.queue }

end Sys2Proof.Machine
end

