-- ==== Sys2Proof/Safety.lean ====
section
/-! DEFINITION. The terms in which claims about the machine are stated: the tree that the arena holds, the bit strings it
gives, and the invariants of a safe run. No definition here is used by the machine. -/

namespace Sys2Proof.Machine

/-! ### Trees -/

/-- R17: a Huffman tree without its arena indices. -/
inductive HTree where
  | leaf (sym : Sym) (w : Word)
  | node (w : Word) (l r : HTree)
  deriving DecidableEq, Repr

/-- The number of nodes. -/
def HTree.size : HTree → Nat
  | .leaf _ _ => 1
  | .node _ l r => 1 + l.size + r.size

/-- The number of leaves. -/
def HTree.leaves : HTree → Nat
  | .leaf _ _ => 1
  | .node _ l r => l.leaves + r.leaves

/-- The length of the longest path from the root to a leaf. -/
def HTree.depth : HTree → Nat
  | .leaf _ _ => 0
  | .node _ l r => 1 + max l.depth r.depth

/-- The weight of the root. -/
def HTree.weight : HTree → Word
  | .leaf _ w => w
  | .node w _ _ => w

/-- R151: every leaf's symbol with the leaf's path from the root, in pre-order. -/
def HTree.paths : HTree → List (Sym × Bits)
  | .leaf sym _ => [(sym, [])]
  | .node _ l r =>
    l.paths.map (fun p => (p.1, false :: p.2)) ++ r.paths.map (fun p => (p.1, true :: p.2))

/-- The symbols of the leaves, in pre-order. -/
def HTree.symbols (t : HTree) : List Sym := t.paths.map Prod.fst

/-- R108 `hdr`. -/
def HTree.header : HTree → Bits
  | .leaf sym _ => true :: bin 9 sym.toNat
  | .node _ l r => false :: (l.header ++ r.header)

/-! ### Headers record by record -/

/-- R107: what a header holds for one node. -/
inductive HeaderRecord where
  | internal
  | leaf (sym : Sym)
  deriving DecidableEq, Repr

/-- R107. -/
def HeaderRecord.bits : HeaderRecord → Bits
  | .internal => [false]
  | .leaf sym => true :: bin 9 sym.toNat

/-- R110: the symbol of a leaf record is 0 to 256. -/
def HeaderRecord.legal : HeaderRecord → Bool
  | .internal => true
  | .leaf sym => decide (sym.toNat ≤ Config.sentinel)

/-- The bits of a list of records. -/
def headerBits (rs : List HeaderRecord) : Bits := rs.flatMap HeaderRecord.bits

/-- R166: reading the records in order, with `k` subtrees still to come, leaves at least one subtree to come after the last of
them, and does not come to an end before it. -/
def openHeader : Nat → List HeaderRecord → Bool
  | k, [] => decide (0 < k)
  | 0, _ :: _ => false
  | k + 1, .internal :: rs => openHeader (k + 2) rs
  | k + 1, .leaf _ :: rs => openHeader k rs

/-- R171: the same shape and symbols, every weight 0 (R167). -/
def HTree.unweighted : HTree → HTree
  | .leaf sym _ => .leaf sym 0
  | .node _ l r => .node 0 l.unweighted r.unweighted

/-- R110: every symbol is 0 to 256. -/
def HTree.symbolsLegal (t : HTree) : Prop := ∀ sym ∈ t.symbols, sym.toNat ≤ Config.sentinel

/-- The arena of `s` holds the tree `t` at index `i`. -/
def State.Spells (s : State) : HTree → NodeIdx → Prop
  | .leaf sym w, i => s.nodeAt i = some (.leaf sym w)
  | .node w tl tr, i => ∃ l r, s.nodeAt i = some (.internal w l r) ∧ s.Spells tl l ∧ s.Spells tr r

/-- R41: the child indices of an entry: two of an Internal node, none of a Leaf or of an entry without a value. -/
def State.kids (s : State) (i : Nat) : List Nat :=
  match s.nodeAt (BitVec.ofNat 10 i) with
  | some (.internal _ l r) => [l.toNat, r.toNat]
  | _ => []

/-- The child indices of the first `n` entries of the arena. -/
def State.children (s : State) (n : Nat) : List Nat := (List.range n).flatMap s.kids

/-- R41 `NODE[i].w` as a natural. -/
def State.weightAt (s : State) (i : Nat) : Nat :=
  match s.nodeAt (BitVec.ofNat 10 i) with
  | some n => n.weight.toNat
  | none => 0

/-- R134: entry `j` is an element of PQ when entry `k` is created: it exists, and no entry made so far has it as a child. -/
def State.LiveBefore (s : State) (k j : Nat) : Prop := j < k ∧ j ∉ s.children k

/-- R135: the key of entry `i` is not greater than the key of entry `j`, in the lexicographic order of (weight, index). -/
def State.KeyLe (s : State) (i j : Nat) : Prop :=
  s.weightAt i < s.weightAt j ∨ (s.weightAt i = s.weightAt j ∧ i ≤ j)

/-- R134, R135: entry `k` merges the two elements of PQ with the least keys, the least as its left child, and its weight is
the exact sum of theirs (R138). -/
def State.MergesLeastTwo (s : State) (k : Nat) : Prop :=
  ∃ w l r, s.nodeAt (BitVec.ofNat 10 k) = some (.internal w l r) ∧
    w.toNat = s.weightAt l.toNat + s.weightAt r.toNat ∧
    s.LiveBefore k l.toNat ∧ s.LiveBefore k r.toNat ∧ l ≠ r ∧
    (∀ j, s.LiveBefore k j → s.KeyLe l.toNat j) ∧
    ∀ j, s.LiveBefore k j → j ≠ l.toNat → s.KeyLe r.toNat j

/-- R17, R134: the active symbols, in ascending order. -/
def State.activeSymbols (s : State) : List Nat := (List.range Config.nsym).filter fun i => s.freqAt i ≠ 0

/-- R34, R35, R41: the result registers and the arena describe the tree `t`: it stands at ROOT, and its NODE_COUNT nodes and
LEAF_COUNT leaves with legal symbols are all there is in the arena, ROOT being the child of no entry and every other entry
the child of exactly one. -/
structure State.HoldsTree (s : State) (t : HTree) : Prop where
  spells : s.Spells t s.regs.root
  nodeCount : s.regs.nodeCount.toNat = t.size
  leafCount : s.regs.leafCount.toNat = t.leaves
  fits : t.size ≤ Config.nodeCap
  legal : t.symbolsLegal
  eachOnce : (s.regs.root.toNat :: s.children t.size).Perm (List.range t.size)

/-! ### Codes -/

/-- R45: the code string that the table holds for a symbol. -/
def State.codeString (s : State) (i : Nat) : Bits :=
  bin (s.codeAt i).len.toNat (s.codeAt i).bits.toNat

/-- R45, R151: the table holds the paths of `t` and nothing else. -/
def State.HoldsCodes (s : State) (t : HTree) : Prop :=
  (∀ p ∈ t.paths, s.codeAt p.1.toNat = CodeEntry.ofPath p.2) ∧
    ∀ i, i ∉ t.symbols.map BitVec.toNat → s.codeAt i = CodeEntry.empty

/-- R111: the codes of the bytes of an input, in order. -/
def State.codesOf (s : State) (bytes : List (BitVec 8)) : Bits :=
  bytes.flatMap fun b => s.codeString b.toNat

/-- R111, R192: `c` is the concatenation of one path of `t` for each byte, in order. -/
def HTree.Encodes (t : HTree) : List (BitVec 8) → Bits → Prop
  | [], c => c = []
  | b :: bytes, c => ∃ p rest, (b.setWidth 9, p) ∈ t.paths ∧ t.Encodes bytes rest ∧ c = p ++ rest

/-! ### Streams -/

/-- The bits of IN that have not been consumed. -/
def State.unread (s : State) : Bits := s.inp.data.drop s.inp.pos

/-! ### Invariants of a run -/

/-- R70. -/
def State.StreamsOk (s : State) : Prop := s.inp.pos ≤ s.inp.data.length

/-- R25, R27, R53, R230, R232: the command word and the outcome flags agree. -/
structure State.StatusOk (s : State) : Prop where
  captured : s.pending = s.cmd
  oneOutcome : ¬(s.status.done = true ∧ s.status.err = true)
  busyNoOutcome : s.status.busy = true → s.status.done = false ∧ s.status.err = false
  doneNoCode : s.status.done = true → s.status.errCode = .none
  errHasCode : s.status.err = true → s.status.errCode ≠ .none

/-- R41, R50, R58, R134, R166: TREE_VALID says that there is a tree; without it the result registers are 0. -/
def State.TreeOk (s : State) : Prop :=
  (s.status.treeValid = true → ∃ t, s.HoldsTree t) ∧
    (s.status.treeValid = false →
      s.regs = { root := 0, nodeCount := 0, leafCount := 0, total := 0, maxLen := 0 })

/-- R28, R37, R45, R50: CODE_VALID says that the code table and MAX_LEN are those of the current tree. -/
def State.CodesOk (s : State) : Prop :=
  s.status.codeValid = true →
    s.status.treeValid = true ∧
      ∃ t, s.Spells t s.regs.root ∧ t.symbols.Nodup ∧ s.HoldsCodes t ∧ s.regs.maxLen.toNat = t.depth

/-- A run is safe at `s` when its next turn does not stop the model. -/
def SafeAt (s : State) : Prop := ∃ t, step s = .next t

/-! ### HOST's accesses, as turns of the machine -/

/-- R22: with BUSY = 0, HOST's read of the window offset `off` returns `v` and changes nothing of HTB. -/
def State.HostReads (s : State) (off : Nat) (v : Word) : Prop :=
  ∀ rest, step { s with queue := .host (.read off .word) :: rest } =
    .next { s with queue := rest, response := some (.value v) }

/-- HOST's write of `v` to the window offset `off` leaves HTB in the state `t`. -/
def State.HostWrites (s : State) (off : Nat) (v : Word) (t : State) : Prop :=
  ∀ rest, step { s with queue := .host (.write off .word v) :: rest } =
    .next { t with queue := rest, response := some .written }

/-! ### Errors and macro steps -/

/-- R230: the errors that performing a command can raise; a macro raises those of its steps (R212, R216). -/
def errorsOf : Instr → List ErrCode
  | .nop => []
  | .count => [.overflow]
  | .buildTree => [.noSentinel, .overflow]
  | .genCodes => [.noTree, .dupSymbol]
  | .writeHeader => [.noTree, .outClosed]
  | .readHeader => [.truncHeader, .headerTooLarge, .badSymbol]
  | .encodeBody => [.noCodes, .outClosed, .noCode]
  | .decodeBody => [.noTree, .outClosed, .truncBody]
  | .writeMagic => [.outClosed]
  | .checkMagic => [.badMagic]
  | .rewindIn => []
  | .closeOut => []
  | .compress => [.overflow, .outClosed, .noCode]
  | .decompress => [.badMagic, .truncHeader, .headerTooLarge, .badSymbol, .outClosed, .truncBody]

/-- The commands of a list performed one after the other, until one ends in an error. -/
def execUntilError : List Instr → State → Host.Outcome State Fault Refusal
  | [], s => .next s
  | i :: rest, s =>
    match exec i s with
    | .next t => if t.status.err then .next t else execUntilError rest t
    | .fault f => .fault f
    | .refused r => .refused r

end Sys2Proof.Machine
end

