-- ==== Sys2Proof/Certificates/Slice0/Obligations.lean ====
section
/-! DEFINITION. The statements for the provers, each about the machine and citing the rules of spec/ it formalises. -/

open Sys2Proof Sys2Proof.Machine

/-! ### Decoding and the CORE step -/

/-- R101, R102, R103: a word selects the command whose opcode-map word it is, and no other; so the words that select none are
those with a bit of [31:8] set or a reserved OPCODE. -/
def Obligations.DecodeSelectsExactlyTheMappedCommand : Prop :=
  (∀ w i, decode w = .ok i ↔ w = encode i) ∧
    ∀ w, (∀ i, decode w ≠ .ok i) ↔
      (w.extractLsb' 8 24 ≠ 0 ∨ (0x0C ≤ w.extractLsb' 0 8 ∧ w.extractLsb' 0 8 ≤ 0x0F) ∨ 0x12 ≤ w.extractLsb' 0 8)

/-- R102: the words of the opcode map, written out. -/
def Obligations.SpecWordsDecode : Prop :=
  decode 0x00000000 = .ok .nop ∧ decode 0x00000001 = .ok .count ∧ decode 0x00000002 = .ok .buildTree ∧
    decode 0x00000003 = .ok .genCodes ∧ decode 0x00000004 = .ok .writeHeader ∧ decode 0x00000005 = .ok .readHeader ∧
    decode 0x00000006 = .ok .encodeBody ∧ decode 0x00000007 = .ok .decodeBody ∧ decode 0x00000008 = .ok .writeMagic ∧
    decode 0x00000009 = .ok .checkMagic ∧ decode 0x0000000A = .ok .rewindIn ∧ decode 0x0000000B = .ok .closeOut ∧
    decode 0x00000010 = .ok .compress ∧ decode 0x00000011 = .ok .decompress

/-- R53, R236, R249, and the turns of log entries 3 and 4: a turn of CORE with BUSY = 1 performs the command of PENDING, and
nothing else surrounds it; a word that selects no command raises ILLEGAL_CMD and changes nothing but the outcome fields of
STATUS; with BUSY = 0 HTB is idle and all its state survives. -/
def Obligations.CoreTurnPerformsDecodedCommand : Prop :=
  ∀ (s u : State), (s.queue = [] ∧ u = s) ∨ (∃ rest, s.queue = .core :: rest ∧ u = { s with queue := rest }) →
    (s.status.busy = true → ∀ i, decode s.pending = .ok i → step s = exec i u) ∧
      (s.status.busy = true → (∀ i, decode s.pending ≠ .ok i) →
        step s =
          .next { u with
            status := { s.status with busy := false, done := false, err := true, errCode := .illegalCmd } }) ∧
      (s.status.busy = false → step s = .next u)

/-- R232, R11: every performed command ends in exactly one of success and error, with BUSY cleared. -/
def Obligations.PerformedCommandEndsInOneOutcome : Prop :=
  ∀ (i : Instr) (s t : State), exec i s = .next t →
    t.status.busy = false ∧
      ((t.status.done = true ∧ t.status.err = false ∧ t.status.errCode = .none) ∨
        (t.status.done = false ∧ t.status.err = true ∧ t.status.errCode ≠ .none))

/-- R230: which errors each command can raise, and the number each of them has in STATUS.ERRCODE. -/
def Obligations.CommandRaisesOnlyItsErrors : Prop :=
  (∀ (i : Instr) (s t : State), exec i s = .next t → t.status.err = true → t.status.errCode ∈ errorsOf i) ∧
    [ErrCode.none, .badMagic, .truncHeader, .truncBody, .overflow, .noSentinel, .noTree, .noCodes, .noCode, .dupSymbol,
      .headerTooLarge, .badSymbol, .outClosed, .illegalCmd].map (fun c => c.toBits.toNat) = List.range 14

/-- R279, and the choice of log entry 9: when TREE_VALID tells the truth about the arena, every command completes. -/
def Obligations.EveryCommandCompletes : Prop :=
  ∀ (i : Instr) (s : State), s.TreeOk → ∃ t, exec i s = .next t

/-! ### Single commands -/

/-- R200: the word 0 is NOP; it sets DONE, clears ERR and ERRCODE, and changes nothing else. -/
def Obligations.NopOnlyCompletes : Prop :=
  decode 0x00000000 = .ok .nop ∧ ∀ s : State, exec .nop s =
    .next { s with status := { s.status with busy := false, done := true, err := false, errCode := .none } }

/-- R202, R73: the word 0x0A is REWIND_IN; it sets IN.pos to 0, leaves the data, and completes. -/
def Obligations.RewindInRestartsTheInput : Prop :=
  decode 0x0000000A = .ok .rewindIn ∧ ∀ s : State, exec .rewindIn s = .next ({ s with inp := { data := s.inp.data, pos := 0 } } : State).completeOk

/-- R204, R74: the word 0x0B is CLOSE_OUT; it pads an open OUT with fewer than eight zero bits to a byte boundary and closes it; a closed OUT is
left as it is; both complete. -/
def Obligations.CloseOutPadsToAByte : Prop :=
  decode 0x0000000B = .ok .closeOut ∧ ∀ s : State,
    (s.out.closed = true → exec .closeOut s = .next s.completeOk) ∧
      (s.out.closed = false → ∃ k < 8, (s.out.bits.length + k) % 8 = 0 ∧
        exec .closeOut s =
          .next ({ s with out := { bits := s.out.bits ++ List.replicate k false, closed := true } } : State).completeOk)

/-- R206: the word 8 is WRITE_MAGIC; it appends the 32 bits of MAGIC to an open OUT, most significant first; on a closed OUT it raises
OUT_CLOSED and writes nothing. -/
def Obligations.WriteMagicAppendsMagic : Prop :=
  decode 0x00000008 = .ok .writeMagic ∧ ∀ s : State,
    (s.out.closed = true → exec .writeMagic s = .next (s.completeErr .outClosed)) ∧
      (s.out.closed = false → ∃ bs : Bits, bs.length = 32 ∧ (∀ k < 32, bs[k]? = some (s.magic.getLsbD (31 - k))) ∧
        exec .writeMagic s = .next (s.writeStr bs).completeOk)

/-- R208: the word 9 is CHECK_MAGIC; it reads 32 bits and compares them with MAGIC; with fewer left it consumes them; both failures raise
BAD_MAGIC. -/
def Obligations.CheckMagicComparesMagic : Prop :=
  decode 0x00000009 = .ok .checkMagic ∧ ∀ s : State,
    (∀ (m : Word) (x : Bits), s.unread = bin 32 m.toNat ++ x →
      exec .checkMagic s =
        .next (if m = s.magic then (s.seek (s.inp.pos + 32)).completeOk
          else (s.seek (s.inp.pos + 32)).completeErr .badMagic)) ∧
      (s.unread.length < 32 → exec .checkMagic s = .next ((s.seek s.inp.data.length).completeErr .badMagic))

/-! ### COUNT -/

/-- R130, R132, R133: COUNT leaves in FREQ how often each byte occurs in the unread part of IN and 1 for the sentinel,
consumes IN to its end, and changes nothing else. -/
def Obligations.CountCountsEveryByte : Prop :=
  ∀ (s : State) (bytes : List (BitVec 8)) (tail : Bits), s.unread = bitsOfBytes bytes ++ tail → tail.length < 8 →
    bytes.length < 4294967295 →
    ∃ freq, exec .count s = .next (({ s with freq := freq } : State).seek s.inp.data.length).completeOk ∧
      ({ s with freq := freq } : State).freqAt 256 = 1 ∧
      ∀ b : BitVec 8, (({ s with freq := freq } : State).freqAt b.toNat).toNat = bytes.count b

/-- R131: COUNT raises OVERFLOW when it reads byte number 2^32 - 1: that byte is consumed and not counted, FREQ holds the
counts of the bytes before it, and the sentinel's entry is 0. -/
def Obligations.CountOverflowsAtTheLimit : Prop :=
  ∀ (s : State) (bytes : List (BitVec 8)) (b : BitVec 8) (x : Bits),
    s.unread = bitsOfBytes bytes ++ (bin 8 b.toNat ++ x) → bytes.length = 4294967294 →
    ∃ freq, exec .count s =
        .next ((({ s with freq := freq } : State).seek (s.inp.pos + 8 * 4294967295)).completeErr .overflow) ∧
      ({ s with freq := freq } : State).freqAt 256 = 0 ∧
      ∀ c : BitVec 8, (({ s with freq := freq } : State).freqAt c.toNat).toNat = bytes.count c

/-! ### BUILD_TREE -/

/-- R134: the two checks of BUILD_TREE in their order; on either error the tree and code flags and the result registers are 0
and nothing else changes. -/
def Obligations.BuildTreeRefusesBadCounts : Prop :=
  ∀ s : State,
    let cleared : State :=
      { s with
        status := { s.status with treeValid := false, codeValid := false }
        regs := { root := 0, nodeCount := 0, leafCount := 0, total := 0, maxLen := 0 } }
    (s.freqAt 256 = 0 → exec .buildTree s = .next (cleared.completeErr .noSentinel)) ∧
      (s.freqAt 256 ≠ 0 → 4294967295 < s.freqSum → exec .buildTree s = .next (cleared.completeErr .overflow))

/-- R134, R135, R136, R138: with a sentinel count and a sum that fits, BUILD_TREE completes: the L leaves stand first, in
ascending symbol order and with their counts; entries L to 2L - 2 each merge the two least of the roots there were, without
a wrap; the registers describe the tree; FREQ and everything else is unchanged. -/
def Obligations.BuildTreeMergesLeastPairs : Prop :=
  ∀ s : State, s.freqAt 256 ≠ 0 → s.freqSum ≤ 4294967295 →
    ∃ node,
      let L := s.activeSymbols.length
      let t : State :=
        { s with
          node := node
          status := { s.status with treeValid := true, codeValid := false }
          regs :=
            { root := BitVec.ofNat 10 (2 * L - 2), nodeCount := BitVec.ofNat 10 (2 * L - 1),
              leafCount := BitVec.ofNat 10 L, total := BitVec.ofNat 32 s.freqSum, maxLen := 0 } }
      exec .buildTree s = .next t.completeOk ∧
        (∀ k (h : k < L), t.nodeAt (BitVec.ofNat 10 k) =
          some (.leaf (BitVec.ofNat 9 s.activeSymbols[k]) (s.freqAt s.activeSymbols[k]))) ∧
        ∀ k, L ≤ k → k < 2 * L - 1 → t.MergesLeastTwo k

/-- R136: a built tree is a full binary tree with every active symbol at exactly one leaf and no other symbol, of depth at
most L - 1. -/
def Obligations.BuiltTreeIsFullOverActiveSymbols : Prop :=
  ∀ s t : State, exec .buildTree s = .next t → t.status.done = true →
    ∃ tree, t.HoldsTree tree ∧ tree.leaves = s.activeSymbols.length ∧ tree.depth ≤ s.activeSymbols.length - 1 ∧
      tree.symbols.Perm (s.activeSymbols.map fun i => BitVec.ofNat 9 i) ∧ tree.weight.toNat = s.freqSum ∧
      t.regs.total = tree.weight

/-- R139: BUILD_TREE's result is a function of FREQ alone: nodes, registers, flags and error. -/
def Obligations.BuildTreeDependsOnCountsOnly : Prop :=
  ∀ s s' t : State, s.freq = s'.freq → exec .buildTree s = .next t →
    ∃ t', exec .buildTree s' = .next t' ∧ t'.regs = t.regs ∧ t'.status.treeValid = t.status.treeValid ∧
      t'.status.codeValid = t.status.codeValid ∧ t'.status.err = t.status.err ∧
      t'.status.errCode = t.status.errCode ∧
      ∀ k : NodeIdx, k < t.regs.nodeCount → t'.nodeAt k = t.nodeAt k

/-! ### GEN_CODES -/

/-- R150, R151: GEN_CODES without a tree raises NO_TREE; on a tree with a symbol at two leaves it raises DUP_SYMBOL; on any
other tree it records every leaf's path as its symbol's code, nothing for every other symbol, and the longest length in
MAX_LEN. Either error leaves CODE_VALID and MAX_LEN 0. Nothing else changes. -/
def Obligations.GenCodesRecordsLeafPaths : Prop :=
  ∀ s : State,
    (s.status.treeValid = false → ∃ code,
      exec .genCodes s =
        .next (({ s with
          code := code, status := { s.status with codeValid := false }
          regs := { s.regs with maxLen := 0 } } : State).completeErr .noTree)) ∧
      ∀ tree, s.status.treeValid = true → s.HoldsTree tree →
        (¬ tree.symbols.Nodup → ∃ code,
          exec .genCodes s =
            .next (({ s with
              code := code, status := { s.status with codeValid := false }
              regs := { s.regs with maxLen := 0 } } : State).completeErr .dupSymbol)) ∧
          (tree.symbols.Nodup → ∃ code,
            exec .genCodes s =
              .next (({ s with
                code := code, status := { s.status with codeValid := true }
                regs := { s.regs with maxLen := BitVec.ofNat 9 tree.depth } } : State).completeOk) ∧
            ({ s with code := code } : State).HoldsCodes tree)

/-- R45, R155: the table of a tree that fits the arena holds each code whole: its length is at most 256, and the stored bits,
read off most significant first, are the leaf's path. -/
def Obligations.CodeTableHoldsWholeCodes : Prop :=
  ∀ (s : State) (tree : HTree), s.HoldsTree tree → s.HoldsCodes tree → ∀ p ∈ tree.paths,
    (s.codeAt p.1.toNat).present = true ∧ (s.codeAt p.1.toNat).len.toNat = p.2.length ∧ p.2.length ≤ 256 ∧
      (s.codeAt p.1.toNat).bits.toNat = val p.2 ∧ s.codeString p.1.toNat = p.2

/-- R153: after GEN_CODES on a tree of at least two leaves no code is a prefix of another, and the lengths satisfy the Kraft
equality. -/
def Obligations.CodesArePrefixFreeAndComplete : Prop :=
  ∀ (s t : State) (tree : HTree), s.status.treeValid = true → s.HoldsTree tree → 2 ≤ tree.leaves →
    exec .genCodes s = .next t → t.status.done = true →
    (∀ i j, i ≠ j → (t.codeAt i).present = true → (t.codeAt j).present = true →
      ¬ t.codeString i <+: t.codeString j) ∧
      ((List.range 257).map fun i => if (t.codeAt i).present then 2 ^ (256 - (t.codeAt i).len.toNat) else 0).sum =
        2 ^ 256

/-! ### The header -/

/-- R160, R108, R109: WRITE_HEADER appends hdr(ROOT), 11 LEAF_COUNT - 1 bits and at most 2826, to an open OUT and changes nothing
else; without a tree it raises NO_TREE, on a closed OUT OUT_CLOSED, and writes nothing. -/
def Obligations.WriteHeaderEmitsTheTree : Prop :=
  ∀ s : State,
    (s.status.treeValid = false → exec .writeHeader s = .next (s.completeErr .noTree)) ∧
      (s.status.treeValid = true → s.out.closed = true → exec .writeHeader s = .next (s.completeErr .outClosed)) ∧
      ∀ tree, s.status.treeValid = true → s.out.closed = false → s.HoldsTree tree →
        exec .writeHeader s = .next (s.writeStr tree.header).completeOk ∧
          tree.header.length = 11 * s.regs.leafCount.toNat - 1 ∧ tree.header.length ≤ 2826

/-- R171, R166: READ_HEADER of the header of a tree that fits completes, consumes exactly the header, and leaves in the arena
a tree of the same shape and symbols; only indices and weights may differ. -/
def Obligations.ReadHeaderUndoesWriteHeader : Prop :=
  ∀ (s : State) (tree : HTree) (x : Bits), s.unread = tree.header ++ x → tree.size ≤ 513 → tree.symbolsLegal →
    ∃ node,
      let t : State :=
        { (s.seek (s.inp.pos + tree.header.length)) with
          node := node
          status := { s.status with treeValid := true, codeValid := false }
          regs :=
            { root := 0, nodeCount := BitVec.ofNat 10 tree.size, leafCount := BitVec.ofNat 10 tree.leaves, total := 0,
              maxLen := 0 } }
      exec .readHeader s = .next t.completeOk ∧ t.HoldsTree tree.unweighted

/-- R168, R167: after a success of READ_HEADER the root is entry 0, NODE_COUNT is 2 LEAF_COUNT - 1, every weight is 0, and the
nodes stand in pre-order: the left subtree of entry k starts at k + 1 and the right one after all its nodes. -/
def Obligations.DecodedTreeIsInPreOrder : Prop :=
  ∀ s t : State, exec .readHeader s = .next t → t.status.done = true →
    t.regs.root = 0 ∧ t.regs.total = 0 ∧ (∃ tree, t.HoldsTree tree) ∧
      t.regs.nodeCount.toNat = 2 * t.regs.leafCount.toNat - 1 ∧ t.regs.nodeCount.toNat ≤ 513 ∧
      ∀ k < t.regs.nodeCount.toNat,
        (∃ sym, t.nodeAt (BitVec.ofNat 10 k) = some (.leaf sym 0)) ∨
          ∃ left : HTree, t.Spells left (BitVec.ofNat 10 (k + 1)) ∧ k + 1 + left.size < t.regs.nodeCount.toNat ∧
            t.nodeAt (BitVec.ofNat 10 k) =
              some (.internal 0 (BitVec.ofNat 10 (k + 1)) (BitVec.ofNat 10 (k + 1 + left.size)))

/-- R166: READ_HEADER always completes; on an error it leaves no tree and zero result registers. Whatever its outcome it leaves
no codes and changes only NODE, IN.pos, the result registers, and of STATUS the outcome fields, TREE_VALID and CODE_VALID. -/
def Obligations.ReadHeaderErrorLeavesNoTree : Prop :=
  ∀ s : State, ∃ t, exec .readHeader s = .next t ∧
    (t.status.err = true → t.status.treeValid = false ∧
      t.regs = { root := 0, nodeCount := 0, leafCount := 0, total := 0, maxLen := 0 }) ∧
    t = { s with
      inp := { s.inp with pos := t.inp.pos }, node := t.node, regs := t.regs
      status :=
        { s.status with
          busy := false, done := t.status.done, err := t.status.err, errCode := t.status.errCode
          treeValid := t.status.treeValid, codeValid := false } }

/-- R170, R166, R110: after the records of at most 513 nodes that do not complete a tree, the end of IN at a tag or inside a
leaf's symbol gives TRUNC_HEADER with IN at its end; a leaf, at any place, with a symbol of 257 to 511 gives BAD_SYMBOL after
its ten bits; and a tag after 513 nodes gives HEADER_TOO_LARGE, read and nothing after it. Each leaves no tree, no codes and zero
result registers. -/
def Obligations.ReadHeaderRejectsBadHeaders : Prop :=
  ∀ (s : State) (rs : List HeaderRecord), openHeader 1 rs = true → (∀ r ∈ rs, r.legal = true) → rs.length ≤ 513 →
    let fails : Nat → ErrCode → Prop := fun pos c =>
      ∃ node, exec .readHeader s = .next (({ s.dropTree with node := node }.seek pos).completeErr c)
    (s.unread = headerBits rs → fails s.inp.data.length .truncHeader) ∧
      (rs.length < 513 → ∀ cut : Bits, cut.length < 9 → s.unread = headerBits rs ++ true :: cut →
        fails s.inp.data.length .truncHeader) ∧
      (rs.length < 513 → ∀ (sym : Sym) (x : Bits), 256 < sym.toNat →
        s.unread = headerBits rs ++ true :: (bin 9 sym.toNat ++ x) →
        fails (s.inp.pos + (headerBits rs).length + 10) .badSymbol) ∧
      (rs.length = 513 → ∀ (tag : Bool) (x : Bits), s.unread = headerBits rs ++ tag :: x →
        fails (s.inp.pos + (headerBits rs).length + 1) .headerTooLarge)

/-! ### The body -/

/-- R180, R181, R182: ENCODE_BODY's checks in their order, with nothing read or written; then, when every byte has a code, it
appends the bytes' codes and the sentinel's code once, consumes IN to its end, and changes nothing else; at the first byte
without a code it ends with NO_CODE: the codes before it stay written, the byte is consumed, and no terminator is written. -/
def Obligations.EncodeBodyAppendsCodes : Prop :=
  ∀ s : State,
    (s.status.codeValid = false → exec .encodeBody s = .next (s.completeErr .noCodes)) ∧
      (s.status.codeValid = true → s.out.closed = true → exec .encodeBody s = .next (s.completeErr .outClosed)) ∧
      (s.status.codeValid = true → s.out.closed = false → (s.codeAt 256).present = false →
        exec .encodeBody s = .next (s.completeErr .noCode)) ∧
      (s.status.codeValid = true → s.out.closed = false → (s.codeAt 256).present = true →
        (∀ (bytes : List (BitVec 8)) (tail : Bits), s.unread = bitsOfBytes bytes ++ tail → tail.length < 8 →
          (∀ b ∈ bytes, (s.codeAt b.toNat).present = true) →
          exec .encodeBody s =
            .next ((s.writeStr (s.codesOf bytes ++ s.codeString 256)).seek s.inp.data.length).completeOk) ∧
          ∀ (bytes : List (BitVec 8)) (b : BitVec 8) (x : Bits),
            s.unread = bitsOfBytes bytes ++ (bin 8 b.toNat ++ x) →
            (∀ c ∈ bytes, (s.codeAt c.toNat).present = true) → (s.codeAt b.toNat).present = false →
            exec .encodeBody s =
              .next (((s.writeStr (s.codesOf bytes)).seek (s.inp.pos + 8 * (bytes.length + 1))).completeErr .noCode))

/-- R192, R191: where IN holds one path for each byte of S and then a path of the sentinel, DECODE_BODY writes exactly the
bytes S, completes with DEC_STATE = DONE, and leaves the rest of IN unread. -/
def Obligations.DecodeBodyRecoversTheBytes : Prop :=
  ∀ (s : State) (tree : HTree) (bytes : List (BitVec 8)) (c p x : Bits), s.status.treeValid = true →
    s.out.closed = false → s.HoldsTree tree → tree.Encodes bytes c → (256, p) ∈ tree.paths →
    s.unread = c ++ (p ++ x) →
    exec .decodeBody s =
      .next ((((s.writeStr (bitsOfBytes bytes)).seek (s.inp.pos + (c.length + p.length))).setDec .done).completeOk)

/-- R187: on a single leaf DECODE_BODY reads no bit and writes nothing: DONE for the sentinel, TRUNC_BODY for any other. -/
def Obligations.DecodeBodyOnALeafReadsNothing : Prop :=
  ∀ (s : State) (sym : Sym) (w : Word), s.status.treeValid = true → s.out.closed = false →
    s.nodeAt s.regs.root = some (.leaf sym w) →
    (sym = 256 → exec .decodeBody s = .next (s.setDec .done).completeOk) ∧
      (sym ≠ 256 → exec .decodeBody s = .next ((s.setDec .error).completeErr .truncBody))

/-- R186, R189, R190: DECODE_BODY without a tree raises NO_TREE and on a closed OUT OUT_CLOSED; when IN ends inside a path it
raises TRUNC_BODY, the bytes written before stay in OUT, OUT is not closed, and DEC_STATE is ERROR. -/
def Obligations.DecodeBodyReportsTruncation : Prop :=
  ∀ s : State,
    (s.status.treeValid = false → exec .decodeBody s = .next ((s.setDec .error).completeErr .noTree)) ∧
      (s.status.treeValid = true → s.out.closed = true →
        exec .decodeBody s = .next ((s.setDec .error).completeErr .outClosed)) ∧
      ∀ (tree : HTree) (bytes : List (BitVec 8)) (c q y : Bits) (sym : Sym), s.status.treeValid = true →
        s.out.closed = false → s.HoldsTree tree → tree.Encodes bytes c → (sym, q ++ y) ∈ tree.paths → y ≠ [] →
        s.unread = c ++ q →
        exec .decodeBody s =
          .next (((s.writeStr (bitsOfBytes bytes)).seek s.inp.data.length |>.setDec .error).completeErr .truncBody)

/-- R188: on a tree without a sentinel leaf DECODE_BODY never ends with DONE. -/
def Obligations.NoSentinelNeverDecodes : Prop :=
  ∀ (s : State) (tree : HTree), s.status.treeValid = true → s.out.closed = false → s.HoldsTree tree →
    256 ∉ tree.symbols →
    ∃ t, exec .decodeBody s = .next t ∧ t.status.err = true ∧ t.status.errCode = .truncBody ∧
      t.status.decState = .error

/-! ### The container -/

/-- R210, R212, R216: a macro command is its steps: performing it gives what its commands give one after the other up to the
first error. -/
def Obligations.MacroEqualsItsSteps : Prop :=
  ∀ s : State,
    exec .compress s =
        execUntilError
          [.count, .rewindIn, .buildTree, .genCodes, .writeMagic, .writeHeader, .encodeBody, .closeOut] s ∧
      exec .decompress s = execUntilError [.checkMagic, .readHeader, .decodeBody, .closeOut] s

/-- R212, R214, R112: COMPRESS of a byte sequence and fewer than eight trailing bits attached at position 0, into an open OUT,
completes and appends the container: the magic word, the header of the tree it built, the bytes' codes, the sentinel's code
and the padding; the tree's symbols are the bytes and the sentinel; OUT is closed and IN at its end. -/
def Obligations.CompressWritesTheContainer : Prop :=
  ∀ (s : State) (bytes : List (BitVec 8)) (tail : Bits), s.inp = { data := bitsOfBytes bytes ++ tail, pos := 0 } →
    tail.length < 8 → s.out.closed = false → bytes.length < 4294967295 →
    ∃ t tree k, exec .compress s = .next t ∧ t.status.done = true ∧ t.status.treeValid = true ∧
      t.status.codeValid = true ∧ t.inp = { data := s.inp.data, pos := s.inp.data.length } ∧ t.HoldsTree tree ∧
      t.HoldsCodes tree ∧ (∀ sym : Sym, sym ∈ tree.symbols ↔ sym = 256 ∨ ∃ b ∈ bytes, sym = b.setWidth 9) ∧ k < 8 ∧
      t.out.bits.length % 8 = 0 ∧ t.out.closed = true ∧
      t.out.bits = s.out.bits ++ bin 32 s.magic.toNat ++ tree.header ++
        (t.codesOf bytes ++ t.codeString 256) ++ List.replicate k false

/-- R222: the container of the empty input, for every MAGIC. -/
def Obligations.CompressOfEmptyInput : Prop :=
  ∀ s : State, s.inp = { data := [], pos := 0 } → s.out = { bits := [], closed := false } →
    ∃ t, exec .compress s = .next t ∧ t.status.done = true ∧
      t.out = { bits := bin 32 s.magic.toNat ++ bitsOfBytes [0xC0, 0x00], closed := true } ∧
      ∀ u : State, u.inp = { data := t.out.bits, pos := 0 } → u.magic = s.magic →
        u.out = { bits := [], closed := false } →
        ∃ v, exec .decompress u = .next v ∧ v.status.done = true ∧ v.out = { bits := [], closed := true }

/-- R220: DECOMPRESS undoes COMPRESS: for every byte sequence below the limit and every MAGIC, both succeed and the bytes come
back bit for bit. -/
def Obligations.DecompressUndoesCompress : Prop :=
  ∀ (s : State) (bytes : List (BitVec 8)), bytes.length < 4294967295 →
    s.inp = { data := bitsOfBytes bytes, pos := 0 } → s.out = { bits := [], closed := false } →
    ∃ t, exec .compress s = .next t ∧ t.status.done = true ∧
      ∀ u : State, u.inp = { data := t.out.bits, pos := 0 } → u.out = { bits := [], closed := false } →
        u.magic = s.magic →
        ∃ v, exec .decompress u = .next v ∧ v.status.done = true ∧ v.out = { bits := bitsOfBytes bytes, closed := true }

/-- R221: a container cut at a byte boundary before its end never decompresses with success: BAD_MAGIC, TRUNC_HEADER or
TRUNC_BODY. -/
def Obligations.TruncatedContainerIsDetected : Prop :=
  ∀ (s : State) (bytes : List (BitVec 8)) (t u : State) (k : Nat), bytes.length < 4294967295 →
    s.inp = { data := bitsOfBytes bytes, pos := 0 } → s.out = { bits := [], closed := false } →
    exec .compress s = .next t → 8 * k < t.out.bits.length →
    u.inp = { data := t.out.bits.take (8 * k), pos := 0 } → u.out.closed = false → u.magic = s.magic →
    ∃ v, exec .decompress u = .next v ∧ v.status.err = true ∧
      (v.status.errCode = .badMagic ∨ v.status.errCode = .truncHeader ∨ v.status.errCode = .truncBody)

/-- R212, R214, R218: COMPRESS with OUT closed at the start ends in OUT_CLOSED, with OUT untouched, the tree built and the codes
derived; a COMPRESS or DECOMPRESS that fails does not close OUT; after BAD_MAGIC OUT is unchanged. -/
def Obligations.FailedMacroDoesNotCloseOut : Prop :=
  (∀ (s : State) (bytes : List (BitVec 8)) (tail : Bits), s.unread = bitsOfBytes bytes ++ tail → s.inp.pos = 0 →
    tail.length < 8 → bytes.length < 4294967295 → s.out.closed = true →
    ∃ t, exec .compress s = .next t ∧ t.status.err = true ∧ t.status.errCode = .outClosed ∧ t.out = s.out ∧
      t.status.treeValid = true ∧ t.status.codeValid = true) ∧
    (∀ s t : State, exec .compress s = .next t → t.status.err = true → t.out.closed = s.out.closed) ∧
    ∀ s t : State, exec .decompress s = .next t → t.status.err = true →
      t.out.closed = s.out.closed ∧ s.out.bits <+: t.out.bits ∧ (t.status.errCode = .badMagic → t.out = s.out)

/-! ### What commands leave alone -/

/-- R42, R39, R46, R48, R31, R25, R70, R28: no command changes CMD, PENDING, CFG, MAGIC, an index register, OVR or the data of
IN; OUT only grows. That none changes `queue`, `response` or `draws` is about the model's own fields (log entries 3, 5, 6). -/
def Obligations.CommandsLeaveHostRegisters : Prop :=
  ∀ (i : Instr) (s t : State), exec i s = .next t →
    t.cmd = s.cmd ∧ t.pending = s.pending ∧ t.cfg = s.cfg ∧ t.magic = s.magic ∧ t.idx = s.idx ∧
      t.status.ovr = s.status.ovr ∧ t.inp.data = s.inp.data ∧ s.out.bits <+: t.out.bits ∧ t.queue = s.queue ∧
      t.response = s.response ∧ t.draws = s.draws

/-- R50, R38, R56, R82: which commands write which table, register or stream: all others leave it. -/
def Obligations.CommandsWriteOnlyTheirState : Prop :=
  ∀ (i : Instr) (s t : State), exec i s = .next t →
    (i ∉ [.count, .compress] → t.freq = s.freq) ∧
      (i ∉ [.buildTree, .readHeader, .compress, .decompress] →
        t.node = s.node ∧ t.status.treeValid = s.status.treeValid ∧
          { t.regs with maxLen := 0 } = { s.regs with maxLen := 0 }) ∧
      (i ∉ [.genCodes, .compress] → t.code = s.code) ∧
      (i ∉ [.buildTree, .readHeader, .genCodes, .compress, .decompress] →
        t.status.codeValid = s.status.codeValid ∧ t.regs.maxLen = s.regs.maxLen) ∧
      (i ∉ [.decodeBody, .decompress] → t.status.decState = s.status.decState) ∧
      (i ∈ [.nop, .buildTree, .genCodes, .writeHeader, .writeMagic, .closeOut] → t.inp = s.inp) ∧
      (i ∈ [.nop, .count, .buildTree, .genCodes, .readHeader, .checkMagic, .rewindIn] → t.out = s.out) ∧
      (i ∉ [.closeOut, .compress, .decompress] → t.out.closed = s.out.closed)

/-! ### The host register window -/

/-- R58, R77: the state after reset with the streams as they are at power-on. -/
def Obligations.ResetGivesTheListedValues : Prop :=
  let s := State.reset
  s.cmd = 0 ∧ s.pending = 0 ∧ s.statusWord = 0x00000080 ∧ s.status.busy = false ∧ s.cfg = { irqEn := false, dbgLevel := 0 } ∧
    s.magic = Config.magicReset ∧ s.regs = { root := 0, nodeCount := 0, leafCount := 0, total := 0, maxLen := 0 } ∧
    s.idx = { freqIdx := 0, nodeIdx := 0, codeIdx := 0, codeWsel := 0 } ∧ (∀ i, s.freqAt i = 0) ∧
    (∀ i, s.codeAt i = { present := false, len := 0, bits := 0 }) ∧ (∀ i, s.nodeAt i = none) ∧
    s.inp = { data := [], pos := 0 } ∧ s.out = { bits := [], closed := false } ∧ s.irq = false

/-- R22 to R25, R32 to R37, R39, R42, R46, R48: what the plain registers and the reserved offsets read while BUSY = 0, with no
side effect. -/
def Obligations.PlainRegistersRead : Prop :=
  ∀ s : State, s.status.busy = false →
    s.HostReads 0x00 0x48554601 ∧ s.HostReads 0x04 0 ∧ s.HostReads 0x08 s.cmd ∧ s.HostReads 0x14 s.magic ∧
      s.HostReads 0x18 (s.regs.root.setWidth 32) ∧ s.HostReads 0x1C (s.regs.nodeCount.setWidth 32) ∧
      s.HostReads 0x20 (s.regs.leafCount.setWidth 32) ∧ s.HostReads 0x24 s.regs.total ∧
      s.HostReads 0x28 (s.regs.maxLen.setWidth 32) ∧ s.HostReads 0x2C 0 ∧
      s.HostReads 0x30 (s.idx.freqIdx.setWidth 32) ∧ s.HostReads 0x38 (s.idx.nodeIdx.setWidth 32) ∧
      s.HostReads 0x44 (s.idx.codeIdx.setWidth 32) ∧ s.HostReads 0x4C (s.idx.codeWsel.setWidth 32) ∧
      ∀ off, 0x54 ≤ off → off ≤ 0x7C → off % 4 = 0 → s.HostReads off 0

/-- R28, R30, R31: the numbers of DEC_STATE, and the fields of STATUS and CFG as HOST reads them while BUSY = 0. -/
def Obligations.StatusAndCfgReadTheirFields : Prop :=
  [DecState.idle, .walking, .done, .error].map (fun d => d.toBits.toNat) = [0, 1, 2, 3] ∧
  ∀ s : State, s.status.busy = false →
    ∃ v c, s.HostReads 0x0C v ∧ s.HostReads 0x10 c ∧
      v.getLsbD 0 = false ∧ v.getLsbD 1 = s.status.done ∧ v.getLsbD 2 = s.status.err ∧ v.getLsbD 3 = s.status.ovr ∧
      v.getLsbD 4 = s.status.treeValid ∧ v.getLsbD 5 = s.status.codeValid ∧ v.getLsbD 6 = s.out.closed ∧
      v.getLsbD 7 = decide (s.inp.pos = s.inp.data.length) ∧ v.extractLsb' 8 4 = s.status.errCode.toBits ∧
      v.extractLsb' 12 2 = s.status.decState.toBits ∧ v.extractLsb' 14 18 = 0 ∧
      c.getLsbD 0 = s.cfg.irqEn ∧ c.extractLsb' 1 2 = s.cfg.dbgLevel ∧ c.extractLsb' 3 29 = 0

/-- R40: FREQ_DATA reads and writes the entry that FREQ_IDX selects; an index above 256 reads 0 and takes no write. -/
def Obligations.FreqDataWindow : Prop :=
  ∀ (s : State) (v : Word), s.status.busy = false →
    (s.idx.freqIdx.toNat ≤ 256 →
      s.HostReads 0x34 (s.freqAt s.idx.freqIdx.toNat) ∧
        ∃ freq, s.HostWrites 0x34 v { s with freq := freq } ∧
          ∀ i ≤ 256, ({ s with freq := freq } : State).freqAt i = if i = s.idx.freqIdx.toNat then v else s.freqAt i) ∧
      (256 < s.idx.freqIdx.toNat → s.HostReads 0x34 0 ∧ s.HostWrites 0x34 v s)

/-- R43, R44: NODE_WEIGHT and NODE_INFO show the entry that NODE_IDX selects, and 0 without a tree or beyond NODE_COUNT. -/
def Obligations.NodeWindows : Prop :=
  ∀ s : State, s.status.busy = false →
    ((s.status.treeValid = false ∨ s.regs.nodeCount ≤ s.idx.nodeIdx) → s.HostReads 0x3C 0 ∧ s.HostReads 0x40 0) ∧
      (s.status.treeValid = true → s.idx.nodeIdx < s.regs.nodeCount →
        (∀ sym w, s.nodeAt s.idx.nodeIdx = some (.leaf sym w) →
          s.HostReads 0x3C w ∧ ∃ v, s.HostReads 0x40 v ∧ v.getLsbD 31 = true ∧ v.extractLsb' 29 2 = 0 ∧
            v.extractLsb' 20 9 = sym ∧ v.extractLsb' 0 20 = 0) ∧
          ∀ w l r, s.nodeAt s.idx.nodeIdx = some (.internal w l r) →
            s.HostReads 0x3C w ∧ ∃ v, s.HostReads 0x40 v ∧ v.extractLsb' 20 12 = 0 ∧ v.extractLsb' 10 10 = r ∧
              v.extractLsb' 0 10 = l)

/-- R47, R49: CODE_INFO and CODE_WORD show the entry that CODE_IDX selects, and 0 without codes or above 256. -/
def Obligations.CodeWindows : Prop :=
  ∀ s : State, s.status.busy = false →
    ((s.status.codeValid = false ∨ 256 < s.idx.codeIdx.toNat) → s.HostReads 0x48 0 ∧ s.HostReads 0x50 0) ∧
      (s.status.codeValid = true → s.idx.codeIdx.toNat ≤ 256 →
        (∃ v, s.HostReads 0x48 v ∧ v.extractLsb' 0 9 = (s.codeAt s.idx.codeIdx.toNat).len ∧ v.extractLsb' 9 22 = 0 ∧
          v.getLsbD 31 = (s.codeAt s.idx.codeIdx.toNat).present) ∧
          s.HostReads 0x50 ((s.codeAt s.idx.codeIdx.toNat).bits.extractLsb' (32 * s.idx.codeWsel.toNat) 32))

/-- R22, R24, R31, R32, R39, R42, R46, R48: what HOST's writes to the plain registers do while BUSY = 0: the defined bits are
stored, a read-only or reserved offset takes nothing, and nothing else changes. -/
def Obligations.PlainRegistersWrite : Prop :=
  ∀ (s : State) (v : Word), s.status.busy = false →
    (v.getLsbD 0 = false → s.HostWrites 0x04 v s) ∧
      s.HostWrites 0x10 v { s with cfg := { irqEn := v.getLsbD 0, dbgLevel := v.extractLsb' 1 2 } } ∧
      s.HostWrites 0x14 v { s with magic := v } ∧
      s.HostWrites 0x30 v { s with idx := { s.idx with freqIdx := v.extractLsb' 0 9 } } ∧
      s.HostWrites 0x38 v { s with idx := { s.idx with nodeIdx := v.extractLsb' 0 10 } } ∧
      s.HostWrites 0x44 v { s with idx := { s.idx with codeIdx := v.extractLsb' 0 9 } } ∧
      s.HostWrites 0x4C v { s with idx := { s.idx with codeWsel := v.extractLsb' 0 3 } } ∧
      (∀ off ∈ [0x00, 0x18, 0x1C, 0x20, 0x24, 0x28, 0x2C, 0x3C, 0x40, 0x48, 0x50], s.HostWrites off v s) ∧
      ∀ off, 0x54 ≤ off → off ≤ 0x7C → off % 4 = 0 → s.HostWrites off v s

/-- R27: a write to CMD while BUSY = 0 accepts the word, whatever it is; ERRCODE and DEC_STATE keep their values. -/
def Obligations.CommandAcceptance : Prop :=
  ∀ (s : State) (v : Word), s.status.busy = false →
    s.HostWrites 0x08 v
      { s with cmd := v, pending := v, status := { s.status with busy := true, done := false, err := false } }

/-- R29: a write to STATUS, at any time, clears those of DONE, ERR and OVR whose bit is set in it, and nothing else. -/
def Obligations.StatusWriteClears : Prop :=
  ∀ (s : State) (v : Word), ∃ t : State, s.HostWrites 0x0C v t ∧
    t = { s with status := { s.status with done := t.status.done, err := t.status.err, ovr := t.status.ovr } } ∧
    (t.status.done = true ↔ s.status.done = true ∧ v.getLsbD 1 = false) ∧
    (t.status.err = true ↔ s.status.err = true ∧ v.getLsbD 2 = false) ∧
    (t.status.ovr = true ↔ s.status.ovr = true ∧ v.getLsbD 3 = false)

/-- R26, R52, R24: while BUSY = 1 a write to any offset but CTRL and STATUS does nothing but set OVR; a write of 0 to
CTRL.SRST does nothing at all. -/
def Obligations.BusyWritesAreDropped : Prop :=
  ∀ (s : State) (v : Word), s.status.busy = true →
    (∀ off < 0x80, off % 4 = 0 → off ≠ 0x04 → off ≠ 0x0C →
      s.HostWrites off v { s with status := { s.status with ovr := true } }) ∧
      (v.getLsbD 0 = false → s.HostWrites 0x04 v s)

/-- R51, R22: while BUSY = 1 the registers that are not drawn read as their rules say, STATUS its stored bits, and no read
changes anything of HTB. -/
def Obligations.BusyReads : Prop :=
  ∀ (s : State) (rest : List Turn), s.status.busy = true →
    (∀ off < 0x80, off % 4 = 0 → ∃ v,
      step { s with queue := .host (.read off .word) :: rest } =
        .next { s with queue := rest, response := some (.value v), draws := s.draws + 1 } ∧
      (off = 0x00 → v = 0x48554601) ∧ (off = 0x04 → v = 0) ∧ (off = 0x08 → v = s.cmd) ∧ (off = 0x14 → v = s.magic) ∧
      (off = 0x10 → v.getLsbD 0 = s.cfg.irqEn ∧ v.extractLsb' 1 2 = s.cfg.dbgLevel ∧ v.extractLsb' 3 29 = 0) ∧
      (off = 0x30 → v = s.idx.freqIdx.setWidth 32) ∧ (off = 0x38 → v = s.idx.nodeIdx.setWidth 32) ∧
      (off = 0x44 → v = s.idx.codeIdx.setWidth 32) ∧ (off = 0x4C → v = s.idx.codeWsel.setWidth 32) ∧
      (off = 0x2C ∨ 0x54 ≤ off → v = 0) ∧
      (off = 0x0C → v.getLsbD 0 = true ∧ v.getLsbD 1 = s.status.done ∧ v.getLsbD 2 = s.status.err ∧
        v.getLsbD 3 = s.status.ovr ∧ v.getLsbD 4 = s.status.treeValid ∧ v.getLsbD 5 = s.status.codeValid ∧
        v.extractLsb' 8 4 = s.status.errCode.toBits ∧ v.extractLsb' 14 18 = 0))

/-- R78, R239: an access with an offset that is no multiple of 4, or of 8 or 16 bits, is a bus error: no state changes and
STATUS is not written. -/
def Obligations.BusErrorChangesNothing : Prop :=
  ∀ (s : State) (rest : List Turn) (off : Nat) (width : AccessWidth) (v : Word), off < 0x80 →
    (off % 4 ≠ 0 ∨ width ≠ .word) →
    step { s with queue := .host (.read off width) :: rest } =
        .next { s with queue := rest, response := some .busError } ∧
      step { s with queue := .host (.write off width v) :: rest } =
        .next { s with queue := rest, response := some .busError }

/-- R58, R260, R261, R262: a hardware reset, and a soft reset by CTRL.SRST, while BUSY = 0 give every register and table its
reset value, deassert IRQ and leave IN and OUT. -/
def Obligations.ResetWhileIdle : Prop :=
  ∀ (s : State) (rest : List Turn) (v : Word), s.status.busy = false → v.getLsbD 0 = true →
    let t : State := { State.reset with inp := s.inp, out := s.out, draws := s.draws }
    step { s with queue := .host .hardReset :: rest } =
        .next { t with queue := rest, response := some .acted } ∧
      s.HostWrites 0x04 v t ∧ t.irq = false ∧ t.status.busy = false

/-- R262, R263, R236: a reset of a pending command leaves HTB's state at its reset values; IN.pos and OUT lie within the rule's
bounds between what they are and what the command would have left, drawn as log entry 7 says. While the pending word selects
no command they do not move. -/
def Obligations.ResetWhileBusyIsBounded : Prop :=
  ∀ (s : State) (rest : List Turn), s.status.busy = true →
    (∀ (p : State) (i : Instr), s.StreamsOk → decode s.pending = .ok i → exec i { s with queue := rest } = .next p →
      ∃ pos bits closed,
        step { s with queue := .host .hardReset :: rest } =
          .next { State.reset with
            inp := { data := s.inp.data, pos := pos }, out := { bits := bits, closed := closed }, queue := rest,
            response := some .acted, draws := s.draws + 1 } ∧
        (∀ v : Word, v.getLsbD 0 = true →
          step { s with queue := .host (.write 0x04 .word v) :: rest } =
            .next { State.reset with
              inp := { data := s.inp.data, pos := pos }, out := { bits := bits, closed := closed }, queue := rest,
              response := some .written, draws := s.draws + 1 }) ∧
        (i ∉ [.rewindIn, .compress] → s.inp.pos ≤ pos ∧ pos ≤ p.inp.pos) ∧ pos ≤ s.inp.data.length ∧
        s.out.bits <+: bits ∧ bits <+: p.out.bits ∧
        (closed = s.out.closed ∨ (closed = true ∧ bits = p.out.bits))) ∧
      ((∀ i, decode s.pending ≠ .ok i) →
        step { s with queue := .host .hardReset :: rest } =
          .next { State.reset with
            inp := s.inp, out := s.out, queue := rest, response := some .acted, draws := s.draws + 1 } ∧
        ∀ v : Word, v.getLsbD 0 = true →
          step { s with queue := .host (.write 0x04 .word v) :: rest } =
            .next { State.reset with
              inp := s.inp, out := s.out, queue := rest, response := some .written, draws := s.draws + 1 })

/-- R77, R270: AttachIn and OpenOut replace a stream while BUSY = 0, TakeOut returns OUT's bits; while BUSY = 1 a host that
attaches or opens a stream is outside the model, which stops (log entry 8). That TakeOut returns them while BUSY = 1 too is the
model's reading of R77 (log entry 11). -/
def Obligations.StreamActions : Prop :=
  ∀ (s : State) (rest : List Turn) (d : Bits),
    (s.status.busy = false →
      step { s with queue := .host (.attachIn d) :: rest } =
          .next { s with queue := rest, response := some .acted, inp := { data := d, pos := 0 } } ∧
        step { s with queue := .host .openOut :: rest } =
          .next { s with queue := rest, response := some .acted, out := { bits := [], closed := false } }) ∧
      step { s with queue := .host .takeOut :: rest } =
        .next { s with queue := rest, response := some (.taken s.out.bits) } ∧
      (s.status.busy = true →
        step { s with queue := .host (.attachIn d) :: rest } = .fault .streamMoveWhileBusy ∧
          step { s with queue := .host .openOut :: rest } = .fault .streamMoveWhileBusy)

/-- R240: IRQ is the level IRQ_EN and (DONE or ERR): every performed command raises it when it is enabled; OVR does not;
accepting a command, clearing the set bit of STATUS, and clearing IRQ_EN each take it away. -/
def Obligations.IrqSignalsCompletion : Prop :=
  (∀ s : State, s.irq = (s.cfg.irqEn && (s.status.done || s.status.err))) ∧
    (∀ (i : Instr) (s t : State), exec i s = .next t → t.irq = s.cfg.irqEn) ∧
    ∀ (s : State) (v : Word) (rest : List Turn), s.status.busy = false →
      (∃ t, step { s with queue := .host (.write 0x08 .word v) :: rest } = .next t ∧ t.irq = false) ∧
        ((s.status.done = true → v.getLsbD 1 = true) → (s.status.err = true → v.getLsbD 2 = true) →
          ∃ t, step { s with queue := .host (.write 0x0C .word v) :: rest } = .next t ∧ t.irq = false) ∧
        (v.getLsbD 0 = false →
          ∃ t, step { s with queue := .host (.write 0x10 .word v) :: rest } = .next t ∧ t.irq = false)

/-! ### Runs -/

/-- R278, R53, and the turns of log entries 3 and 4: from a state with a command accepted, some run over the turns listed and
one more ends the wait for CORE: the command is performed or abandoned by a reset, unless HOST moves a stream before that
(log entry 8). -/
def Obligations.AcceptedCommandIsNotLeftPending : Prop :=
  ∀ s : State, s.TreeOk → s.status.busy = true →
    ∃ k ≤ s.queue.length + 1,
      match Sys2Proof.core.run k s with
      | .next t => t.status.busy = false
      | .fault f => f = .streamMoveWhileBusy
      | .refused _ => False

/-- The invariants below hold after reset. -/
def Obligations.InvariantsHoldAtReset : Prop :=
  State.reset.StreamsOk ∧ State.reset.StatusOk ∧ State.reset.TreeOk ∧ State.reset.CodesOk

/-- R70, R25, R53, R230, R232: every step keeps 0 ≤ IN.pos ≤ |IN.data|; and it keeps PENDING the last accepted word, at most one
of DONE and ERR, none of them while BUSY, and ERRCODE in agreement with them. -/
def Obligations.StepKeepsStreamsAndStatus : Prop :=
  ∀ s t : State, step s = .next t → (s.StreamsOk → t.StreamsOk) ∧ (s.StatusOk → t.StatusOk)

/-- R41, R50: every step keeps TREE_VALID true to the arena: with it the arena holds one tree, which NODE_COUNT and LEAF_COUNT
describe; without it the result registers are 0. -/
def Obligations.StepKeepsTreeValid : Prop :=
  ∀ s t : State, s.TreeOk → step s = .next t → t.TreeOk

/-- R45, R50, R37: every step keeps CODE_VALID true to the code table and MAX_LEN: they are those of the current tree. -/
def Obligations.StepKeepsCodesCurrent : Prop :=
  ∀ s t : State, s.TreeOk → s.CodesOk → step s = .next t → t.CodesOk

/-- With TREE_VALID true to the arena a step stops the model only where HOST moves a stream while BUSY = 1 (R270). -/
def Obligations.OnlyHostMisuseStopsTheModel : Prop :=
  ∀ s : State, s.TreeOk →
    SafeAt s ∨ (s.status.busy = true ∧ step s = .fault .streamMoveWhileBusy ∧
      ((∃ d rest, s.queue = .host (.attachIn d) :: rest) ∨ ∃ rest, s.queue = .host .openOut :: rest))
end

