-- ==== Sys2Proof/Laws/State.lean ====
section
/-! SUPPORT. What each state update changes and leaves: one lemma per field per update, so that no proof unfolds a record
update. -/

namespace Sys2Proof.Machine

/-! ### completeOk -/

@[simp] theorem State.completeOk_cmd (s : State) : s.completeOk.cmd = s.cmd := rfl
@[simp] theorem State.completeOk_pending (s : State) : s.completeOk.pending = s.pending := rfl
@[simp] theorem State.completeOk_status (s : State) :
    s.completeOk.status = { s.status with done := true, err := false, errCode := .none, busy := false } := rfl
@[simp] theorem State.completeOk_cfg (s : State) : s.completeOk.cfg = s.cfg := rfl
@[simp] theorem State.completeOk_magic (s : State) : s.completeOk.magic = s.magic := rfl
@[simp] theorem State.completeOk_regs (s : State) : s.completeOk.regs = s.regs := rfl
@[simp] theorem State.completeOk_idx (s : State) : s.completeOk.idx = s.idx := rfl
@[simp] theorem State.completeOk_freq (s : State) : s.completeOk.freq = s.freq := rfl
@[simp] theorem State.completeOk_node (s : State) : s.completeOk.node = s.node := rfl
@[simp] theorem State.completeOk_code (s : State) : s.completeOk.code = s.code := rfl
@[simp] theorem State.completeOk_inp (s : State) : s.completeOk.inp = s.inp := rfl
@[simp] theorem State.completeOk_out (s : State) : s.completeOk.out = s.out := rfl
@[simp] theorem State.completeOk_queue (s : State) : s.completeOk.queue = s.queue := rfl
@[simp] theorem State.completeOk_response (s : State) : s.completeOk.response = s.response := rfl
@[simp] theorem State.completeOk_draws (s : State) : s.completeOk.draws = s.draws := rfl

/-! ### completeErr -/

@[simp] theorem State.completeErr_cmd (s : State) (c : ErrCode) : (s.completeErr c).cmd = s.cmd := rfl
@[simp] theorem State.completeErr_pending (s : State) (c : ErrCode) : (s.completeErr c).pending = s.pending := rfl
@[simp] theorem State.completeErr_status (s : State) (c : ErrCode) :
    (s.completeErr c).status = { s.status with done := false, err := true, errCode := c, busy := false } := rfl
@[simp] theorem State.completeErr_cfg (s : State) (c : ErrCode) : (s.completeErr c).cfg = s.cfg := rfl
@[simp] theorem State.completeErr_magic (s : State) (c : ErrCode) : (s.completeErr c).magic = s.magic := rfl
@[simp] theorem State.completeErr_regs (s : State) (c : ErrCode) : (s.completeErr c).regs = s.regs := rfl
@[simp] theorem State.completeErr_idx (s : State) (c : ErrCode) : (s.completeErr c).idx = s.idx := rfl
@[simp] theorem State.completeErr_freq (s : State) (c : ErrCode) : (s.completeErr c).freq = s.freq := rfl
@[simp] theorem State.completeErr_node (s : State) (c : ErrCode) : (s.completeErr c).node = s.node := rfl
@[simp] theorem State.completeErr_code (s : State) (c : ErrCode) : (s.completeErr c).code = s.code := rfl
@[simp] theorem State.completeErr_inp (s : State) (c : ErrCode) : (s.completeErr c).inp = s.inp := rfl
@[simp] theorem State.completeErr_out (s : State) (c : ErrCode) : (s.completeErr c).out = s.out := rfl
@[simp] theorem State.completeErr_queue (s : State) (c : ErrCode) : (s.completeErr c).queue = s.queue := rfl
@[simp] theorem State.completeErr_response (s : State) (c : ErrCode) : (s.completeErr c).response = s.response := rfl
@[simp] theorem State.completeErr_draws (s : State) (c : ErrCode) : (s.completeErr c).draws = s.draws := rfl

/-! ### seek -/

@[simp] theorem State.seek_cmd (s : State) (p : Nat) : (s.seek p).cmd = s.cmd := rfl
@[simp] theorem State.seek_pending (s : State) (p : Nat) : (s.seek p).pending = s.pending := rfl
@[simp] theorem State.seek_status (s : State) (p : Nat) : (s.seek p).status = s.status := rfl
@[simp] theorem State.seek_cfg (s : State) (p : Nat) : (s.seek p).cfg = s.cfg := rfl
@[simp] theorem State.seek_magic (s : State) (p : Nat) : (s.seek p).magic = s.magic := rfl
@[simp] theorem State.seek_regs (s : State) (p : Nat) : (s.seek p).regs = s.regs := rfl
@[simp] theorem State.seek_idx (s : State) (p : Nat) : (s.seek p).idx = s.idx := rfl
@[simp] theorem State.seek_freq (s : State) (p : Nat) : (s.seek p).freq = s.freq := rfl
@[simp] theorem State.seek_node (s : State) (p : Nat) : (s.seek p).node = s.node := rfl
@[simp] theorem State.seek_code (s : State) (p : Nat) : (s.seek p).code = s.code := rfl
@[simp] theorem State.seek_inp (s : State) (p : Nat) : (s.seek p).inp = { s.inp with pos := p } := rfl
@[simp] theorem State.seek_out (s : State) (p : Nat) : (s.seek p).out = s.out := rfl
@[simp] theorem State.seek_queue (s : State) (p : Nat) : (s.seek p).queue = s.queue := rfl
@[simp] theorem State.seek_response (s : State) (p : Nat) : (s.seek p).response = s.response := rfl
@[simp] theorem State.seek_draws (s : State) (p : Nat) : (s.seek p).draws = s.draws := rfl

/-! ### writeStr -/

@[simp] theorem State.writeStr_cmd (s : State) (bs : Bits) : (s.writeStr bs).cmd = s.cmd := rfl
@[simp] theorem State.writeStr_pending (s : State) (bs : Bits) : (s.writeStr bs).pending = s.pending := rfl
@[simp] theorem State.writeStr_status (s : State) (bs : Bits) : (s.writeStr bs).status = s.status := rfl
@[simp] theorem State.writeStr_cfg (s : State) (bs : Bits) : (s.writeStr bs).cfg = s.cfg := rfl
@[simp] theorem State.writeStr_magic (s : State) (bs : Bits) : (s.writeStr bs).magic = s.magic := rfl
@[simp] theorem State.writeStr_regs (s : State) (bs : Bits) : (s.writeStr bs).regs = s.regs := rfl
@[simp] theorem State.writeStr_idx (s : State) (bs : Bits) : (s.writeStr bs).idx = s.idx := rfl
@[simp] theorem State.writeStr_freq (s : State) (bs : Bits) : (s.writeStr bs).freq = s.freq := rfl
@[simp] theorem State.writeStr_node (s : State) (bs : Bits) : (s.writeStr bs).node = s.node := rfl
@[simp] theorem State.writeStr_code (s : State) (bs : Bits) : (s.writeStr bs).code = s.code := rfl
@[simp] theorem State.writeStr_inp (s : State) (bs : Bits) : (s.writeStr bs).inp = s.inp := rfl
@[simp] theorem State.writeStr_out (s : State) (bs : Bits) :
    (s.writeStr bs).out = { s.out with bits := s.out.bits ++ bs } := rfl
@[simp] theorem State.writeStr_queue (s : State) (bs : Bits) : (s.writeStr bs).queue = s.queue := rfl
@[simp] theorem State.writeStr_response (s : State) (bs : Bits) : (s.writeStr bs).response = s.response := rfl
@[simp] theorem State.writeStr_draws (s : State) (bs : Bits) : (s.writeStr bs).draws = s.draws := rfl

/-! ### close -/

@[simp] theorem State.close_cmd (s : State) : s.close.cmd = s.cmd := rfl
@[simp] theorem State.close_pending (s : State) : s.close.pending = s.pending := rfl
@[simp] theorem State.close_status (s : State) : s.close.status = s.status := rfl
@[simp] theorem State.close_cfg (s : State) : s.close.cfg = s.cfg := rfl
@[simp] theorem State.close_magic (s : State) : s.close.magic = s.magic := rfl
@[simp] theorem State.close_regs (s : State) : s.close.regs = s.regs := rfl
@[simp] theorem State.close_idx (s : State) : s.close.idx = s.idx := rfl
@[simp] theorem State.close_freq (s : State) : s.close.freq = s.freq := rfl
@[simp] theorem State.close_node (s : State) : s.close.node = s.node := rfl
@[simp] theorem State.close_code (s : State) : s.close.code = s.code := rfl
@[simp] theorem State.close_inp (s : State) : s.close.inp = s.inp := rfl
@[simp] theorem State.close_out (s : State) : s.close.out = s.out.close := rfl
@[simp] theorem State.close_queue (s : State) : s.close.queue = s.queue := rfl
@[simp] theorem State.close_response (s : State) : s.close.response = s.response := rfl
@[simp] theorem State.close_draws (s : State) : s.close.draws = s.draws := rfl

/-! ### setFreq -/

@[simp] theorem State.setFreq_cmd (s : State) (i : Nat) (w : Word) : (s.setFreq i w).cmd = s.cmd := rfl
@[simp] theorem State.setFreq_pending (s : State) (i : Nat) (w : Word) : (s.setFreq i w).pending = s.pending := rfl
@[simp] theorem State.setFreq_status (s : State) (i : Nat) (w : Word) : (s.setFreq i w).status = s.status := rfl
@[simp] theorem State.setFreq_cfg (s : State) (i : Nat) (w : Word) : (s.setFreq i w).cfg = s.cfg := rfl
@[simp] theorem State.setFreq_magic (s : State) (i : Nat) (w : Word) : (s.setFreq i w).magic = s.magic := rfl
@[simp] theorem State.setFreq_regs (s : State) (i : Nat) (w : Word) : (s.setFreq i w).regs = s.regs := rfl
@[simp] theorem State.setFreq_idx (s : State) (i : Nat) (w : Word) : (s.setFreq i w).idx = s.idx := rfl
@[simp] theorem State.setFreq_freq (s : State) (i : Nat) (w : Word) :
    (s.setFreq i w).freq = s.freq.setIfInBounds i w := rfl
@[simp] theorem State.setFreq_node (s : State) (i : Nat) (w : Word) : (s.setFreq i w).node = s.node := rfl
@[simp] theorem State.setFreq_code (s : State) (i : Nat) (w : Word) : (s.setFreq i w).code = s.code := rfl
@[simp] theorem State.setFreq_inp (s : State) (i : Nat) (w : Word) : (s.setFreq i w).inp = s.inp := rfl
@[simp] theorem State.setFreq_out (s : State) (i : Nat) (w : Word) : (s.setFreq i w).out = s.out := rfl
@[simp] theorem State.setFreq_queue (s : State) (i : Nat) (w : Word) : (s.setFreq i w).queue = s.queue := rfl
@[simp] theorem State.setFreq_response (s : State) (i : Nat) (w : Word) : (s.setFreq i w).response = s.response := rfl
@[simp] theorem State.setFreq_draws (s : State) (i : Nat) (w : Word) : (s.setFreq i w).draws = s.draws := rfl

/-! ### clearFreq -/

@[simp] theorem State.clearFreq_cmd (s : State) : s.clearFreq.cmd = s.cmd := rfl
@[simp] theorem State.clearFreq_pending (s : State) : s.clearFreq.pending = s.pending := rfl
@[simp] theorem State.clearFreq_status (s : State) : s.clearFreq.status = s.status := rfl
@[simp] theorem State.clearFreq_cfg (s : State) : s.clearFreq.cfg = s.cfg := rfl
@[simp] theorem State.clearFreq_magic (s : State) : s.clearFreq.magic = s.magic := rfl
@[simp] theorem State.clearFreq_regs (s : State) : s.clearFreq.regs = s.regs := rfl
@[simp] theorem State.clearFreq_idx (s : State) : s.clearFreq.idx = s.idx := rfl
@[simp] theorem State.clearFreq_freq (s : State) : s.clearFreq.freq = Vector.replicate 257 0 := rfl
@[simp] theorem State.clearFreq_node (s : State) : s.clearFreq.node = s.node := rfl
@[simp] theorem State.clearFreq_code (s : State) : s.clearFreq.code = s.code := rfl
@[simp] theorem State.clearFreq_inp (s : State) : s.clearFreq.inp = s.inp := rfl
@[simp] theorem State.clearFreq_out (s : State) : s.clearFreq.out = s.out := rfl
@[simp] theorem State.clearFreq_queue (s : State) : s.clearFreq.queue = s.queue := rfl
@[simp] theorem State.clearFreq_response (s : State) : s.clearFreq.response = s.response := rfl
@[simp] theorem State.clearFreq_draws (s : State) : s.clearFreq.draws = s.draws := rfl

/-! ### setNode -/

@[simp] theorem State.setNode_cmd (s : State) (i : Nat) (n : Node) : (s.setNode i n).cmd = s.cmd := rfl
@[simp] theorem State.setNode_pending (s : State) (i : Nat) (n : Node) : (s.setNode i n).pending = s.pending := rfl
@[simp] theorem State.setNode_status (s : State) (i : Nat) (n : Node) : (s.setNode i n).status = s.status := rfl
@[simp] theorem State.setNode_cfg (s : State) (i : Nat) (n : Node) : (s.setNode i n).cfg = s.cfg := rfl
@[simp] theorem State.setNode_magic (s : State) (i : Nat) (n : Node) : (s.setNode i n).magic = s.magic := rfl
@[simp] theorem State.setNode_regs (s : State) (i : Nat) (n : Node) : (s.setNode i n).regs = s.regs := rfl
@[simp] theorem State.setNode_idx (s : State) (i : Nat) (n : Node) : (s.setNode i n).idx = s.idx := rfl
@[simp] theorem State.setNode_freq (s : State) (i : Nat) (n : Node) : (s.setNode i n).freq = s.freq := rfl
@[simp] theorem State.setNode_node (s : State) (i : Nat) (n : Node) :
    (s.setNode i n).node = s.node.setIfInBounds i (some n) := rfl
@[simp] theorem State.setNode_code (s : State) (i : Nat) (n : Node) : (s.setNode i n).code = s.code := rfl
@[simp] theorem State.setNode_inp (s : State) (i : Nat) (n : Node) : (s.setNode i n).inp = s.inp := rfl
@[simp] theorem State.setNode_out (s : State) (i : Nat) (n : Node) : (s.setNode i n).out = s.out := rfl
@[simp] theorem State.setNode_queue (s : State) (i : Nat) (n : Node) : (s.setNode i n).queue = s.queue := rfl
@[simp] theorem State.setNode_response (s : State) (i : Nat) (n : Node) : (s.setNode i n).response = s.response := rfl
@[simp] theorem State.setNode_draws (s : State) (i : Nat) (n : Node) : (s.setNode i n).draws = s.draws := rfl

/-! ### setCode -/

@[simp] theorem State.setCode_cmd (s : State) (i : Nat) (e : CodeEntry) : (s.setCode i e).cmd = s.cmd := rfl
@[simp] theorem State.setCode_pending (s : State) (i : Nat) (e : CodeEntry) :
    (s.setCode i e).pending = s.pending := rfl
@[simp] theorem State.setCode_status (s : State) (i : Nat) (e : CodeEntry) : (s.setCode i e).status = s.status := rfl
@[simp] theorem State.setCode_cfg (s : State) (i : Nat) (e : CodeEntry) : (s.setCode i e).cfg = s.cfg := rfl
@[simp] theorem State.setCode_magic (s : State) (i : Nat) (e : CodeEntry) : (s.setCode i e).magic = s.magic := rfl
@[simp] theorem State.setCode_regs (s : State) (i : Nat) (e : CodeEntry) : (s.setCode i e).regs = s.regs := rfl
@[simp] theorem State.setCode_idx (s : State) (i : Nat) (e : CodeEntry) : (s.setCode i e).idx = s.idx := rfl
@[simp] theorem State.setCode_freq (s : State) (i : Nat) (e : CodeEntry) : (s.setCode i e).freq = s.freq := rfl
@[simp] theorem State.setCode_node (s : State) (i : Nat) (e : CodeEntry) : (s.setCode i e).node = s.node := rfl
@[simp] theorem State.setCode_code (s : State) (i : Nat) (e : CodeEntry) :
    (s.setCode i e).code = s.code.setIfInBounds i e := rfl
@[simp] theorem State.setCode_inp (s : State) (i : Nat) (e : CodeEntry) : (s.setCode i e).inp = s.inp := rfl
@[simp] theorem State.setCode_out (s : State) (i : Nat) (e : CodeEntry) : (s.setCode i e).out = s.out := rfl
@[simp] theorem State.setCode_queue (s : State) (i : Nat) (e : CodeEntry) : (s.setCode i e).queue = s.queue := rfl
@[simp] theorem State.setCode_response (s : State) (i : Nat) (e : CodeEntry) :
    (s.setCode i e).response = s.response := rfl
@[simp] theorem State.setCode_draws (s : State) (i : Nat) (e : CodeEntry) : (s.setCode i e).draws = s.draws := rfl

/-! ### dropTree -/

@[simp] theorem State.dropTree_cmd (s : State) : s.dropTree.cmd = s.cmd := rfl
@[simp] theorem State.dropTree_pending (s : State) : s.dropTree.pending = s.pending := rfl
@[simp] theorem State.dropTree_status (s : State) :
    s.dropTree.status = { s.status with treeValid := false, codeValid := false } := rfl
@[simp] theorem State.dropTree_cfg (s : State) : s.dropTree.cfg = s.cfg := rfl
@[simp] theorem State.dropTree_magic (s : State) : s.dropTree.magic = s.magic := rfl
@[simp] theorem State.dropTree_regs (s : State) :
    s.dropTree.regs = { root := 0, nodeCount := 0, leafCount := 0, total := 0, maxLen := 0 } := rfl
@[simp] theorem State.dropTree_idx (s : State) : s.dropTree.idx = s.idx := rfl
@[simp] theorem State.dropTree_freq (s : State) : s.dropTree.freq = s.freq := rfl
@[simp] theorem State.dropTree_node (s : State) : s.dropTree.node = s.node := rfl
@[simp] theorem State.dropTree_code (s : State) : s.dropTree.code = s.code := rfl
@[simp] theorem State.dropTree_inp (s : State) : s.dropTree.inp = s.inp := rfl
@[simp] theorem State.dropTree_out (s : State) : s.dropTree.out = s.out := rfl
@[simp] theorem State.dropTree_queue (s : State) : s.dropTree.queue = s.queue := rfl
@[simp] theorem State.dropTree_response (s : State) : s.dropTree.response = s.response := rfl
@[simp] theorem State.dropTree_draws (s : State) : s.dropTree.draws = s.draws := rfl

/-! ### publishTree -/

@[simp] theorem State.publishTree_cmd (s : State) (root n leaves : Nat) (total : Word) :
    (s.publishTree root n leaves total).cmd = s.cmd := rfl
@[simp] theorem State.publishTree_pending (s : State) (root n leaves : Nat) (total : Word) :
    (s.publishTree root n leaves total).pending = s.pending := rfl
@[simp] theorem State.publishTree_status (s : State) (root n leaves : Nat) (total : Word) :
    (s.publishTree root n leaves total).status = { s.status with treeValid := true } := rfl
@[simp] theorem State.publishTree_cfg (s : State) (root n leaves : Nat) (total : Word) :
    (s.publishTree root n leaves total).cfg = s.cfg := rfl
@[simp] theorem State.publishTree_magic (s : State) (root n leaves : Nat) (total : Word) :
    (s.publishTree root n leaves total).magic = s.magic := rfl
@[simp] theorem State.publishTree_regs (s : State) (root n leaves : Nat) (total : Word) :
    (s.publishTree root n leaves total).regs = { s.regs with root := BitVec.ofNat 10 root, nodeCount := BitVec.ofNat 10 n, leafCount := BitVec.ofNat 10 leaves, total := total } := rfl
@[simp] theorem State.publishTree_idx (s : State) (root n leaves : Nat) (total : Word) :
    (s.publishTree root n leaves total).idx = s.idx := rfl
@[simp] theorem State.publishTree_freq (s : State) (root n leaves : Nat) (total : Word) :
    (s.publishTree root n leaves total).freq = s.freq := rfl
@[simp] theorem State.publishTree_node (s : State) (root n leaves : Nat) (total : Word) :
    (s.publishTree root n leaves total).node = s.node := rfl
@[simp] theorem State.publishTree_code (s : State) (root n leaves : Nat) (total : Word) :
    (s.publishTree root n leaves total).code = s.code := rfl
@[simp] theorem State.publishTree_inp (s : State) (root n leaves : Nat) (total : Word) :
    (s.publishTree root n leaves total).inp = s.inp := rfl
@[simp] theorem State.publishTree_out (s : State) (root n leaves : Nat) (total : Word) :
    (s.publishTree root n leaves total).out = s.out := rfl
@[simp] theorem State.publishTree_queue (s : State) (root n leaves : Nat) (total : Word) :
    (s.publishTree root n leaves total).queue = s.queue := rfl
@[simp] theorem State.publishTree_response (s : State) (root n leaves : Nat) (total : Word) :
    (s.publishTree root n leaves total).response = s.response := rfl
@[simp] theorem State.publishTree_draws (s : State) (root n leaves : Nat) (total : Word) :
    (s.publishTree root n leaves total).draws = s.draws := rfl

/-! ### dropCodes -/

@[simp] theorem State.dropCodes_cmd (s : State) : s.dropCodes.cmd = s.cmd := rfl
@[simp] theorem State.dropCodes_pending (s : State) : s.dropCodes.pending = s.pending := rfl
@[simp] theorem State.dropCodes_status (s : State) : s.dropCodes.status = { s.status with codeValid := false } := rfl
@[simp] theorem State.dropCodes_cfg (s : State) : s.dropCodes.cfg = s.cfg := rfl
@[simp] theorem State.dropCodes_magic (s : State) : s.dropCodes.magic = s.magic := rfl
@[simp] theorem State.dropCodes_regs (s : State) : s.dropCodes.regs = { s.regs with maxLen := 0 } := rfl
@[simp] theorem State.dropCodes_idx (s : State) : s.dropCodes.idx = s.idx := rfl
@[simp] theorem State.dropCodes_freq (s : State) : s.dropCodes.freq = s.freq := rfl
@[simp] theorem State.dropCodes_node (s : State) : s.dropCodes.node = s.node := rfl
@[simp] theorem State.dropCodes_code (s : State) : s.dropCodes.code = Vector.replicate 257 CodeEntry.empty := rfl
@[simp] theorem State.dropCodes_inp (s : State) : s.dropCodes.inp = s.inp := rfl
@[simp] theorem State.dropCodes_out (s : State) : s.dropCodes.out = s.out := rfl
@[simp] theorem State.dropCodes_queue (s : State) : s.dropCodes.queue = s.queue := rfl
@[simp] theorem State.dropCodes_response (s : State) : s.dropCodes.response = s.response := rfl
@[simp] theorem State.dropCodes_draws (s : State) : s.dropCodes.draws = s.draws := rfl

/-! ### publishCodes -/

@[simp] theorem State.publishCodes_cmd (s : State) : s.publishCodes.cmd = s.cmd := rfl
@[simp] theorem State.publishCodes_pending (s : State) : s.publishCodes.pending = s.pending := rfl
@[simp] theorem State.publishCodes_status (s : State) :
    s.publishCodes.status = { s.status with codeValid := true } := rfl
@[simp] theorem State.publishCodes_cfg (s : State) : s.publishCodes.cfg = s.cfg := rfl
@[simp] theorem State.publishCodes_magic (s : State) : s.publishCodes.magic = s.magic := rfl
@[simp] theorem State.publishCodes_regs (s : State) :
    s.publishCodes.regs = { s.regs with maxLen := s.longestCode } := rfl
@[simp] theorem State.publishCodes_idx (s : State) : s.publishCodes.idx = s.idx := rfl
@[simp] theorem State.publishCodes_freq (s : State) : s.publishCodes.freq = s.freq := rfl
@[simp] theorem State.publishCodes_node (s : State) : s.publishCodes.node = s.node := rfl
@[simp] theorem State.publishCodes_code (s : State) : s.publishCodes.code = s.code := rfl
@[simp] theorem State.publishCodes_inp (s : State) : s.publishCodes.inp = s.inp := rfl
@[simp] theorem State.publishCodes_out (s : State) : s.publishCodes.out = s.out := rfl
@[simp] theorem State.publishCodes_queue (s : State) : s.publishCodes.queue = s.queue := rfl
@[simp] theorem State.publishCodes_response (s : State) : s.publishCodes.response = s.response := rfl
@[simp] theorem State.publishCodes_draws (s : State) : s.publishCodes.draws = s.draws := rfl

/-! ### setDec -/

@[simp] theorem State.setDec_cmd (s : State) (d : DecState) : (s.setDec d).cmd = s.cmd := rfl
@[simp] theorem State.setDec_pending (s : State) (d : DecState) : (s.setDec d).pending = s.pending := rfl
@[simp] theorem State.setDec_status (s : State) (d : DecState) :
    (s.setDec d).status = { s.status with decState := d } := rfl
@[simp] theorem State.setDec_cfg (s : State) (d : DecState) : (s.setDec d).cfg = s.cfg := rfl
@[simp] theorem State.setDec_magic (s : State) (d : DecState) : (s.setDec d).magic = s.magic := rfl
@[simp] theorem State.setDec_regs (s : State) (d : DecState) : (s.setDec d).regs = s.regs := rfl
@[simp] theorem State.setDec_idx (s : State) (d : DecState) : (s.setDec d).idx = s.idx := rfl
@[simp] theorem State.setDec_freq (s : State) (d : DecState) : (s.setDec d).freq = s.freq := rfl
@[simp] theorem State.setDec_node (s : State) (d : DecState) : (s.setDec d).node = s.node := rfl
@[simp] theorem State.setDec_code (s : State) (d : DecState) : (s.setDec d).code = s.code := rfl
@[simp] theorem State.setDec_inp (s : State) (d : DecState) : (s.setDec d).inp = s.inp := rfl
@[simp] theorem State.setDec_out (s : State) (d : DecState) : (s.setDec d).out = s.out := rfl
@[simp] theorem State.setDec_queue (s : State) (d : DecState) : (s.setDec d).queue = s.queue := rfl
@[simp] theorem State.setDec_response (s : State) (d : DecState) : (s.setDec d).response = s.response := rfl
@[simp] theorem State.setDec_draws (s : State) (d : DecState) : (s.setDec d).draws = s.draws := rfl

/-! ### clearStatus -/

@[simp] theorem State.clearStatus_cmd (s : State) (v : Word) : (s.clearStatus v).cmd = s.cmd := rfl
@[simp] theorem State.clearStatus_pending (s : State) (v : Word) : (s.clearStatus v).pending = s.pending := rfl
@[simp] theorem State.clearStatus_cfg (s : State) (v : Word) : (s.clearStatus v).cfg = s.cfg := rfl
@[simp] theorem State.clearStatus_magic (s : State) (v : Word) : (s.clearStatus v).magic = s.magic := rfl
@[simp] theorem State.clearStatus_regs (s : State) (v : Word) : (s.clearStatus v).regs = s.regs := rfl
@[simp] theorem State.clearStatus_idx (s : State) (v : Word) : (s.clearStatus v).idx = s.idx := rfl
@[simp] theorem State.clearStatus_freq (s : State) (v : Word) : (s.clearStatus v).freq = s.freq := rfl
@[simp] theorem State.clearStatus_node (s : State) (v : Word) : (s.clearStatus v).node = s.node := rfl
@[simp] theorem State.clearStatus_code (s : State) (v : Word) : (s.clearStatus v).code = s.code := rfl
@[simp] theorem State.clearStatus_inp (s : State) (v : Word) : (s.clearStatus v).inp = s.inp := rfl
@[simp] theorem State.clearStatus_out (s : State) (v : Word) : (s.clearStatus v).out = s.out := rfl
@[simp] theorem State.clearStatus_queue (s : State) (v : Word) : (s.clearStatus v).queue = s.queue := rfl
@[simp] theorem State.clearStatus_response (s : State) (v : Word) : (s.clearStatus v).response = s.response := rfl
@[simp] theorem State.clearStatus_draws (s : State) (v : Word) : (s.clearStatus v).draws = s.draws := rfl

/-! ### dropWrite -/

@[simp] theorem State.dropWrite_cmd (s : State) : s.dropWrite.cmd = s.cmd := rfl
@[simp] theorem State.dropWrite_pending (s : State) : s.dropWrite.pending = s.pending := rfl
@[simp] theorem State.dropWrite_status (s : State) : s.dropWrite.status = { s.status with ovr := true } := rfl
@[simp] theorem State.dropWrite_cfg (s : State) : s.dropWrite.cfg = s.cfg := rfl
@[simp] theorem State.dropWrite_magic (s : State) : s.dropWrite.magic = s.magic := rfl
@[simp] theorem State.dropWrite_regs (s : State) : s.dropWrite.regs = s.regs := rfl
@[simp] theorem State.dropWrite_idx (s : State) : s.dropWrite.idx = s.idx := rfl
@[simp] theorem State.dropWrite_freq (s : State) : s.dropWrite.freq = s.freq := rfl
@[simp] theorem State.dropWrite_node (s : State) : s.dropWrite.node = s.node := rfl
@[simp] theorem State.dropWrite_code (s : State) : s.dropWrite.code = s.code := rfl
@[simp] theorem State.dropWrite_inp (s : State) : s.dropWrite.inp = s.inp := rfl
@[simp] theorem State.dropWrite_out (s : State) : s.dropWrite.out = s.out := rfl
@[simp] theorem State.dropWrite_queue (s : State) : s.dropWrite.queue = s.queue := rfl
@[simp] theorem State.dropWrite_response (s : State) : s.dropWrite.response = s.response := rfl
@[simp] theorem State.dropWrite_draws (s : State) : s.dropWrite.draws = s.draws := rfl

/-! ### accept -/

@[simp] theorem State.accept_cmd (s : State) (v : Word) : (s.accept v).cmd = v := rfl
@[simp] theorem State.accept_pending (s : State) (v : Word) : (s.accept v).pending = v := rfl
@[simp] theorem State.accept_status (s : State) (v : Word) :
    (s.accept v).status = { s.status with busy := true, done := false, err := false } := rfl
@[simp] theorem State.accept_cfg (s : State) (v : Word) : (s.accept v).cfg = s.cfg := rfl
@[simp] theorem State.accept_magic (s : State) (v : Word) : (s.accept v).magic = s.magic := rfl
@[simp] theorem State.accept_regs (s : State) (v : Word) : (s.accept v).regs = s.regs := rfl
@[simp] theorem State.accept_idx (s : State) (v : Word) : (s.accept v).idx = s.idx := rfl
@[simp] theorem State.accept_freq (s : State) (v : Word) : (s.accept v).freq = s.freq := rfl
@[simp] theorem State.accept_node (s : State) (v : Word) : (s.accept v).node = s.node := rfl
@[simp] theorem State.accept_code (s : State) (v : Word) : (s.accept v).code = s.code := rfl
@[simp] theorem State.accept_inp (s : State) (v : Word) : (s.accept v).inp = s.inp := rfl
@[simp] theorem State.accept_out (s : State) (v : Word) : (s.accept v).out = s.out := rfl
@[simp] theorem State.accept_queue (s : State) (v : Word) : (s.accept v).queue = s.queue := rfl
@[simp] theorem State.accept_response (s : State) (v : Word) : (s.accept v).response = s.response := rfl
@[simp] theorem State.accept_draws (s : State) (v : Word) : (s.accept v).draws = s.draws := rfl

/-! ### respond -/

@[simp] theorem State.respond_cmd (s : State) (r : Response) : (s.respond r).cmd = s.cmd := rfl
@[simp] theorem State.respond_pending (s : State) (r : Response) : (s.respond r).pending = s.pending := rfl
@[simp] theorem State.respond_status (s : State) (r : Response) : (s.respond r).status = s.status := rfl
@[simp] theorem State.respond_cfg (s : State) (r : Response) : (s.respond r).cfg = s.cfg := rfl
@[simp] theorem State.respond_magic (s : State) (r : Response) : (s.respond r).magic = s.magic := rfl
@[simp] theorem State.respond_regs (s : State) (r : Response) : (s.respond r).regs = s.regs := rfl
@[simp] theorem State.respond_idx (s : State) (r : Response) : (s.respond r).idx = s.idx := rfl
@[simp] theorem State.respond_freq (s : State) (r : Response) : (s.respond r).freq = s.freq := rfl
@[simp] theorem State.respond_node (s : State) (r : Response) : (s.respond r).node = s.node := rfl
@[simp] theorem State.respond_code (s : State) (r : Response) : (s.respond r).code = s.code := rfl
@[simp] theorem State.respond_inp (s : State) (r : Response) : (s.respond r).inp = s.inp := rfl
@[simp] theorem State.respond_out (s : State) (r : Response) : (s.respond r).out = s.out := rfl
@[simp] theorem State.respond_queue (s : State) (r : Response) : (s.respond r).queue = s.queue := rfl
@[simp] theorem State.respond_response (s : State) (r : Response) : (s.respond r).response = some r := rfl
@[simp] theorem State.respond_draws (s : State) (r : Response) : (s.respond r).draws = s.draws := rfl

/-! ### drawn -/

@[simp] theorem State.drawn_cmd (s : State) : s.drawn.cmd = s.cmd := rfl
@[simp] theorem State.drawn_pending (s : State) : s.drawn.pending = s.pending := rfl
@[simp] theorem State.drawn_status (s : State) : s.drawn.status = s.status := rfl
@[simp] theorem State.drawn_cfg (s : State) : s.drawn.cfg = s.cfg := rfl
@[simp] theorem State.drawn_magic (s : State) : s.drawn.magic = s.magic := rfl
@[simp] theorem State.drawn_regs (s : State) : s.drawn.regs = s.regs := rfl
@[simp] theorem State.drawn_idx (s : State) : s.drawn.idx = s.idx := rfl
@[simp] theorem State.drawn_freq (s : State) : s.drawn.freq = s.freq := rfl
@[simp] theorem State.drawn_node (s : State) : s.drawn.node = s.node := rfl
@[simp] theorem State.drawn_code (s : State) : s.drawn.code = s.code := rfl
@[simp] theorem State.drawn_inp (s : State) : s.drawn.inp = s.inp := rfl
@[simp] theorem State.drawn_out (s : State) : s.drawn.out = s.out := rfl
@[simp] theorem State.drawn_queue (s : State) : s.drawn.queue = s.queue := rfl
@[simp] theorem State.drawn_response (s : State) : s.drawn.response = s.response := rfl
@[simp] theorem State.drawn_draws (s : State) : s.drawn.draws = s.draws + 1 := rfl

/-! ### abandon -/

@[simp] theorem State.abandon_cmd (s : State) (post : State) : (s.abandon post).cmd = s.cmd := rfl
@[simp] theorem State.abandon_pending (s : State) (post : State) : (s.abandon post).pending = s.pending := rfl
@[simp] theorem State.abandon_status (s : State) (post : State) : (s.abandon post).status = s.status := rfl
@[simp] theorem State.abandon_cfg (s : State) (post : State) : (s.abandon post).cfg = s.cfg := rfl
@[simp] theorem State.abandon_magic (s : State) (post : State) : (s.abandon post).magic = s.magic := rfl
@[simp] theorem State.abandon_regs (s : State) (post : State) : (s.abandon post).regs = s.regs := rfl
@[simp] theorem State.abandon_idx (s : State) (post : State) : (s.abandon post).idx = s.idx := rfl
@[simp] theorem State.abandon_freq (s : State) (post : State) : (s.abandon post).freq = s.freq := rfl
@[simp] theorem State.abandon_node (s : State) (post : State) : (s.abandon post).node = s.node := rfl
@[simp] theorem State.abandon_code (s : State) (post : State) : (s.abandon post).code = s.code := rfl
@[simp] theorem State.abandon_inp (s : State) (post : State) :
    (s.abandon post).inp = { s.inp with pos := s.abandonedPos post.inp.pos } := rfl
@[simp] theorem State.abandon_out (s : State) (post : State) :
    (s.abandon post).out = { bits := s.abandonedBits post.out.bits, closed := s.abandonedClosed post.out.bits } := rfl
@[simp] theorem State.abandon_queue (s : State) (post : State) : (s.abandon post).queue = s.queue := rfl
@[simp] theorem State.abandon_response (s : State) (post : State) : (s.abandon post).response = s.response := rfl
@[simp] theorem State.abandon_draws (s : State) (post : State) : (s.abandon post).draws = s.draws + 1 := rfl

/-! ### resetCore: HTB's own state goes, the rest stays -/

@[simp] theorem State.resetCore_cmd (s : State) : s.resetCore.cmd = State.reset.cmd := rfl
@[simp] theorem State.resetCore_pending (s : State) : s.resetCore.pending = State.reset.pending := rfl
@[simp] theorem State.resetCore_status (s : State) : s.resetCore.status = State.reset.status := rfl
@[simp] theorem State.resetCore_cfg (s : State) : s.resetCore.cfg = State.reset.cfg := rfl
@[simp] theorem State.resetCore_magic (s : State) : s.resetCore.magic = State.reset.magic := rfl
@[simp] theorem State.resetCore_regs (s : State) : s.resetCore.regs = State.reset.regs := rfl
@[simp] theorem State.resetCore_idx (s : State) : s.resetCore.idx = State.reset.idx := rfl
@[simp] theorem State.resetCore_freq (s : State) : s.resetCore.freq = State.reset.freq := rfl
@[simp] theorem State.resetCore_node (s : State) : s.resetCore.node = State.reset.node := rfl
@[simp] theorem State.resetCore_code (s : State) : s.resetCore.code = State.reset.code := rfl
@[simp] theorem State.resetCore_inp (s : State) : s.resetCore.inp = s.inp := rfl
@[simp] theorem State.resetCore_out (s : State) : s.resetCore.out = s.out := rfl
@[simp] theorem State.resetCore_queue (s : State) : s.resetCore.queue = s.queue := rfl
@[simp] theorem State.resetCore_response (s : State) : s.resetCore.response = s.response := rfl
@[simp] theorem State.resetCore_draws (s : State) : s.resetCore.draws = s.draws := rfl

/-! ### Reads of the tables see only the table -/

@[simp] theorem State.completeOk_freqAt (s : State) (k : Nat) : s.completeOk.freqAt k = s.freqAt k := rfl
@[simp] theorem State.completeErr_freqAt (s : State) (c : ErrCode) (k : Nat) :
    (s.completeErr c).freqAt k = s.freqAt k := rfl
@[simp] theorem State.seek_freqAt (s : State) (p : Nat) (k : Nat) : (s.seek p).freqAt k = s.freqAt k := rfl
@[simp] theorem State.writeStr_freqAt (s : State) (bs : Bits) (k : Nat) : (s.writeStr bs).freqAt k = s.freqAt k := rfl
@[simp] theorem State.close_freqAt (s : State) (k : Nat) : s.close.freqAt k = s.freqAt k := rfl
@[simp] theorem State.setNode_freqAt (s : State) (i : Nat) (n : Node) (k : Nat) :
    (s.setNode i n).freqAt k = s.freqAt k := rfl
@[simp] theorem State.setCode_freqAt (s : State) (i : Nat) (e : CodeEntry) (k : Nat) :
    (s.setCode i e).freqAt k = s.freqAt k := rfl
@[simp] theorem State.dropTree_freqAt (s : State) (k : Nat) : s.dropTree.freqAt k = s.freqAt k := rfl
@[simp] theorem State.publishTree_freqAt (s : State) (root n leaves : Nat) (total : Word) (k : Nat) :
    (s.publishTree root n leaves total).freqAt k = s.freqAt k := rfl
@[simp] theorem State.dropCodes_freqAt (s : State) (k : Nat) : s.dropCodes.freqAt k = s.freqAt k := rfl
@[simp] theorem State.publishCodes_freqAt (s : State) (k : Nat) : s.publishCodes.freqAt k = s.freqAt k := rfl
@[simp] theorem State.setDec_freqAt (s : State) (d : DecState) (k : Nat) : (s.setDec d).freqAt k = s.freqAt k := rfl
@[simp] theorem State.clearStatus_freqAt (s : State) (v : Word) (k : Nat) :
    (s.clearStatus v).freqAt k = s.freqAt k := rfl
@[simp] theorem State.dropWrite_freqAt (s : State) (k : Nat) : s.dropWrite.freqAt k = s.freqAt k := rfl
@[simp] theorem State.accept_freqAt (s : State) (v : Word) (k : Nat) : (s.accept v).freqAt k = s.freqAt k := rfl
@[simp] theorem State.respond_freqAt (s : State) (r : Response) (k : Nat) : (s.respond r).freqAt k = s.freqAt k := rfl
@[simp] theorem State.drawn_freqAt (s : State) (k : Nat) : s.drawn.freqAt k = s.freqAt k := rfl
@[simp] theorem State.abandon_freqAt (s : State) (post : State) (k : Nat) :
    (s.abandon post).freqAt k = s.freqAt k := rfl

@[simp] theorem State.completeOk_codeAt (s : State) (k : Nat) : s.completeOk.codeAt k = s.codeAt k := rfl
@[simp] theorem State.completeErr_codeAt (s : State) (c : ErrCode) (k : Nat) :
    (s.completeErr c).codeAt k = s.codeAt k := rfl
@[simp] theorem State.seek_codeAt (s : State) (p : Nat) (k : Nat) : (s.seek p).codeAt k = s.codeAt k := rfl
@[simp] theorem State.writeStr_codeAt (s : State) (bs : Bits) (k : Nat) : (s.writeStr bs).codeAt k = s.codeAt k := rfl
@[simp] theorem State.close_codeAt (s : State) (k : Nat) : s.close.codeAt k = s.codeAt k := rfl
@[simp] theorem State.setFreq_codeAt (s : State) (i : Nat) (w : Word) (k : Nat) :
    (s.setFreq i w).codeAt k = s.codeAt k := rfl
@[simp] theorem State.clearFreq_codeAt (s : State) (k : Nat) : s.clearFreq.codeAt k = s.codeAt k := rfl
@[simp] theorem State.setNode_codeAt (s : State) (i : Nat) (n : Node) (k : Nat) :
    (s.setNode i n).codeAt k = s.codeAt k := rfl
@[simp] theorem State.dropTree_codeAt (s : State) (k : Nat) : s.dropTree.codeAt k = s.codeAt k := rfl
@[simp] theorem State.publishTree_codeAt (s : State) (root n leaves : Nat) (total : Word) (k : Nat) :
    (s.publishTree root n leaves total).codeAt k = s.codeAt k := rfl
@[simp] theorem State.publishCodes_codeAt (s : State) (k : Nat) : s.publishCodes.codeAt k = s.codeAt k := rfl
@[simp] theorem State.setDec_codeAt (s : State) (d : DecState) (k : Nat) : (s.setDec d).codeAt k = s.codeAt k := rfl
@[simp] theorem State.clearStatus_codeAt (s : State) (v : Word) (k : Nat) :
    (s.clearStatus v).codeAt k = s.codeAt k := rfl
@[simp] theorem State.dropWrite_codeAt (s : State) (k : Nat) : s.dropWrite.codeAt k = s.codeAt k := rfl
@[simp] theorem State.accept_codeAt (s : State) (v : Word) (k : Nat) : (s.accept v).codeAt k = s.codeAt k := rfl
@[simp] theorem State.respond_codeAt (s : State) (r : Response) (k : Nat) : (s.respond r).codeAt k = s.codeAt k := rfl
@[simp] theorem State.drawn_codeAt (s : State) (k : Nat) : s.drawn.codeAt k = s.codeAt k := rfl
@[simp] theorem State.abandon_codeAt (s : State) (post : State) (k : Nat) :
    (s.abandon post).codeAt k = s.codeAt k := rfl

@[simp] theorem State.completeOk_nodeAt (s : State) (k : NodeIdx) : s.completeOk.nodeAt k = s.nodeAt k := rfl
@[simp] theorem State.completeErr_nodeAt (s : State) (c : ErrCode) (k : NodeIdx) :
    (s.completeErr c).nodeAt k = s.nodeAt k := rfl
@[simp] theorem State.seek_nodeAt (s : State) (p : Nat) (k : NodeIdx) : (s.seek p).nodeAt k = s.nodeAt k := rfl
@[simp] theorem State.writeStr_nodeAt (s : State) (bs : Bits) (k : NodeIdx) :
    (s.writeStr bs).nodeAt k = s.nodeAt k := rfl
@[simp] theorem State.close_nodeAt (s : State) (k : NodeIdx) : s.close.nodeAt k = s.nodeAt k := rfl
@[simp] theorem State.setFreq_nodeAt (s : State) (i : Nat) (w : Word) (k : NodeIdx) :
    (s.setFreq i w).nodeAt k = s.nodeAt k := rfl
@[simp] theorem State.clearFreq_nodeAt (s : State) (k : NodeIdx) : s.clearFreq.nodeAt k = s.nodeAt k := rfl
@[simp] theorem State.setCode_nodeAt (s : State) (i : Nat) (e : CodeEntry) (k : NodeIdx) :
    (s.setCode i e).nodeAt k = s.nodeAt k := rfl
@[simp] theorem State.dropTree_nodeAt (s : State) (k : NodeIdx) : s.dropTree.nodeAt k = s.nodeAt k := rfl
@[simp] theorem State.publishTree_nodeAt (s : State) (root n leaves : Nat) (total : Word) (k : NodeIdx) :
    (s.publishTree root n leaves total).nodeAt k = s.nodeAt k := rfl
@[simp] theorem State.dropCodes_nodeAt (s : State) (k : NodeIdx) : s.dropCodes.nodeAt k = s.nodeAt k := rfl
@[simp] theorem State.publishCodes_nodeAt (s : State) (k : NodeIdx) : s.publishCodes.nodeAt k = s.nodeAt k := rfl
@[simp] theorem State.setDec_nodeAt (s : State) (d : DecState) (k : NodeIdx) :
    (s.setDec d).nodeAt k = s.nodeAt k := rfl
@[simp] theorem State.clearStatus_nodeAt (s : State) (v : Word) (k : NodeIdx) :
    (s.clearStatus v).nodeAt k = s.nodeAt k := rfl
@[simp] theorem State.dropWrite_nodeAt (s : State) (k : NodeIdx) : s.dropWrite.nodeAt k = s.nodeAt k := rfl
@[simp] theorem State.accept_nodeAt (s : State) (v : Word) (k : NodeIdx) : (s.accept v).nodeAt k = s.nodeAt k := rfl
@[simp] theorem State.respond_nodeAt (s : State) (r : Response) (k : NodeIdx) :
    (s.respond r).nodeAt k = s.nodeAt k := rfl
@[simp] theorem State.drawn_nodeAt (s : State) (k : NodeIdx) : s.drawn.nodeAt k = s.nodeAt k := rfl
@[simp] theorem State.abandon_nodeAt (s : State) (post : State) (k : NodeIdx) :
    (s.abandon post).nodeAt k = s.nodeAt k := rfl

/-! ### The ends of a command body -/

@[simp] theorem Run.ok_andThen (s : State) (k : State → Run) : (Run.ok s).andThen k = k s := rfl
@[simp] theorem Run.raised_andThen (c : ErrCode) (s : State) (k : State → Run) :
    (Run.raised c s).andThen k = .raised c s := rfl
@[simp] theorem Run.stuck_andThen (f : Fault) (s : State) (k : State → Run) :
    (Run.stuck f s).andThen k = .stuck f s := rfl
@[simp] theorem Run.ok_decodeError (s : State) : (Run.ok s).decodeError = .ok s := rfl
@[simp] theorem Run.raised_decodeError (c : ErrCode) (s : State) :
    (Run.raised c s).decodeError = .raised c (s.setDec .error) := rfl
@[simp] theorem Run.stuck_decodeError (f : Fault) (s : State) : (Run.stuck f s).decodeError = .stuck f s := rfl
@[simp] theorem finish_ok (s : State) : finish (.ok s) = .next s.completeOk := rfl
@[simp] theorem finish_raised (c : ErrCode) (s : State) : finish (.raised c s) = .next (s.completeErr c) := rfl
@[simp] theorem finish_stuck (f : Fault) (s : State) : finish (.stuck f s) = .fault f := rfl
@[simp] theorem Parse.ok_andThen (i n l : Nat) (s : State) (k : Nat → Nat → Nat → State → Parse) :
    (Parse.ok i n l s).andThen k = k i n l s := rfl
@[simp] theorem Parse.raised_andThen (c : ErrCode) (s : State) (k : Nat → Nat → Nat → State → Parse) :
    (Parse.raised c s).andThen k = .raised c s := rfl
@[simp] theorem Parse.stuck_andThen (s : State) (k : Nat → Nat → Nat → State → Parse) :
    (Parse.stuck s).andThen k = .stuck s := rfl

@[simp] theorem State.require_true (s : State) (c : ErrCode) : s.require true c = .ok s := rfl
@[simp] theorem State.require_false (s : State) (c : ErrCode) : s.require false c = .raised c s := rfl

/-- A body that goes on after a first part ended well in that part. -/
theorem Run.andThen_eq_ok {r : Run} {k : State → Run} {t : State} :
    r.andThen k = .ok t ↔ ∃ s, r = .ok s ∧ k s = .ok t := by
  cases r <;> simp [Run.andThen]

/-- An error of a body is an error of its first part, or of the rest after that part ended well. -/
theorem Run.andThen_eq_raised {r : Run} {k : State → Run} {c : ErrCode} {t : State} :
    r.andThen k = .raised c t ↔ r = .raised c t ∨ ∃ s, r = .ok s ∧ k s = .raised c t := by
  cases r <;> simp [Run.andThen]

/-- A body that is stuck is stuck in its first part, or in the rest after that part ended well. -/
theorem Run.andThen_eq_stuck {r : Run} {k : State → Run} {f : Fault} {t : State} :
    r.andThen k = .stuck f t ↔ r = .stuck f t ∨ ∃ s, r = .ok s ∧ k s = .stuck f t := by
  cases r <;> simp [Run.andThen]

/-- A parse that goes on after a first part ended well in that part. -/
theorem Parse.andThen_eq_ok {p : Parse} {k : Nat → Nat → Nat → State → Parse} {i n l : Nat} {t : State} :
    p.andThen k = .ok i n l t ↔ ∃ i' n' l' s, p = .ok i' n' l' s ∧ k i' n' l' s = .ok i n l t := by
  cases p <;> simp [Parse.andThen]

/-- The only way on to a next state is success or an error of the body (R232). -/
theorem finish_eq_next {r : Run} {t : State} :
    finish r = .next t ↔
      (∃ s, r = .ok s ∧ t = s.completeOk) ∨ (∃ c s, r = .raised c s ∧ t = s.completeErr c) := by
  cases r <;> simp [finish, eq_comm]

theorem State.require_eq_ok {s t : State} {b : Bool} {c : ErrCode} :
    s.require b c = .ok t ↔ b = true ∧ t = s := by
  cases b <;> simp [State.require, eq_comm]

theorem State.require_eq_raised {s t : State} {b : Bool} {c e : ErrCode} :
    s.require b c = .raised e t ↔ b = false ∧ e = c ∧ t = s := by
  cases b <;> simp [State.require, eq_comm]

theorem State.require_ne_stuck {s t : State} {b : Bool} {c : ErrCode} {f : Fault} :
    s.require b c ≠ .stuck f t := by
  cases b <;> simp [State.require]

end Sys2Proof.Machine
end

