-- ==== Sys2Proof/Laws/Ops.lean ====
section
/-! SUPPORT. What the shared operations over bit strings, streams and tables do. -/

namespace Sys2Proof.Machine

/-! ### Bit strings -/

@[simp] theorem bin_length (n v : Nat) : (bin n v).length = n := by
  induction n with
  | zero => rfl
  | succ n ih => simp [bin, ih]

theorem val_foldl (bs : Bits) (a : Nat) :
    bs.foldl (fun acc b => 2 * acc + b.toNat) a = a * 2 ^ bs.length + val bs := by
  induction bs generalizing a with
  | nil => simp [val]
  | cons b bs ih =>
    simp only [List.foldl_cons, List.length_cons, val]
    rw [ih, ih (2 * 0 + b.toNat)]
    ring

@[simp] theorem val_nil : val [] = 0 := rfl

theorem val_cons (b : Bool) (bs : Bits) : val (b :: bs) = b.toNat * 2 ^ bs.length + val bs := by
  show bs.foldl (fun acc b => 2 * acc + b.toNat) (2 * 0 + b.toNat) = _
  rw [val_foldl]
  ring

theorem val_lt (bs : Bits) : val bs < 2 ^ bs.length := by
  induction bs with
  | nil => simp
  | cons b bs ih =>
    rw [val_cons, List.length_cons, pow_succ]
    have : b.toNat ≤ 1 := by cases b <;> simp
    nlinarith

/-- R12: `val` undoes `bin`. -/
theorem val_bin (n v : Nat) : val (bin n v) = v % 2 ^ n := by
  induction n with
  | zero => simp [bin, Nat.mod_one]
  | succ n ih =>
    rw [bin, val_cons, ih, bin_length, Nat.mod_pow_succ, Nat.testBit_eq_decide_div_mod_eq]
    rcases Nat.mod_two_eq_zero_or_one (v / 2 ^ n) with h | h
    · simp [h]
    · simp [h]
      ring

theorem bin_mod (n v : Nat) : bin n (v % 2 ^ n) = bin n v := by
  have key : ∀ k ≤ n, bin k (v % 2 ^ n) = bin k v := by
    intro k hk
    induction k with
    | zero => rfl
    | succ k ih =>
      have h : (v % 2 ^ n).testBit k = v.testBit k := by
        rw [Nat.testBit_mod_two_pow]
        simp [show k < n by omega]
      rw [bin, bin, ih (by omega), h]
  exact key n le_rfl

theorem bin_injective_val {bs cs : Bits} (hl : bs.length = cs.length) (hv : val bs = val cs) : bs = cs := by
  induction bs generalizing cs with
  | nil => cases cs with
    | nil => rfl
    | cons c cs => simp at hl
  | cons b bs ih => cases cs with
    | nil => simp at hl
    | cons c cs =>
      have hl' : bs.length = cs.length := by simpa using hl
      rw [val_cons, val_cons, hl'] at hv
      have h1 := val_lt bs
      have h2 := val_lt cs
      rw [hl'] at h1
      cases b <;> cases c
      · rw [ih hl' (by simpa using hv)]
      · simp at hv; omega
      · simp at hv; omega
      · rw [ih hl' (by simpa using hv)]

/-- R12: `bin` undoes `val`. -/
theorem bin_val (bs : Bits) : bin bs.length (val bs) = bs :=
  bin_injective_val (by simp) (by rw [val_bin, Nat.mod_eq_of_lt (val_lt bs)])

@[simp] theorem bitsOfBytes_nil : bitsOfBytes [] = [] := rfl

@[simp] theorem bitsOfBytes_cons (b : BitVec 8) (bytes : List (BitVec 8)) :
    bitsOfBytes (b :: bytes) = bin 8 b.toNat ++ bitsOfBytes bytes := rfl

theorem bitsOfBytes_append (a b : List (BitVec 8)) : bitsOfBytes (a ++ b) = bitsOfBytes a ++ bitsOfBytes b := by
  simp [bitsOfBytes]

@[simp] theorem bitsOfBytes_length (bytes : List (BitVec 8)) : (bitsOfBytes bytes).length = 8 * bytes.length := by
  induction bytes with
  | nil => rfl
  | cons b bytes ih => simp [ih]; ring

/-- A bit string is the bytes it begins with and fewer than eight bits more. -/
theorem exists_bytes (bs : Bits) : ∃ bytes tail, bs = bitsOfBytes bytes ++ tail ∧ tail.length < 8 := by
  induction h : bs.length using Nat.strong_induction_on generalizing bs with
  | _ n ih =>
    by_cases h8 : bs.length < 8
    · exact ⟨[], bs, rfl, h8⟩
    · obtain ⟨bytes, tail, he, ht⟩ := ih (bs.drop 8).length (by simp; omega) (bs.drop 8) rfl
      refine ⟨BitVec.ofNat 8 (val (bs.take 8)) :: bytes, tail, ?_, ht⟩
      have hl : (bs.take 8).length = 8 := by simp; omega
      have hb : bin 8 (val (bs.take 8)) = bs.take 8 := by
        conv_lhs => rw [← hl]
        rw [hl]
        have := bin_val (bs.take 8)
        rwa [hl] at this
      rw [bitsOfBytes_cons, BitVec.toNat_ofNat, bin_mod, hb, List.append_assoc, ← he, List.take_append_drop]

/-! ### Streams -/

theorem State.bitsLeft_eq (s : State) : s.bitsLeft = s.unread.length := by
  simp [State.bitsLeft, State.unread]

@[simp] theorem State.seek_seek (s : State) (p q : Nat) : (s.seek p).seek q = s.seek q := rfl

@[simp] theorem State.seek_pos (s : State) : s.seek s.inp.pos = s := rfl

theorem State.unread_seek_add (s : State) (n : Nat) : (s.seek (s.inp.pos + n)).unread = s.unread.drop n := by
  simp [State.unread, List.drop_drop]

@[simp] theorem State.unread_inToEnd (s : State) : s.inToEnd.unread = [] := by
  simp [State.unread, State.inToEnd]

/-- R71: a read of `n` bits that IN still holds. -/
theorem State.readBits_of_unread {s : State} {bs x : Bits} {n : Nat} (h : s.unread = bs ++ x)
    (hl : bs.length = n) (hn : 0 < n) : s.readBits n = (some (val bs), s.seek (s.inp.pos + n)) := by
  have hlen := congrArg List.length h
  simp only [State.unread, List.length_drop, List.length_append] at hlen
  have htake : (s.inp.data.drop s.inp.pos).take n = bs := by
    rw [show s.inp.data.drop s.inp.pos = bs ++ x from h, ← hl, List.take_left]
  have hle : s.inp.pos + n ≤ s.inp.data.length := by omega
  simp [State.readBits, InStream.read, hle, htake]

/-- R71: a read of more bits than IN still holds answers END. -/
theorem State.readBits_end {s : State} {n : Nat} (h : s.unread.length < n) : s.readBits n = (none, s.inToEnd) := by
  have hle : ¬ s.inp.pos + n ≤ s.inp.data.length := by
    simp only [State.unread, List.length_drop] at h
    omega
  simp [State.readBits, InStream.read, hle, State.inToEnd]

/-- R71: the two ways a read can end. -/
theorem State.readBits_cases (s : State) {n : Nat} (hn : 0 < n) :
    (∃ bs x, s.unread = bs ++ x ∧ bs.length = n ∧ s.readBits n = (some (val bs), s.seek (s.inp.pos + n))) ∨
      (s.unread.length < n ∧ s.readBits n = (none, s.inToEnd)) := by
  by_cases h : s.unread.length < n
  · exact .inr ⟨h, State.readBits_end h⟩
  · refine .inl ⟨s.unread.take n, s.unread.drop n, (List.take_append_drop n _).symm, by simp; omega, ?_⟩
    exact State.readBits_of_unread (List.take_append_drop n _).symm (by simp; omega) hn

theorem State.readByte_of_unread {s : State} {b : BitVec 8} {x : Bits} (h : s.unread = bin 8 b.toNat ++ x) :
    s.readByte = (some b.toNat, s.seek (s.inp.pos + 8)) := by
  rw [State.readByte, State.readBits_of_unread h (by simp) (by omega), val_bin, Nat.mod_eq_of_lt b.isLt]

@[simp] theorem State.writeStr_nil (s : State) : s.writeStr [] = s := by
  simp [State.writeStr]

@[simp] theorem State.writeStr_writeStr (s : State) (a b : Bits) :
    (s.writeStr a).writeStr b = s.writeStr (a ++ b) := by
  simp [State.writeStr, List.append_assoc]

theorem State.writeStr_seek (s : State) (bs : Bits) (p : Nat) : (s.writeStr bs).seek p = (s.seek p).writeStr bs := rfl

@[simp] theorem State.writeStr_unread (s : State) (bs : Bits) : (s.writeStr bs).unread = s.unread := rfl

/-- R74: what Close appends brings OUT to a byte boundary. -/
theorem OutStream.close_length (o : OutStream) (h : o.closed = false) : 8 ∣ o.close.bits.length := by
  simp only [OutStream.close, h, OutStream.padding]
  simp
  omega

/-! ### Tables -/

theorem State.freqAt_setFreq (s : State) (i k : Nat) (w : Word) :
    (s.setFreq i w).freqAt k = if i = k ∧ i < 257 then w else s.freqAt k := by
  simp only [State.freqAt, State.setFreq, Vector.getElem?_setIfInBounds]
  by_cases h : i = k
  · subst h
    by_cases h2 : i < 257 <;> simp [h2]
  · simp [h]

@[simp] theorem State.freqAt_clearFreq (s : State) (k : Nat) : s.clearFreq.freqAt k = 0 := by
  simp only [State.freqAt, State.clearFreq, Vector.getElem?_replicate]
  split <;> rfl

theorem State.codeAt_setCode (s : State) (i k : Nat) (e : CodeEntry) :
    (s.setCode i e).codeAt k = if i = k ∧ i < 257 then e else s.codeAt k := by
  simp only [State.codeAt, State.setCode, Vector.getElem?_setIfInBounds]
  by_cases h : i = k
  · subst h
    by_cases h2 : i < 257 <;> simp [h2]
  · simp [h]

@[simp] theorem State.codeAt_dropCodes (s : State) (k : Nat) : s.dropCodes.codeAt k = CodeEntry.empty := by
  simp only [State.codeAt, State.dropCodes, Vector.getElem?_replicate]
  split <;> rfl

theorem State.nodeAt_setNode (s : State) (i : Nat) (k : NodeIdx) (n : Node) :
    (s.setNode i n).nodeAt k = if i = k.toNat ∧ i < 513 then some n else s.nodeAt k := by
  simp only [State.nodeAt, State.setNode, Vector.getElem?_setIfInBounds]
  by_cases h : i = k.toNat
  · subst h
    by_cases h2 : k.toNat < 513 <;> simp [h2]
  · simp [h]

/-- R45, R113: the code string of a table entry made from a path is the path. -/
theorem codeString_ofPath {c : Bits} (h : c.length ≤ 256) :
    bin (CodeEntry.ofPath c).len.toNat (CodeEntry.ofPath c).bits.toNat = c := by
  have h1 : (BitVec.ofNat 9 c.length).toNat = c.length := by
    simp only [BitVec.toNat_ofNat]
    omega
  have h2 : (BitVec.ofNat 256 (val c)).toNat = val c := by
    rw [BitVec.toNat_ofNat]
    exact Nat.mod_eq_of_lt (lt_of_lt_of_le (val_lt c) (Nat.pow_le_pow_right (by omega) h))
  rw [CodeEntry.ofPath, h1, h2, bin_val]

end Sys2Proof.Machine
end

