-- ==== Sys2Proof/Laws/Count.lean ====
section
/-! SUPPORT. What COUNT's loop does, in terms of the bytes that IN still holds (R130 to R133). -/

namespace Sys2Proof.Machine

/-- The counts after the bytes `bytes` have been counted. -/
def State.tally (s : State) (bytes : List (BitVec 8)) : State :=
  bytes.foldl (fun t b => t.setFreq b.toNat (t.freqAt b.toNat + 1)) s

@[simp] theorem State.tally_nil (s : State) : s.tally [] = s := rfl

theorem State.tally_cons (s : State) (b : BitVec 8) (bytes : List (BitVec 8)) :
    s.tally (b :: bytes) = (s.setFreq b.toNat (s.freqAt b.toNat + 1)).tally bytes := rfl

/-- Counting changes FREQ alone. -/
theorem State.tally_eq (s : State) (bytes : List (BitVec 8)) :
    s.tally bytes = { s with freq := (s.tally bytes).freq } := by
  induction bytes generalizing s with
  | nil => rfl
  | cons b bytes ih =>
    rw [State.tally_cons, ih]
    rfl

/-- R130: a count rises by the number of times its byte was read. -/
theorem State.freqAt_tally (s : State) (bytes : List (BitVec 8)) (i : Nat) :
    (s.tally bytes).freqAt i = s.freqAt i + BitVec.ofNat 32 ((bytes.map BitVec.toNat).count i) := by
  induction bytes generalizing s with
  | nil => simp
  | cons b bytes ih =>
    rw [State.tally_cons, ih, State.freqAt_setFreq, List.map_cons, List.count_cons]
    have hb : b.toNat < 257 := by have := b.isLt; omega
    by_cases h : b.toNat = i
    · subst h
      simp only [hb, and_self, if_true, beq_self_eq_true]
      rw [BitVec.add_assoc, BitVec.ofNat_add, BitVec.add_comm 1]
      rfl
    · simp [h]

theorem State.tally_seek (s : State) (bytes : List (BitVec 8)) (p : Nat) :
    (s.seek p).tally bytes = (s.tally bytes).seek p := by
  induction bytes generalizing s with
  | nil => rfl
  | cons b bytes ih =>
    rw [State.tally_cons, State.tally_cons, ← ih]
    rfl

/-- R130: COUNT's loop over fewer bytes than the limit. -/
theorem countLoop_of_unread {s : State} {bytes : List (BitVec 8)} {tail : Bits} {fuel n : Nat}
    (h : s.unread = bitsOfBytes bytes ++ tail) (ht : tail.length < 8) (hf : s.bitsLeft ≤ fuel)
    (hn : n + bytes.length ≤ 4294967294) : countLoop fuel n s = .ok (s.tally bytes).inToEnd := by
  induction bytes generalizing s fuel n with
  | nil =>
    cases fuel with
    | zero => rfl
    | succ fuel =>
      have : s.unread.length < 8 := by rw [h]; simpa using ht
      rw [countLoop, State.readByte, State.readBits_end this]
      rfl
  | cons b bytes ih =>
    rw [State.bitsLeft_eq, h] at hf
    simp only [List.length_append, bitsOfBytes_length, List.length_cons] at hf hn
    cases fuel with
    | zero => omega
    | succ fuel =>
      rw [bitsOfBytes_cons, List.append_assoc] at h
      have hd : (s.seek (s.inp.pos + 8)).unread = bitsOfBytes bytes ++ tail := by
        rw [State.unread_seek_add, h, List.drop_left' (by simp)]
      rw [countLoop, State.readByte_of_unread h]
      simp only
      rw [if_neg (by omega), ih (s := (s.seek (s.inp.pos + 8)).setFreq _ _) hd, State.tally_cons]
      · show Run.ok (((s.setFreq b.toNat (s.freqAt b.toNat + 1)).seek _).tally bytes).inToEnd = _
        rw [State.tally_seek]
        congr 1
      · rw [State.bitsLeft_eq]
        show (s.seek (s.inp.pos + 8)).unread.length ≤ fuel
        rw [hd]
        simp only [List.length_append, bitsOfBytes_length]
        omega
      · omega

/-- R131: COUNT's loop when it reads one byte more than the limit. -/
theorem countLoop_overflow {s : State} {bytes : List (BitVec 8)} {b : BitVec 8} {x : Bits} {fuel n : Nat}
    (h : s.unread = bitsOfBytes bytes ++ (bin 8 b.toNat ++ x)) (hf : s.bitsLeft ≤ fuel)
    (hn : n + bytes.length = 4294967294) :
    countLoop fuel n s = .raised .overflow ((s.tally bytes).seek (s.inp.pos + 8 * (bytes.length + 1))) := by
  induction bytes generalizing s fuel n with
  | nil =>
    rw [State.bitsLeft_eq, h] at hf
    simp only [bitsOfBytes_nil, List.nil_append, List.length_append, bin_length] at hf h
    cases fuel with
    | zero => omega
    | succ fuel =>
      rw [countLoop, State.readByte_of_unread h]
      simp only
      rw [if_pos (by simpa using hn)]
      rfl
  | cons c bytes ih =>
    rw [State.bitsLeft_eq, h] at hf
    simp only [List.length_append, bitsOfBytes_length, List.length_cons, bin_length] at hf hn
    cases fuel with
    | zero => omega
    | succ fuel =>
      rw [bitsOfBytes_cons, List.append_assoc] at h
      have hd : (s.seek (s.inp.pos + 8)).unread = bitsOfBytes bytes ++ (bin 8 b.toNat ++ x) := by
        rw [State.unread_seek_add, h, List.drop_left' (by simp)]
      rw [countLoop, State.readByte_of_unread h]
      simp only
      rw [if_neg (by omega), ih (s := (s.seek (s.inp.pos + 8)).setFreq _ _) hd, State.tally_cons]
      · show Run.raised _ ((((s.setFreq c.toNat (s.freqAt c.toNat + 1)).seek _).tally bytes).seek _) = _
        rw [State.tally_seek]
        simp only [State.setFreq_inp, State.seek_inp, State.seek_seek, List.length_cons]
        congr 2
        omega
      · rw [State.bitsLeft_eq]
        show (s.seek (s.inp.pos + 8)).unread.length ≤ fuel
        rw [hd]
        simp only [List.length_append, bitsOfBytes_length, bin_length]
        omega
      · omega

/-- Everything COUNT's loop can change: FREQ and IN.pos. -/
theorem countLoop_frame (fuel n : Nat) (s : State) :
    ∃ freq pos, (countLoop fuel n s = .ok ({ s with freq := freq }.seek pos)) ∨
      (countLoop fuel n s = .raised .overflow ({ s with freq := freq }.seek pos)) := by
  induction fuel generalizing n s with
  | zero => exact ⟨s.freq, s.inp.data.length, .inl rfl⟩
  | succ fuel ih =>
    rw [countLoop]
    rcases s.readBits_cases (n := 8) (by omega) with ⟨bs, x, -, -, hr⟩ | ⟨-, hr⟩
    · rw [State.readByte, hr]
      simp only
      split
      · exact ⟨s.freq, _, .inr rfl⟩
      · obtain ⟨f, p, h⟩ := ih (n + 1) (((s.seek (s.inp.pos + 8)).setFreq (val bs)
          ((s.seek (s.inp.pos + 8)).freqAt (val bs) + 1)))
        exact ⟨f, p, h⟩
    · rw [State.readByte, hr]
      exact ⟨s.freq, s.inp.data.length, .inl rfl⟩

end Sys2Proof.Machine
end

