-- ==== Sys2Proof/Laws/Trees.lean ====
section
/-! SUPPORT. Trees, and what the walks over the arena do in terms of the tree it holds: GEN_CODES's Visit (R150),
WRITE_HEADER's Emit (R160) and READ_HEADER's Parse (R166). -/

namespace Sys2Proof.Machine

/-! ### Sizes (R8) -/

theorem HTree.leaves_pos (t : HTree) : 0 < t.leaves := by
  induction t with
  | leaf => simp [HTree.leaves]
  | node w l r ihl ihr => simp only [HTree.leaves]; omega

theorem HTree.size_eq (t : HTree) : t.size + 1 = 2 * t.leaves := by
  induction t with
  | leaf => rfl
  | node w l r ihl ihr => simp only [HTree.size, HTree.leaves]; omega

theorem HTree.size_pos (t : HTree) : 0 < t.size := by
  cases t <;> simp only [HTree.size] <;> omega

theorem HTree.depth_lt_leaves (t : HTree) : t.depth < t.leaves := by
  induction t with
  | leaf => simp [HTree.depth, HTree.leaves]
  | node w l r ihl ihr =>
    have := l.leaves_pos
    have := r.leaves_pos
    simp only [HTree.depth, HTree.leaves]
    omega

theorem HTree.depth_lt_size (t : HTree) : t.depth < t.size := by
  have := t.size_eq
  have := t.depth_lt_leaves
  have := t.leaves_pos
  omega

@[simp] theorem HTree.paths_length (t : HTree) : t.paths.length = t.leaves := by
  induction t with
  | leaf => rfl
  | node w l r ihl ihr => simp [HTree.paths, HTree.leaves, ihl, ihr]

@[simp] theorem HTree.symbols_leaf (sym : Sym) (w : Word) : (HTree.leaf sym w).symbols = [sym] := rfl

@[simp] theorem HTree.symbols_node (w : Word) (l r : HTree) :
    (HTree.node w l r).symbols = l.symbols ++ r.symbols := by
  simp [HTree.symbols, HTree.paths, Function.comp_def]

@[simp] theorem HTree.symbols_length (t : HTree) : t.symbols.length = t.leaves := by
  simp [HTree.symbols]

theorem HTree.path_length_le {t : HTree} {p : Sym × Bits} (h : p ∈ t.paths) : p.2.length ≤ t.depth := by
  induction t generalizing p with
  | leaf => simp_all [HTree.paths]
  | node w l r ihl ihr =>
    simp only [HTree.paths, List.mem_append, List.mem_map] at h
    simp only [HTree.depth]
    rcases h with ⟨q, hq, rfl⟩ | ⟨q, hq, rfl⟩
    · have := ihl hq
      simp only [List.length_cons]
      omega
    · have := ihr hq
      simp only [List.length_cons]
      omega

/-- The depth is reached by some leaf. -/
theorem HTree.exists_deepest (t : HTree) : ∃ p ∈ t.paths, p.2.length = t.depth := by
  induction t with
  | leaf sym w => exact ⟨(sym, []), by simp [HTree.paths], rfl⟩
  | node w l r ihl ihr =>
    obtain ⟨p, hp, hpl⟩ := ihl
    obtain ⟨q, hq, hql⟩ := ihr
    by_cases h : l.depth ≤ r.depth
    · refine ⟨(q.1, true :: q.2), ?_, by simp [HTree.depth, hql]; omega⟩
      simp only [HTree.paths, List.mem_append, List.mem_map]
      exact .inr ⟨q, hq, rfl⟩
    · refine ⟨(p.1, false :: p.2), ?_, by simp [HTree.depth, hpl]; omega⟩
      simp only [HTree.paths, List.mem_append, List.mem_map]
      exact .inl ⟨p, hp, rfl⟩

/-- R109. -/
theorem HTree.header_length (t : HTree) : t.header.length + 1 = 11 * t.leaves := by
  induction t with
  | leaf => simp [HTree.header, HTree.leaves]
  | node w l r ihl ihr => simp only [HTree.header, HTree.leaves, List.length_cons, List.length_append]; omega

@[simp] theorem HTree.unweighted_paths (t : HTree) : t.unweighted.paths = t.paths := by
  induction t with
  | leaf => rfl
  | node w l r ihl ihr => simp [HTree.unweighted, HTree.paths, ihl, ihr]

@[simp] theorem HTree.unweighted_symbols (t : HTree) : t.unweighted.symbols = t.symbols := by
  simp [HTree.symbols]

@[simp] theorem HTree.unweighted_size (t : HTree) : t.unweighted.size = t.size := by
  induction t with
  | leaf => rfl
  | node w l r ihl ihr => simp [HTree.unweighted, HTree.size, ihl, ihr]

@[simp] theorem HTree.unweighted_leaves (t : HTree) : t.unweighted.leaves = t.leaves := by
  simp [← HTree.paths_length]

@[simp] theorem HTree.unweighted_header (t : HTree) : t.unweighted.header = t.header := by
  induction t with
  | leaf => rfl
  | node w l r ihl ihr => simp [HTree.unweighted, HTree.header, ihl, ihr]

theorem HTree.symbolsLegal_node {w : Word} {l r : HTree} :
    (HTree.node w l r).symbolsLegal ↔ l.symbolsLegal ∧ r.symbolsLegal := by
  simp [HTree.symbolsLegal, or_imp, forall_and]

/-! ### Spells -/

/-- What the arena spells depends on its entries alone. -/
theorem State.spells_congr {s s' : State} (h : s.node = s'.node) (t : HTree) (i : NodeIdx) :
    s.Spells t i ↔ s'.Spells t i := by
  have hn : ∀ k, s.nodeAt k = s'.nodeAt k := fun k => by simp [State.nodeAt, h]
  induction t generalizing i with
  | leaf sym w => simp [State.Spells, hn]
  | node w l r ihl ihr => simp [State.Spells, hn, ihl, ihr]

/-- The arena spells at most one tree at an index. -/
theorem State.spells_unique {s : State} {t t' : HTree} {i : NodeIdx} (h : s.Spells t i) (h' : s.Spells t' i) :
    t = t' := by
  induction t generalizing t' i with
  | leaf sym w =>
    simp only [State.Spells] at h
    cases t' with
    | leaf sym' w' =>
      simp only [State.Spells] at h'
      rw [h] at h'
      simp_all
    | node w' l' r' =>
      obtain ⟨a, b, h1, -, -⟩ := h'
      rw [h] at h1
      simp at h1
  | node w l r ihl ihr =>
    obtain ⟨a, b, h1, h2, h3⟩ := h
    cases t' with
    | leaf sym' w' =>
      simp only [State.Spells] at h'
      rw [h1] at h'
      simp at h'
    | node w' l' r' =>
      obtain ⟨a', b', h1', h2', h3'⟩ := h'
      rw [h1] at h1'
      simp only [Option.some.injEq, Node.internal.injEq] at h1'
      obtain ⟨rfl, rfl, rfl⟩ := h1'
      rw [ihl h2 h2', ihr h3 h3']

/-! ### Visit -/

/-- The code assignments of GEN_CODES, leaf by leaf. -/
def assignAll : List (Sym × Bits) → State → Run
  | [], s => .ok s
  | p :: ps, s =>
    if (s.codeAt p.1.toNat).present then .raised .dupSymbol s
    else assignAll ps (s.setCode p.1.toNat (CodeEntry.ofPath p.2))

theorem assignAll_append (a b : List (Sym × Bits)) (s : State) :
    assignAll (a ++ b) s = (assignAll a s).andThen (assignAll b) := by
  induction a generalizing s with
  | nil => rfl
  | cons p a ih =>
    simp only [List.cons_append, assignAll]
    split
    · rfl
    · exact ih _

/-- Assigning codes changes the code table alone. -/
theorem assignAll_frame (ps : List (Sym × Bits)) (s : State) :
    ∃ code, assignAll ps s = .ok { s with code := code } ∨
      assignAll ps s = .raised .dupSymbol { s with code := code } := by
  induction ps generalizing s with
  | nil => exact ⟨s.code, .inl rfl⟩
  | cons p ps ih =>
    rw [assignAll]
    split
    · exact ⟨s.code, .inr rfl⟩
    · obtain ⟨c, h⟩ := ih (s.setCode p.1.toNat (CodeEntry.ofPath p.2))
      exact ⟨c, h⟩

/-- R150: Visit assigns the codes of the tree that the arena holds, in pre-order. -/
theorem visit_eq {t : HTree} {room : Nat} {i : NodeIdx} {c : Bits} {s : State} (h : s.Spells t i)
    (hd : t.depth < room) : visit room i c s = assignAll (t.paths.map fun p => (p.1, c ++ p.2)) s := by
  induction t generalizing room i c s with
  | leaf sym w =>
    cases room with
    | zero => simp [HTree.depth] at hd
    | succ room =>
      rw [visit, show s.nodeAt i = _ from h]
      simp [HTree.paths, assignAll]
  | node w l r ihl ihr =>
    cases room with
    | zero => simp at hd
    | succ room =>
      simp only [HTree.depth] at hd
      obtain ⟨a, b, hn, hl, hr⟩ := h
      rw [visit, hn]
      simp only
      rw [ihl hl (by omega)]
      have : (HTree.node w l r).paths.map (fun p => (p.1, c ++ p.2)) =
          (l.paths.map fun p => (p.1, (c ++ [false]) ++ p.2)) ++ r.paths.map fun p => (p.1, (c ++ [true]) ++ p.2) := by
        simp [HTree.paths, Function.comp_def]
      rw [this, assignAll_append]
      obtain ⟨code, hc | hc⟩ := assignAll_frame (l.paths.map fun p => (p.1, (c ++ [false]) ++ p.2)) s
      · rw [hc]
        exact ihr ((State.spells_congr (by rfl) r b).1 hr) (by omega)
      · rw [hc]
        rfl

/-- Distinct legal symbols without a code get their codes. -/
theorem assignAll_ok {ps : List (Sym × Bits)} {s : State} (hn : (ps.map Prod.fst).Nodup)
    (hl : ∀ p ∈ ps, p.1.toNat ≤ 256) (hp : ∀ p ∈ ps, (s.codeAt p.1.toNat).present = false) :
    ∃ code, assignAll ps s = .ok { s with code := code } ∧
      (∀ p ∈ ps, ({ s with code := code } : State).codeAt p.1.toNat = CodeEntry.ofPath p.2) ∧
      ∀ i, i ∉ ps.map (fun p => p.1.toNat) → ({ s with code := code } : State).codeAt i = s.codeAt i := by
  induction ps generalizing s with
  | nil => exact ⟨s.code, rfl, by simp, fun _ _ => rfl⟩
  | cons p ps ih =>
    simp only [List.map_cons, List.nodup_cons, List.mem_map, not_exists, not_and] at hn
    have hne : ∀ q ∈ ps, p.1.toNat ≠ q.1.toNat := fun q hq he =>
      hn.1 q hq (BitVec.eq_of_toNat_eq he.symm)
    obtain ⟨code, h1, h2, h3⟩ := ih (s := s.setCode p.1.toNat (CodeEntry.ofPath p.2)) hn.2
      (fun q hq => hl q (List.mem_cons_of_mem _ hq))
      (fun q hq => by
        rw [State.codeAt_setCode, if_neg (fun h => hne q hq h.1)]
        exact hp q (List.mem_cons_of_mem _ hq))
    have hself : ({ s with code := code } : State).codeAt p.1.toNat = CodeEntry.ofPath p.2 := by
      have := h3 p.1.toNat (by
        simp only [List.mem_map, not_exists, not_and]
        exact fun q hq he => hne q hq he.symm)
      rw [State.codeAt_setCode, if_pos ⟨rfl, by have := hl p (by simp); omega⟩] at this
      exact this
    refine ⟨code, ?_, ?_, ?_⟩
    · rw [assignAll, hp p (by simp)]
      simpa using h1
    · intro q hq
      rcases List.mem_cons.1 hq with rfl | hq
      · exact hself
      · exact h2 q hq
    · intro i hi
      simp only [List.map_cons, List.mem_cons, not_or] at hi
      have := h3 i hi.2
      rw [State.codeAt_setCode, if_neg (fun h => hi.1 h.1.symm)] at this
      exact this

/-- A symbol that has a code already, or comes twice, is an error. -/
theorem assignAll_dup {ps : List (Sym × Bits)} {s : State} (hl : ∀ p ∈ ps, p.1.toNat ≤ 256)
    (hd : ¬(ps.map Prod.fst).Nodup ∨ ∃ p ∈ ps, (s.codeAt p.1.toNat).present = true) :
    ∃ code, assignAll ps s = .raised .dupSymbol { s with code := code } := by
  induction ps generalizing s with
  | nil => simp at hd
  | cons p ps ih =>
    rw [assignAll]
    by_cases hp : (s.codeAt p.1.toNat).present = true
    · exact ⟨s.code, by simp [hp]⟩
    · have hset : ∀ q ∈ ps, ((s.setCode p.1.toNat (CodeEntry.ofPath p.2)).codeAt q.1.toNat).present =
          (decide (p.1.toNat = q.1.toNat) || (s.codeAt q.1.toNat).present) := by
        intro q hq
        have := hl p (by simp)
        rw [State.codeAt_setCode]
        by_cases he : p.1.toNat = q.1.toNat
        · rw [if_pos ⟨he, by omega⟩]
          simp [CodeEntry.ofPath, he]
        · simp [he]
      obtain ⟨code, h⟩ := ih (s := s.setCode p.1.toNat (CodeEntry.ofPath p.2))
        (fun q hq => hl q (List.mem_cons_of_mem _ hq)) (by
          rcases hd with hd | ⟨q, hq, hqp⟩
          · simp only [List.map_cons, List.nodup_cons, not_and_or, not_not, List.mem_map] at hd
            rcases hd with ⟨q, hq, he⟩ | hd
            · exact .inr ⟨q, hq, by rw [hset q hq]; simp [he]⟩
            · exact .inl hd
          · rcases List.mem_cons.1 hq with rfl | hq
            · exact absurd hqp hp
            · exact .inr ⟨q, hq, by rw [hset q hq]; simp [hqp]⟩)
      exact ⟨code, by simpa [hp] using h⟩

/-! ### Emit -/

/-- R160: Emit writes the header of the tree that the arena holds. -/
theorem emit_eq {t : HTree} {room : Nat} {i : NodeIdx} {s : State} (h : s.Spells t i) (hd : t.depth < room) :
    emit room i s = .ok (s.writeStr t.header) := by
  induction t generalizing room i s with
  | leaf sym w =>
    cases room with
    | zero => simp [HTree.depth] at hd
    | succ room =>
      rw [emit, show s.nodeAt i = _ from h]
      simp [State.writeLeafRecord, State.writeBits, HTree.header, bin]
  | node w l r ihl ihr =>
    cases room with
    | zero => simp at hd
    | succ room =>
      simp only [HTree.depth] at hd
      obtain ⟨a, b, hn, hl, hr⟩ := h
      rw [emit, hn]
      simp only
      rw [ihl ((State.spells_congr (by rfl) l a).1 hl) (by omega)]
      simp only [Run.ok_andThen]
      rw [ihr ((State.spells_congr (by rfl) r b).1 hr) (by omega)]
      simp [State.writeInternalTag, State.writeBits, HTree.header, bin]

end Sys2Proof.Machine
end

