-- ==== Sys2Proof/Laws/Header.lean ====
section
/-! SUPPORT. What READ_HEADER's Parse does (R166 to R171): what it writes is a function of the tree whose header stands in
IN. -/

namespace Sys2Proof.Machine

/-! ### The arena that Parse writes -/

/-- The entries that Parse writes for a tree whose root has index `n`, in pre-order and with weight 0. -/
def State.place : HTree → Nat → State → State
  | .leaf sym _, n, s => s.setNode n (.leaf sym 0)
  | .node _ l r, n, s =>
    (State.place r (n + 1 + l.size) (State.place l (n + 1) s)).setNode n
      (.internal 0 (BitVec.ofNat 10 (n + 1)) (BitVec.ofNat 10 (n + 1 + l.size)))

/-- Placing a tree changes NODE alone. -/
theorem State.place_eq (t : HTree) (n : Nat) (s : State) :
    State.place t n s = { s with node := (State.place t n s).node } := by
  induction t generalizing n s with
  | leaf => rfl
  | node w l r ihl ihr =>
    simp only [State.place]
    rw [ihr, ihl]
    rfl

theorem State.place_seek (t : HTree) (n : Nat) (s : State) (p : Nat) :
    State.place t n (s.seek p) = (State.place t n s).seek p := by
  induction t generalizing n s with
  | leaf => rfl
  | node w l r ihl ihr =>
    simp only [State.place, ihl, ihr]
    rfl

theorem State.place_inp (t : HTree) (n : Nat) (s : State) : (State.place t n s).inp = s.inp := by
  rw [State.place_eq]

/-- Placing a tree writes only the entries of its own index range. -/
theorem State.nodeAt_place {t : HTree} {n : Nat} {s : State} {k : NodeIdx} (h : k.toNat < n ∨ n + t.size ≤ k.toNat) :
    (State.place t n s).nodeAt k = s.nodeAt k := by
  induction t generalizing n s with
  | leaf sym w =>
    simp only [HTree.size] at h
    rw [State.place, State.nodeAt_setNode, if_neg (by omega)]
  | node w l r ihl ihr =>
    simp only [HTree.size] at h
    rw [State.place, State.nodeAt_setNode, if_neg (by omega), ihr (by omega), ihl (by omega)]

theorem toNat_ofNat_idx {n : Nat} (h : n < 1024) : (BitVec.ofNat 10 n).toNat = n := by
  rw [BitVec.toNat_ofNat]
  exact Nat.mod_eq_of_lt h

/-- R168, R171: a state whose entries in the range are those that Parse writes spells the tree with weights 0. -/
theorem State.spells_place {t : HTree} {n : Nat} {s s' : State} (hn : n + t.size ≤ 513)
    (h : ∀ k : NodeIdx, n ≤ k.toNat → k.toNat < n + t.size → s'.nodeAt k = (State.place t n s).nodeAt k) :
    s'.Spells t.unweighted (BitVec.ofNat 10 n) := by
  induction t generalizing n s with
  | leaf sym w =>
    simp only [HTree.size] at hn h
    have hk := toNat_ofNat_idx (n := n) (by omega)
    rw [HTree.unweighted, State.Spells, h _ (by omega) (by omega), State.place, State.nodeAt_setNode, hk,
      if_pos ⟨rfl, by omega⟩]
  | node w l r ihl ihr =>
    simp only [HTree.size] at hn h
    have hk := toNat_ofNat_idx (n := n) (by omega)
    refine ⟨BitVec.ofNat 10 (n + 1), BitVec.ofNat 10 (n + 1 + l.size), ?_, ?_, ?_⟩
    · rw [h _ (by omega) (by omega), State.place, State.nodeAt_setNode, hk, if_pos ⟨rfl, by omega⟩]
    · refine ihl (s := s) (by omega) fun k h1 h2 => ?_
      rw [h k (by omega) (by omega), State.place, State.nodeAt_setNode, if_neg (by omega),
        State.nodeAt_place (by omega)]
    · refine ihr (s := State.place l (n + 1) s) (by omega) fun k h1 h2 => ?_
      rw [h k (by omega) (by omega), State.place, State.nodeAt_setNode, if_neg (by omega)]

/-- R168: a placed entry is a leaf of weight 0, or an internal node of weight 0 whose left subtree comes next and whose right
child comes just after it. -/
theorem State.nodeAt_place_inside {t : HTree} {n : Nat} {s s' : State} {k : Nat} (hn : n + t.size ≤ 513)
    (h : ∀ k : NodeIdx, n ≤ k.toNat → k.toNat < n + t.size → s'.nodeAt k = (State.place t n s).nodeAt k) (h1 : n ≤ k)
    (h2 : k < n + t.size) :
    (∃ sym, s'.nodeAt (BitVec.ofNat 10 k) = some (.leaf sym 0)) ∨
      ∃ left : HTree, s'.Spells left (BitVec.ofNat 10 (k + 1)) ∧ k + 1 + left.size < n + t.size ∧
        s'.nodeAt (BitVec.ofNat 10 k) =
          some (.internal 0 (BitVec.ofNat 10 (k + 1)) (BitVec.ofNat 10 (k + 1 + left.size))) := by
  have hk := toNat_ofNat_idx (n := k) (by omega)
  induction t generalizing n s with
  | leaf sym w =>
    simp only [HTree.size] at hn h h2
    rw [h _ (by omega) (by omega), State.place, State.nodeAt_setNode, hk, if_pos ⟨by omega, by omega⟩]
    exact .inl ⟨sym, rfl⟩
  | node w l r ihl ihr =>
    simp only [HTree.size] at hn h h2 ⊢
    have hl : ∀ k : NodeIdx, n + 1 ≤ k.toNat → k.toNat < n + 1 + l.size →
        s'.nodeAt k = (State.place l (n + 1) s).nodeAt k := fun k h1 h2 => by
      rw [h k (by omega) (by omega), State.place, State.nodeAt_setNode, if_neg (by omega),
        State.nodeAt_place (by omega)]
    by_cases hkn : n = k
    · subst hkn
      have := r.size_pos
      refine .inr ⟨l.unweighted, State.spells_place (by omega) hl, by rw [HTree.unweighted_size]; omega, ?_⟩
      rw [h _ (by omega) (by omega), State.place, State.nodeAt_setNode, hk, if_pos ⟨rfl, by omega⟩,
        HTree.unweighted_size]
    · by_cases hkl : k < n + 1 + l.size
      · rcases ihl (by omega) hl (by omega) (by omega) with h | ⟨left, h3, h4, h5⟩
        · exact .inl h
        · exact .inr ⟨left, h3, by omega, h5⟩
      · have hr : ∀ k : NodeIdx, n + 1 + l.size ≤ k.toNat → k.toNat < n + 1 + l.size + r.size →
            s'.nodeAt k = (State.place r (n + 1 + l.size) (State.place l (n + 1) s)).nodeAt k := fun k h1 h2 => by
          rw [h k (by omega) (by omega), State.place, State.nodeAt_setNode, if_neg (by omega)]
        rcases ihr (by omega) hr (by omega) (by omega) with h | ⟨left, h3, h4, h5⟩
        · exact .inl h
        · exact .inr ⟨left, h3, by omega, h5⟩

/-- R168: every placed entry but the first is the child of exactly one placed entry. -/
theorem State.kids_place {t : HTree} {n : Nat} {s s' : State} (hn : n + t.size ≤ 513)
    (h : ∀ k : NodeIdx, n ≤ k.toNat → k.toNat < n + t.size → s'.nodeAt k = (State.place t n s).nodeAt k) :
    (n :: (List.range' n t.size).flatMap s'.kids).Perm (List.range' n t.size) := by
  induction t generalizing n s with
  | leaf sym w =>
    simp only [HTree.size] at hn h
    have hk := toNat_ofNat_idx (n := n) (by omega)
    have : s'.kids n = [] := by
      rw [State.kids, h _ (by omega) (by omega), State.place, State.nodeAt_setNode, hk, if_pos ⟨rfl, by omega⟩]
    simp [HTree.size, this]
  | node w l r ihl ihr =>
    simp only [HTree.size] at hn h
    have hk := toNat_ofNat_idx (n := n) (by omega)
    have hkids : s'.kids n = [n + 1, n + 1 + l.size] := by
      rw [State.kids, h _ (by omega) (by omega), State.place, State.nodeAt_setNode, hk, if_pos ⟨rfl, by omega⟩]
      simp only
      rw [toNat_ofNat_idx (by omega), toNat_ofNat_idx (by omega)]
    have hl := ihl (n := n + 1) (s := s) (by omega) fun k h1 h2 => by
      rw [h k (by omega) (by omega), State.place, State.nodeAt_setNode, if_neg (by omega),
        State.nodeAt_place (by omega)]
    have hr := ihr (n := n + 1 + l.size) (s := State.place l (n + 1) s) (by omega) fun k h1 h2 => by
      rw [h k (by omega) (by omega), State.place, State.nodeAt_setNode, if_neg (by omega)]
    have hsplit : List.range' n (HTree.node w l r).size =
        n :: (List.range' (n + 1) l.size ++ List.range' (n + 1 + l.size) r.size) := by
      rw [HTree.size, show 1 + l.size + r.size = l.size + r.size + 1 by omega, List.range'_succ, List.range'_append_1]
    rw [hsplit]
    refine List.Perm.cons n ?_
    rw [List.flatMap_cons, List.flatMap_append, hkids]
    refine List.Perm.trans ?_ (hl.append hr)
    simp only [List.cons_append, List.nil_append]
    exact List.Perm.cons _ (List.perm_middle.symm)

/-! ### Parse -/

/-- R107: what a tag bit reads as. -/
theorem State.readBit_of_unread {s : State} {b : Bool} {x : Bits} (h : s.unread = b :: x) :
    s.readBit = (some b.toNat, s.seek (s.inp.pos + 1)) := by
  have := State.readBits_of_unread (n := 1) (bs := [b]) (x := x) h rfl (by omega)
  rw [State.readBit, this, val_cons]
  simp

theorem State.readSym_of_unread {s : State} {sym : Sym} {x : Bits} (h : s.unread = bin 9 sym.toNat ++ x) :
    s.readSym = (some sym.toNat, s.seek (s.inp.pos + 9)) := by
  rw [State.readSym, State.readBits_of_unread h (by simp) (by omega), val_bin, Nat.mod_eq_of_lt sym.isLt]

/-- R166, R171: Parse of a header that fits. -/
theorem parse_ok {t : HTree} {depth n leaves : Nat} {s : State} {x : Bits} (h : s.unread = t.header ++ x)
    (hn : n + t.size ≤ 513) (hl : t.symbolsLegal) (hd : t.depth < depth) :
    parse depth n leaves s =
      .ok n (n + t.size) (leaves + t.leaves) ((State.place t n s).seek (s.inp.pos + t.header.length)) := by
  induction t generalizing depth n leaves s x with
  | leaf sym w =>
    cases depth with
    | zero => simp [HTree.depth] at hd
    | succ depth =>
      simp only [HTree.size] at hn
      have hsym : sym.toNat ≤ 256 := hl sym (by simp)
      rw [HTree.header, List.cons_append] at h
      have h2 : (s.seek (s.inp.pos + 1)).unread = bin 9 sym.toNat ++ x := by
        rw [State.unread_seek_add, h]
        rfl
      rw [parse, State.readBit_of_unread h]
      simp only [Bool.toNat_true, if_true]
      rw [if_neg (by show n ≠ 513; omega), parseLeaf, State.readSym_of_unread h2]
      have hwf : symWf sym.toNat = true := by simpa [symWf] using hsym
      simp only [hwf, if_true]
      simp only [HTree.size, HTree.leaves, State.place, HTree.header, List.length_cons, bin_length,
        BitVec.ofNat_toNat, BitVec.setWidth_eq]
      rfl
  | node w l r ihl ihr =>
    cases depth with
    | zero => simp at hd
    | succ depth =>
      simp only [HTree.size] at hn
      simp only [HTree.depth] at hd
      rw [HTree.symbolsLegal_node] at hl
      rw [HTree.header, List.cons_append, List.append_assoc] at h
      have h2 : (s.seek (s.inp.pos + 1)).unread = l.header ++ (r.header ++ x) := by
        rw [State.unread_seek_add, h]
        rfl
      rw [parse, State.readBit_of_unread h]
      simp only [Bool.toNat_false, if_false, Nat.zero_ne_one]
      rw [if_neg (by show n ≠ 513; omega), ihl h2 (by omega) hl.1 (by omega)]
      simp only [Parse.ok_andThen]
      have h3 : ((State.place l (n + 1) (s.seek (s.inp.pos + 1))).seek
          ((s.seek (s.inp.pos + 1)).inp.pos + l.header.length)).unread = r.header ++ x := by
        have : ((s.seek (s.inp.pos + 1)).seek ((s.seek (s.inp.pos + 1)).inp.pos + l.header.length)).unread =
            r.header ++ x := by
          rw [State.unread_seek_add, h2, List.drop_left]
        simpa [State.unread, State.place_inp] using this
      rw [ihr h3 (by omega) hl.2 (by omega)]
      simp only [Parse.ok_andThen, HTree.size, HTree.leaves, HTree.header, State.place, List.length_cons,
        List.length_append]
      simp only [State.place_seek, State.seek_seek, State.seek_inp, State.place_inp]
      rw [show n + (1 + l.size + r.size) = n + 1 + l.size + r.size by omega,
        show leaves + (l.leaves + r.leaves) = leaves + l.leaves + r.leaves by omega,
        show s.inp.pos + (l.header.length + r.header.length + 1) =
          s.inp.pos + 1 + l.header.length + r.header.length by omega]
      rfl

/-- R170: Parse of a header that ends before its tree is complete. -/
theorem parse_trunc {t : HTree} {depth n leaves : Nat} {s : State} {y : Bits} (h : t.header = s.unread ++ y)
    (hy : y ≠ []) (hn : n + t.size ≤ 513) (hl : t.symbolsLegal) (hd : t.depth < depth) :
    ∃ node, parse depth n leaves s = .raised .truncHeader ({ s with node := node } : State).inToEnd := by
  induction t generalizing depth n leaves s y with
  | leaf sym w =>
    cases depth with
    | zero => simp [HTree.depth] at hd
    | succ depth =>
      simp only [HTree.size] at hn
      rw [parse]
      cases hu : s.unread with
      | nil =>
        rw [State.readBit, State.readBits_end (by rw [hu]; simp)]
        exact ⟨s.node, rfl⟩
      | cons b x =>
        rw [hu, HTree.header, List.cons_append, List.cons.injEq] at h
        obtain ⟨rfl, h⟩ := h
        rw [State.readBit_of_unread hu]
        simp only [Bool.toNat_true, if_true]
        have hx : (s.seek (s.inp.pos + 1)).unread = x := by
          rw [State.unread_seek_add, hu]
          rfl
        have hlen := congrArg List.length h
        have hpos := List.length_pos_iff.2 hy
        simp only [bin_length, List.length_append] at hlen
        rw [if_neg (by show n ≠ 513; omega), parseLeaf, State.readSym, State.readBits_end (by rw [hx]; omega)]
        exact ⟨s.node, rfl⟩
  | node w l r ihl ihr =>
    cases depth with
    | zero => simp at hd
    | succ depth =>
      simp only [HTree.size] at hn
      simp only [HTree.depth] at hd
      rw [HTree.symbolsLegal_node] at hl
      rw [parse]
      cases hu : s.unread with
      | nil =>
        rw [State.readBit, State.readBits_end (by rw [hu]; simp)]
        exact ⟨s.node, rfl⟩
      | cons b x =>
        rw [hu, HTree.header, List.cons_append, List.cons.injEq] at h
        obtain ⟨rfl, h⟩ := h
        rw [State.readBit_of_unread hu]
        simp only [Bool.toNat_false, if_false, Nat.zero_ne_one]
        have hx : (s.seek (s.inp.pos + 1)).unread = x := by
          rw [State.unread_seek_add, hu]
          rfl
        rw [if_neg (by show n ≠ 513; omega)]
        rcases List.append_eq_append_iff.1 h with ⟨z, hz, hr⟩ | ⟨z, hz, hr⟩
        · rw [parse_ok (t := l) (x := z) (by rw [hx, hz]) (by omega) hl.1 (by omega)]
          have h3 : ((State.place l (n + 1) (s.seek (s.inp.pos + 1))).seek
              ((s.seek (s.inp.pos + 1)).inp.pos + l.header.length)).unread = z := by
            have : ((s.seek (s.inp.pos + 1)).seek ((s.seek (s.inp.pos + 1)).inp.pos + l.header.length)).unread = z := by
              rw [State.unread_seek_add, hx, hz, List.drop_left]
            simpa [State.unread, State.place_inp] using this
          obtain ⟨node, hp⟩ := ihr (depth := depth) (n := n + 1 + l.size) (leaves := leaves + l.leaves) (y := y)
            (by rw [h3]; exact hr) hy (by omega) hl.2 (by omega)
          rw [Parse.ok_andThen, hp, State.place_eq]
          exact ⟨node, rfl⟩
        · by_cases hz0 : z = []
          · subst hz0
            rw [List.append_nil] at hz
            rw [List.nil_append] at hr
            rw [parse_ok (t := l) (x := []) (by rw [hx, List.append_nil]; exact hz.symm) (by omega) hl.1 (by omega)]
            have h3 : ((State.place l (n + 1) (s.seek (s.inp.pos + 1))).seek
                ((s.seek (s.inp.pos + 1)).inp.pos + l.header.length)).unread = [] := by
              have : ((s.seek (s.inp.pos + 1)).seek ((s.seek (s.inp.pos + 1)).inp.pos + l.header.length)).unread =
                  [] := by
                rw [State.unread_seek_add, hx, ← hz, List.drop_length]
              simpa [State.unread, State.place_inp] using this
            obtain ⟨node, hp⟩ := ihr (depth := depth) (n := n + 1 + l.size) (leaves := leaves + l.leaves) (y := y)
              (by rw [h3]; exact hr.symm) hy (by omega) hl.2 (by omega)
            rw [Parse.ok_andThen, hp, State.place_eq]
            exact ⟨node, rfl⟩
          · obtain ⟨node, hp⟩ := ihl (depth := depth) (n := n + 1) (leaves := leaves) (y := z)
              (s := s.seek (s.inp.pos + 1)) (by rw [hx]; exact hz) hz0 (by omega) hl.1 (by omega)
            rw [hp]
            exact ⟨node, rfl⟩

/-! ### Headers that do not complete a tree -/

/-- The records of a tree's header. -/
def HTree.records : HTree → List HeaderRecord
  | .leaf sym _ => [.leaf sym]
  | .node _ l r => .internal :: (l.records ++ r.records)

@[simp] theorem HTree.records_length (t : HTree) : t.records.length = t.size := by
  induction t with
  | leaf => rfl
  | node w l r ihl ihr => simp only [HTree.records, HTree.size, List.length_cons, List.length_append, ihl, ihr]; omega

@[simp] theorem headerBits_append (rs rs' : List HeaderRecord) : headerBits (rs ++ rs') = headerBits rs ++ headerBits rs' :=
  List.flatMap_append

@[simp] theorem headerBits_cons (r : HeaderRecord) (rs : List HeaderRecord) :
    headerBits (r :: rs) = r.bits ++ headerBits rs := rfl

@[simp] theorem HTree.headerBits_records (t : HTree) : headerBits t.records = t.header := by
  induction t with
  | leaf => simp [HTree.records, headerBits, HeaderRecord.bits, HTree.header]
  | node w l r ihl ihr => simp [HTree.records, HeaderRecord.bits, HTree.header, ihl, ihr]

theorem HTree.symbolsLegal_of_records {t : HTree} (h : ∀ r ∈ t.records, r.legal = true) : t.symbolsLegal := by
  induction t with
  | leaf sym w =>
    intro x hx
    have := h (.leaf sym) (by simp [HTree.records])
    simp only [HTree.symbols_leaf, List.mem_singleton] at hx
    subst hx
    simpa [HeaderRecord.legal] using this
  | node w l r ihl ihr =>
    simp only [HTree.records, List.mem_cons, List.mem_append] at h
    exact HTree.symbolsLegal_node.2 ⟨ihl fun r hr => h r (.inr (.inl hr)), ihr fun r hr => h r (.inr (.inr hr))⟩

theorem openHeader_mono {rs : List HeaderRecord} {j k : Nat} (h : openHeader j rs = true) (hjk : j ≤ k) :
    openHeader k rs = true := by
  induction rs generalizing j k with
  | nil => simp [openHeader] at h ⊢; omega
  | cons r rs ih =>
    obtain ⟨j, rfl⟩ : ∃ j', j = j' + 1 := ⟨j - 1, by rcases j with - | j <;> [simp [openHeader] at h; simp]⟩
    obtain ⟨k, rfl⟩ : ∃ k', k = k' + 1 := ⟨k - 1, by omega⟩
    cases r with
    | internal => exact ih (j := j + 2) (by simpa [openHeader] using h) (by omega)
    | leaf sym => exact ih (j := j) (by simpa [openHeader] using h) (by omega)

/-- A tree's records complete one subtree. -/
@[simp] theorem openHeader_records (t : HTree) (k : Nat) (rs : List HeaderRecord) :
    openHeader (k + 1) (t.records ++ rs) = openHeader k rs := by
  induction t generalizing k rs with
  | leaf => rfl
  | node w l r ihl ihr => simp only [HTree.records, List.cons_append, List.append_assoc, openHeader, ihl, ihr]

/-- Records that leave a subtree to come do so inside the next one, or after it. -/
theorem openHeader_split {rs : List HeaderRecord} {k : Nat} (h : openHeader (k + 1) rs = true) :
    openHeader 1 rs = true ∨ ∃ (t : HTree) (rs' : List HeaderRecord), rs = t.records ++ rs' ∧ openHeader k rs' = true := by
  obtain ⟨m, hm⟩ : ∃ m, rs.length ≤ m := ⟨_, Nat.le_refl _⟩
  induction m generalizing rs k with
  | zero =>
    obtain rfl := List.length_eq_zero_iff.1 (Nat.le_zero.1 hm)
    exact .inl rfl
  | succ m ih =>
    cases rs with
    | nil => exact .inl rfl
    | cons r rs =>
      simp only [List.length_cons] at hm
      cases r with
      | leaf sym => exact .inr ⟨.leaf sym 0, rs, rfl, h⟩
      | internal =>
        rcases ih (rs := rs) (k := k + 1) h (by omega) with h1 | ⟨l, rs1, rfl, h1⟩
        · exact .inl (openHeader_mono (k := 2) h1 (by decide))
        · simp only [List.length_append] at hm
          rcases ih (rs := rs1) (k := k) h1 (by omega) with h2 | ⟨r, rs2, rfl, h2⟩
          · exact .inl (by simpa [openHeader] using h2)
          · exact .inr ⟨.node 0 l r, rs2, by simp [HTree.records], h2⟩

/-- R166: Parse of the records of a tree that is not complete goes on to what stands after them; where that raises an error,
for every call that could read it, so does Parse. -/
theorem parse_open {rs : List HeaderRecord} {depth n leaves : Nat} {s : State} {x : Bits} {c : ErrCode} {p : Nat}
    (ho : openHeader 1 rs = true) (hl : ∀ r ∈ rs, r.legal = true) (hu : s.unread = headerBits rs ++ x)
    (hn : n + rs.length ≤ 513) (hd : 514 ≤ depth + n)
    (hx : ∀ (depth leaves : Nat) (u : State), 514 ≤ depth + (n + rs.length) → u.unread = x →
      u.inp = { s.inp with pos := s.inp.pos + (headerBits rs).length } →
      ∃ node, parse depth (n + rs.length) leaves u = .raised c (({ u with node := node } : State).seek p)) :
    ∃ node, parse depth n leaves s = .raised c (({ s with node := node } : State).seek p) := by
  obtain ⟨m, hm⟩ : ∃ m, rs.length ≤ m := ⟨_, Nat.le_refl _⟩
  induction m generalizing rs depth n leaves s with
  | zero =>
    obtain rfl := List.length_eq_zero_iff.1 (Nat.le_zero.1 hm)
    exact hx depth leaves s hd hu rfl
  | succ m ih =>
    cases rs with
    | nil => exact hx depth leaves s hd hu rfl
    | cons r rs =>
      simp only [List.length_cons] at hm hn
      cases r with
      | leaf sym =>
        cases rs <;> simp [openHeader] at ho
      | internal =>
        cases depth with
        | zero => omega
        | succ depth =>
          have hu1 : (s.seek (s.inp.pos + 1)).unread = headerBits rs ++ x := by
            rw [State.unread_seek_add, hu]
            rfl
          have hl1 : ∀ r ∈ rs, r.legal = true := fun r hr => hl r (List.mem_cons_of_mem _ hr)
          rw [parse, State.readBit_of_unread (b := false) (x := headerBits rs ++ x) hu]
          simp only [Bool.toNat_false, if_false, Nat.zero_ne_one]
          rw [if_neg (by show n ≠ 513; omega)]
          rcases openHeader_split (k := 1) ho with h1 | ⟨l, rs1, rfl, h1⟩
          · obtain ⟨node, hp⟩ := ih (rs := rs) (depth := depth) (n := n + 1) (leaves := leaves) (s := s.seek (s.inp.pos + 1))
              h1 hl1 hu1 (by omega) (by omega) (fun depth leaves u h2 h3 h4 => by
                rw [show n + 1 + rs.length = n + (HeaderRecord.internal :: rs).length by simp; omega] at h2 ⊢
                refine hx depth leaves u h2 h3 (h4.trans ?_)
                simp [HeaderRecord.bits, Nat.add_assoc, Nat.add_comm 1]) (by omega)
            rw [hp]
            exact ⟨node, rfl⟩
          · simp only [List.length_append, HTree.records_length] at hm hn
            have := l.depth_lt_size
            rw [headerBits_append, HTree.headerBits_records, List.append_assoc] at hu1
            rw [parse_ok (t := l) hu1 (by omega)
              (HTree.symbolsLegal_of_records fun r hr => hl1 r (List.mem_append_left _ hr)) (by omega)]
            have h3 : ((State.place l (n + 1) (s.seek (s.inp.pos + 1))).seek
                ((s.seek (s.inp.pos + 1)).inp.pos + l.header.length)).unread = headerBits rs1 ++ x := by
              have : ((s.seek (s.inp.pos + 1)).seek ((s.seek (s.inp.pos + 1)).inp.pos + l.header.length)).unread =
                  headerBits rs1 ++ x := by
                rw [State.unread_seek_add, hu1, List.drop_left]
              simpa [State.unread, State.place_inp] using this
            obtain ⟨node, hp⟩ := ih (rs := rs1) (depth := depth) (n := n + 1 + l.size) (leaves := leaves + l.leaves) h1
              (fun r hr => hl1 r (List.mem_append_right _ hr)) h3 (by omega) (by omega) (fun depth leaves u h2 h4 h5 => by
                rw [show n + 1 + l.size + rs1.length = n + (HeaderRecord.internal :: (l.records ++ rs1)).length by
                  simp; omega] at h2 ⊢
                refine hx depth leaves u h2 h4 (h5.trans ?_)
                simp only [State.seek_inp, State.place_inp, headerBits_cons, headerBits_append, HeaderRecord.bits,
                  HTree.headerBits_records, List.length_append, List.length_cons, List.length_nil]
                congr 1
                omega) (by omega)
            rw [Parse.ok_andThen, hp, State.place_eq]
            exact ⟨node, rfl⟩

/-- R166, R170: what READ_HEADER meets after records that leave a tree incomplete. -/
theorem readHeaderBody_open {rs : List HeaderRecord} {s : State} {x : Bits} {c : ErrCode} {p : Nat}
    (ho : openHeader 1 rs = true) (hl : ∀ r ∈ rs, r.legal = true) (hn : rs.length ≤ 513)
    (hu : s.unread = headerBits rs ++ x)
    (hx : ∀ (depth leaves : Nat) (u : State), 514 ≤ depth + rs.length → u.unread = x →
      u.inp = { s.inp with pos := s.inp.pos + (headerBits rs).length } →
      ∃ node, parse depth rs.length leaves u = .raised c (({ u with node := node } : State).seek p)) :
    ∃ node, readHeaderBody s = .raised c (({ s.dropTree with node := node } : State).seek p) := by
  obtain ⟨node, hp⟩ := parse_open (depth := Config.nodeCap + 1) (n := 0) (leaves := 0) (s := s.dropTree) ho hl hu
    (by omega) (by decide) (by simpa using hx)
  exact ⟨node, by rw [readHeaderBody, hp]⟩

/-- R166: a Parse that returned has read a header and placed its tree. -/
theorem parse_ok_inv {depth n leaves i n' leaves' : Nat} {s s' : State} (hn : n ≤ 513)
    (h : parse depth n leaves s = .ok i n' leaves' s') :
    ∃ t x, s.unread = HTree.header t ++ x ∧ t.symbolsLegal ∧ i = n ∧ n' = n + t.size ∧ n' ≤ 513 ∧
      leaves' = leaves + t.leaves ∧ s' = (State.place t n s).seek (s.inp.pos + t.header.length) := by
  induction depth generalizing n leaves i n' leaves' s s' with
  | zero => simp [parse] at h
  | succ depth ih =>
    rw [parse] at h
    rcases s.readBits_cases (n := 1) (by omega) with ⟨bs, x, hu, hl, hr⟩ | ⟨-, hr⟩
    · rw [State.readBit, hr] at h
      simp only at h
      split at h
      · simp at h
      rename_i hcap
      have hcap : n ≠ 513 := hcap
      obtain ⟨b, rfl⟩ : ∃ b, bs = [b] := List.length_eq_one_iff.1 hl
      have hu1 : (s.seek (s.inp.pos + 1)).unread = x := by
        rw [State.unread_seek_add, hu]
        rfl
      cases b with
      | true =>
        rw [if_pos (by simp [val_cons]), parseLeaf] at h
        rcases (s.seek (s.inp.pos + 1)).readBits_cases (n := 9) (by omega) with ⟨cs, y, hu2, hl2, hr2⟩ | ⟨-, hr2⟩
        · rw [State.readSym, hr2] at h
          simp only at h
          split at h
          · rename_i hwf
            simp only [Parse.ok.injEq] at h
            obtain ⟨rfl, rfl, rfl, rfl⟩ := h
            have hv : val cs ≤ 256 := by simpa [symWf] using hwf
            have hsym : (BitVec.ofNat 9 (val cs)).toNat = val cs := by
              rw [BitVec.toNat_ofNat]
              exact Nat.mod_eq_of_lt (by omega)
            have hcs : bin 9 (val cs) = cs := by
              have := bin_val cs
              rwa [hl2] at this
            refine ⟨.leaf (BitVec.ofNat 9 (val cs)) 0, y, ?_, ?_, rfl, rfl, by omega, rfl, ?_⟩
            · rw [HTree.header, hsym, hcs, hu, ← hu1, hu2]
              rfl
            · intro sym hs
              simp only [HTree.symbols_leaf, List.mem_singleton] at hs
              subst hs
              rw [hsym]
              exact hv
            · simp only [HTree.header, List.length_cons, bin_length]
              rfl
          · simp at h
        · rw [State.readSym, hr2] at h
          simp at h
      | false =>
        rw [if_neg (by simp [val_cons])] at h
        obtain ⟨l, n1, leaves1, s1, h1, h⟩ := Parse.andThen_eq_ok.1 h
        obtain ⟨r, n2, leaves2, s2, h2, h⟩ := Parse.andThen_eq_ok.1 h
        simp only [Parse.ok.injEq] at h
        obtain ⟨rfl, rfl, rfl, rfl⟩ := h
        obtain ⟨tl, y, hy, hll, rfl, rfl, hn1, rfl, rfl⟩ := ih (by omega) h1
        obtain ⟨tr, z, hz, hlr, rfl, rfl, hn2, rfl, rfl⟩ := ih hn1 h2
        have hy' : ((s.seek (s.inp.pos + 1)).seek ((s.seek (s.inp.pos + 1)).inp.pos + tl.header.length)).unread =
            y := by
          rw [State.unread_seek_add, hy, List.drop_left]
        have hyz : y = tr.header ++ z := by
          rw [← hz, ← hy']
          simp [State.unread, State.place_inp]
        refine ⟨.node 0 tl tr, z, ?_, HTree.symbolsLegal_node.2 ⟨hll, hlr⟩, rfl, ?_, hn2, ?_, ?_⟩
        · rw [hu, ← hu1, hy, hyz]
          simp [HTree.header]
        · simp only [HTree.size]
          omega
        · simp only [HTree.leaves]
          omega
        · simp only [State.place_seek, State.seek_seek, State.seek_inp, State.place_inp, HTree.header,
            List.length_cons, List.length_append, State.place]
          rw [show s.inp.pos + (tl.header.length + tr.header.length + 1) =
            s.inp.pos + 1 + tl.header.length + tr.header.length by omega]
          rfl
    · rw [State.readBit, hr] at h
      simp at h

/-- Everything Parse can change: NODE and IN.pos; and the errors it can raise. -/
theorem parse_frame (depth n leaves : Nat) (s : State) :
    (∃ i n' leaves' node pos, parse depth n leaves s = .ok i n' leaves' ({ s with node := node }.seek pos)) ∨
      (∃ c node pos, parse depth n leaves s = .raised c ({ s with node := node }.seek pos) ∧
        (c = .truncHeader ∨ c = .headerTooLarge ∨ c = .badSymbol)) ∨
      ∃ t, parse depth n leaves s = .stuck t := by
  induction depth generalizing n leaves s with
  | zero => exact .inr (.inr ⟨s, rfl⟩)
  | succ depth ih =>
    rw [parse]
    rcases s.readBits_cases (n := 1) (by omega) with ⟨bs, x, -, -, hr⟩ | ⟨-, hr⟩
    · rw [State.readBit, hr]
      simp only
      split
      · exact .inr (.inl ⟨_, s.node, _, rfl, .inr (.inl rfl)⟩)
      split
      · rw [parseLeaf]
        rcases (s.seek (s.inp.pos + 1)).readBits_cases (n := 9) (by omega) with ⟨cs, y, -, -, hr2⟩ | ⟨-, hr2⟩
        · rw [State.readSym, hr2]
          simp only
          split
          · exact .inl ⟨_, _, _, _, _, rfl⟩
          · exact .inr (.inl ⟨_, s.node, _, rfl, .inr (.inr rfl)⟩)
        · rw [State.readSym, hr2]
          exact .inr (.inl ⟨_, s.node, _, rfl, .inl rfl⟩)
      · rcases ih (n + 1) leaves (s.seek (s.inp.pos + 1)) with ⟨i, n1, l1, nd, p, h⟩ | ⟨c, nd, p, h, hc⟩ | ⟨t, h⟩
        · rw [h]
          simp only [Parse.ok_andThen]
          rcases ih n1 l1 ({ s.seek (s.inp.pos + 1) with node := nd }.seek p) with
            ⟨i', n2, l2, nd', p', h'⟩ | ⟨c, nd', p', h', hc⟩ | ⟨t, h'⟩
          · rw [h']
            exact .inl ⟨_, _, _, _, p', rfl⟩
          · rw [h']
            exact .inr (.inl ⟨c, nd', p', rfl, hc⟩)
          · rw [h']
            exact .inr (.inr ⟨t, rfl⟩)
        · rw [h]
          exact .inr (.inl ⟨c, nd, p, rfl, hc⟩)
        · rw [h]
          exact .inr (.inr ⟨t, rfl⟩)
    · rw [State.readBit, hr]
      exact .inr (.inl ⟨_, s.node, _, rfl, .inl rfl⟩)

/-- R55: with one call of depth more than NODE_CAP, Parse never runs out of room. -/
theorem parse_ne_stuck {depth n leaves : Nat} {s t : State} (hn : n ≤ 513) (hd : 514 ≤ depth + n) :
    parse depth n leaves s ≠ .stuck t := by
  induction depth generalizing n leaves s t with
  | zero => omega
  | succ depth ih =>
    rw [parse]
    rcases s.readBits_cases (n := 1) (by omega) with ⟨bs, x, -, -, hr⟩ | ⟨-, hr⟩
    · rw [State.readBit, hr]
      simp only
      split
      · simp
      rename_i hcap
      have hcap : n ≠ 513 := hcap
      split
      · rw [parseLeaf]
        split
        · simp
        · split <;> simp
      · cases hp : parse depth (n + 1) leaves (s.seek (s.inp.pos + 1)) with
        | ok i n1 l1 s1 =>
          simp only [Parse.ok_andThen]
          obtain ⟨t1, x, -, -, -, hn1, hle, -, -⟩ := parse_ok_inv (by omega) hp
          have := t1.size_eq
          have := t1.leaves_pos
          cases hq : parse depth n1 l1 s1 with
          | ok i' n2 l2 s2 => simp
          | raised c s2 => simp
          | stuck s2 => exact absurd hq (ih hle (by omega))
        | raised c s1 => simp
        | stuck s1 => exact absurd hp (ih (by omega) (by omega))
    · rw [State.readBit, hr]
      simp

end Sys2Proof.Machine
end

