-- ==== Sys2Proof/Laws/Body.lean ====
section
/-! SUPPORT. What the loops of ENCODE_BODY (R180 to R184) and DECODE_BODY (R186 to R192) do. -/

namespace Sys2Proof.Machine

/-! ### ENCODE_BODY -/

@[simp] theorem State.codesOf_nil (s : State) : s.codesOf [] = [] := rfl

@[simp] theorem State.codesOf_cons (s : State) (b : BitVec 8) (bytes : List (BitVec 8)) :
    s.codesOf (b :: bytes) = s.codeString b.toNat ++ s.codesOf bytes := rfl

theorem State.writeCode_eq (s : State) (i : Nat) : s.writeCode (s.codeAt i) = s.writeStr (s.codeString i) := rfl

/-- R180: the loop over bytes that all have codes. -/
theorem encodeLoop_ok {s : State} {bytes : List (BitVec 8)} {tail : Bits} {fuel : Nat}
    (h : s.unread = bitsOfBytes bytes ++ tail) (ht : tail.length < 8) (hf : s.bitsLeft ≤ fuel)
    (hp : ∀ b ∈ bytes, (s.codeAt b.toNat).present = true) :
    encodeLoop fuel s = .ok (s.writeStr (s.codesOf bytes)).inToEnd := by
  induction bytes generalizing s fuel with
  | nil =>
    rw [State.codesOf_nil, State.writeStr_nil]
    cases fuel with
    | zero => rfl
    | succ fuel =>
      have : s.unread.length < 8 := by rw [h]; simpa using ht
      rw [encodeLoop, State.readByte, State.readBits_end this]
  | cons b bytes ih =>
    rw [State.bitsLeft_eq, h] at hf
    simp only [List.length_append, bitsOfBytes_length, List.length_cons] at hf
    cases fuel with
    | zero => omega
    | succ fuel =>
      rw [bitsOfBytes_cons, List.append_assoc] at h
      have hd : (s.seek (s.inp.pos + 8)).unread = bitsOfBytes bytes ++ tail := by
        rw [State.unread_seek_add, h, List.drop_left' (by simp)]
      rw [encodeLoop, State.readByte_of_unread h]
      simp only
      rw [if_pos (show ((s.seek (s.inp.pos + 8)).codeAt b.toNat).present = true from hp b (by simp)),
        ih (s := (s.seek (s.inp.pos + 8)).writeCode ((s.seek (s.inp.pos + 8)).codeAt b.toNat)) hd _
          (fun c hc => hp c (List.mem_cons_of_mem _ hc))]
      · show Run.ok ((((s.seek _).writeStr (s.codeString b.toNat)).writeStr (s.codesOf bytes)).inToEnd) = _
        rw [State.writeStr_writeStr]
        rfl
      · rw [State.bitsLeft_eq]
        show (s.seek (s.inp.pos + 8)).unread.length ≤ fuel
        rw [hd]
        simp only [List.length_append, bitsOfBytes_length]
        omega

/-- R180, R182: the loop meets a byte without a code. -/
theorem encodeLoop_noCode {s : State} {bytes : List (BitVec 8)} {b : BitVec 8} {x : Bits} {fuel : Nat}
    (h : s.unread = bitsOfBytes bytes ++ (bin 8 b.toNat ++ x)) (hf : s.bitsLeft ≤ fuel)
    (hp : ∀ c ∈ bytes, (s.codeAt c.toNat).present = true) (hb : (s.codeAt b.toNat).present = false) :
    encodeLoop fuel s =
      .raised .noCode ((s.writeStr (s.codesOf bytes)).seek (s.inp.pos + 8 * (bytes.length + 1))) := by
  induction bytes generalizing s fuel with
  | nil =>
    rw [State.bitsLeft_eq, h] at hf
    simp only [bitsOfBytes_nil, List.nil_append, List.length_append, bin_length] at hf h
    cases fuel with
    | zero => omega
    | succ fuel =>
      rw [encodeLoop, State.readByte_of_unread h]
      simp only
      rw [if_neg (show ¬ ((s.seek (s.inp.pos + 8)).codeAt b.toNat).present = true by simp [hb])]
      simp
  | cons c bytes ih =>
    rw [State.bitsLeft_eq, h] at hf
    simp only [List.length_append, bitsOfBytes_length, List.length_cons, bin_length] at hf
    cases fuel with
    | zero => omega
    | succ fuel =>
      rw [bitsOfBytes_cons, List.append_assoc] at h
      have hd : (s.seek (s.inp.pos + 8)).unread = bitsOfBytes bytes ++ (bin 8 b.toNat ++ x) := by
        rw [State.unread_seek_add, h, List.drop_left' (by simp)]
      rw [encodeLoop, State.readByte_of_unread h]
      simp only
      rw [if_pos (show ((s.seek (s.inp.pos + 8)).codeAt c.toNat).present = true from hp c (by simp)),
        ih (s := (s.seek (s.inp.pos + 8)).writeCode ((s.seek (s.inp.pos + 8)).codeAt c.toNat)) hd _
          (fun d hd => hp d (List.mem_cons_of_mem _ hd)) hb]
      · show Run.raised _ (((((s.seek _).writeStr (s.codeString c.toNat)).writeStr (s.codesOf bytes))).seek
            (s.inp.pos + 8 + 8 * (bytes.length + 1))) = _
        rw [State.writeStr_writeStr, State.codesOf_cons, List.length_cons,
          show s.inp.pos + 8 + 8 * (bytes.length + 1) = s.inp.pos + 8 * (bytes.length + 1 + 1) by ring]
        rfl
      · rw [State.bitsLeft_eq]
        show (s.seek (s.inp.pos + 8)).unread.length ≤ fuel
        rw [hd]
        simp only [List.length_append, bitsOfBytes_length, bin_length]
        omega

/-- Everything ENCODE_BODY's loop can change: OUT, which grows, and IN.pos. -/
theorem encodeLoop_frame (fuel : Nat) (s : State) :
    ∃ bs pos, encodeLoop fuel s = .ok ((s.writeStr bs).seek pos) ∨
      encodeLoop fuel s = .raised .noCode ((s.writeStr bs).seek pos) := by
  induction fuel generalizing s with
  | zero => exact ⟨[], s.inp.data.length, .inl (by simp [encodeLoop, State.inToEnd])⟩
  | succ fuel ih =>
    rw [encodeLoop]
    rcases s.readBits_cases (n := 8) (by omega) with ⟨cs, x, -, -, hr⟩ | ⟨-, hr⟩
    · rw [State.readByte, hr]
      simp only
      split
      · obtain ⟨bs, p, h⟩ := ih ((s.seek (s.inp.pos + 8)).writeCode ((s.seek (s.inp.pos + 8)).codeAt (val cs)))
        refine ⟨s.codeString (val cs) ++ bs, p, ?_⟩
        rw [← State.writeStr_writeStr]
        exact h
      · exact ⟨[], s.inp.pos + 8, .inr (by simp)⟩
    · rw [State.readByte, hr]
      exact ⟨[], s.inp.data.length, .inl (by simp [State.inToEnd])⟩

/-! ### DECODE_BODY -/

/-- R114: a bit string begins with the path of some leaf, or is a proper prefix of one. -/
theorem HTree.path_cases (t : HTree) (bits : Bits) :
    (∃ p ∈ t.paths, ∃ x, bits = p.2 ++ x) ∨ ∃ p ∈ t.paths, ∃ y, y ≠ [] ∧ p.2 = bits ++ y := by
  induction t generalizing bits with
  | leaf sym w => exact .inl ⟨(sym, []), by simp [HTree.paths], bits, rfl⟩
  | node w l r ihl ihr =>
    cases bits with
    | nil =>
      obtain ⟨p, hp, -⟩ := l.exists_deepest
      refine .inr ⟨(p.1, false :: p.2), ?_, false :: p.2, by simp, rfl⟩
      simp only [HTree.paths, List.mem_append, List.mem_map]
      exact .inl ⟨p, hp, rfl⟩
    | cons b bits =>
      cases b with
      | false =>
        rcases ihl bits with ⟨p, hp, x, rfl⟩ | ⟨p, hp, y, hy, he⟩
        · refine .inl ⟨(p.1, false :: p.2), ?_, x, rfl⟩
          simp only [HTree.paths, List.mem_append, List.mem_map]
          exact .inl ⟨p, hp, rfl⟩
        · refine .inr ⟨(p.1, false :: p.2), ?_, y, hy, by simp [he]⟩
          simp only [HTree.paths, List.mem_append, List.mem_map]
          exact .inl ⟨p, hp, rfl⟩
      | true =>
        rcases ihr bits with ⟨p, hp, x, rfl⟩ | ⟨p, hp, y, hy, he⟩
        · refine .inl ⟨(p.1, true :: p.2), ?_, x, rfl⟩
          simp only [HTree.paths, List.mem_append, List.mem_map]
          exact .inr ⟨p, hp, rfl⟩
        · refine .inr ⟨(p.1, true :: p.2), ?_, y, hy, by simp [he]⟩
          simp only [HTree.paths, List.mem_append, List.mem_map]
          exact .inr ⟨p, hp, rfl⟩

/-- What the decode walk does when it reaches a leaf (R186). -/
def atLeaf (fuel : Nat) (sym : Sym) (s : State) : Run :=
  if sym.toNat = Config.sentinel then .ok (s.setDec .done) else decodeLoop fuel s.regs.root (s.writeByte sym)

/-- R186: a step of the walk from an Internal node. -/
theorem decodeLoop_step {s : State} {i : NodeIdx} {w : Word} {tl tr : HTree} {b : Bool} {x : Bits}
    {fuel : Nat} (h : s.Spells (.node w tl tr) i) (hu : s.unread = b :: x) :
    ∃ j, s.Spells (if b then tr else tl) j ∧
      decodeLoop (fuel + 1) i s =
        match (if b then tr else tl) with
        | .leaf sym _ => atLeaf fuel sym (s.seek (s.inp.pos + 1))
        | .node _ _ _ => decodeLoop fuel j (s.seek (s.inp.pos + 1)) := by
  obtain ⟨l, r, hn, hl, hr⟩ := h
  rw [decodeLoop, State.readBit_of_unread hu]
  simp only [State.seek_nodeAt, hn]
  cases b with
  | false =>
    refine ⟨l, hl, ?_⟩
    simp only [Bool.toNat_false, if_true]
    cases tl with
    | leaf sym w' => rw [show s.nodeAt l = _ from hl]; rfl
    | node w' a b =>
      obtain ⟨l', r', hn', -, -⟩ := hl
      rw [hn']
      rfl
  | true =>
    refine ⟨r, hr, ?_⟩
    simp only [Bool.toNat_true, Nat.one_ne_zero, if_false]
    cases tr with
    | leaf sym w' => rw [show s.nodeAt r = _ from hr]; rfl
    | node w' a b =>
      obtain ⟨l', r', hn', -, -⟩ := hr
      rw [hn']
      rfl

/-- R186: the walk down the whole path of a leaf. -/
theorem decodeLoop_path {t : HTree} {s : State} {i : NodeIdx} {p : Sym × Bits} {x : Bits} {fuel : Nat}
    (h : s.Spells t i) (hp : p ∈ t.paths) (hne : p.2 ≠ []) (hu : s.unread = p.2 ++ x) :
    decodeLoop (fuel + p.2.length) i s = atLeaf fuel p.1 (s.seek (s.inp.pos + p.2.length)) := by
  induction t generalizing s i p with
  | leaf sym w => simp_all [HTree.paths]
  | node w tl tr ihl ihr =>
    have key : ∀ (b : Bool) (sub : HTree), sub = (if b then tr else tl) →
        (∀ {s : State} {i : NodeIdx} {p : Sym × Bits}, s.Spells sub i → p ∈ sub.paths → p.2 ≠ [] →
          s.unread = p.2 ++ x →
            decodeLoop (fuel + p.2.length) i s = atLeaf fuel p.1 (s.seek (s.inp.pos + p.2.length))) →
        ∀ q ∈ sub.paths, p = (q.1, b :: q.2) →
        decodeLoop (fuel + p.2.length) i s = atLeaf fuel p.1 (s.seek (s.inp.pos + p.2.length)) := by
      intro b sub hsub ih q hq he
      subst he
      obtain ⟨j, hj, hstep⟩ := decodeLoop_step (fuel := fuel + q.2.length) h hu
      rw [← hsub] at hj hstep
      simp only [List.length_cons]
      rw [show fuel + (q.2.length + 1) = fuel + q.2.length + 1 by omega, hstep]
      cases sub with
      | leaf sym w' =>
        simp only [HTree.paths, List.mem_singleton] at hq
        subst hq
        rfl
      | node w' a c =>
        simp only
        have hq0 : q.2 ≠ [] := by
          intro h0
          simp only [HTree.paths, List.mem_append, List.mem_map] at hq
          rcases hq with ⟨z, -, rfl⟩ | ⟨z, -, rfl⟩ <;> simp at h0
        rw [ih (s := s.seek (s.inp.pos + 1)) ((State.spells_congr (by rfl) _ j).1 hj) hq hq0
          (by rw [State.unread_seek_add, hu]; rfl)]
        simp only [State.seek_seek, State.seek_inp]
        rw [show s.inp.pos + 1 + q.2.length = s.inp.pos + (q.2.length + 1) by omega]
    have hp' := hp
    simp only [HTree.paths, List.mem_append, List.mem_map] at hp'
    rcases hp' with ⟨q, hq, he⟩ | ⟨q, hq, he⟩
    · exact key false tl rfl (fun h1 h2 h3 h4 => ihl h1 h2 h3 h4) q hq he.symm
    · exact key true tr rfl (fun h1 h2 h3 h4 => ihr h1 h2 h3 h4) q hq he.symm

/-- R189: the walk meets END inside a path. -/
theorem decodeLoop_trunc {t : HTree} {s : State} {i : NodeIdx} {p : Sym × Bits} {y : Bits} {fuel : Nat}
    (h : s.Spells t i) (hp : p ∈ t.paths) (hy : y ≠ []) (he : p.2 = s.unread ++ y) (hf : s.bitsLeft ≤ fuel) :
    decodeLoop fuel i s = .raised .truncBody s.inToEnd := by
  induction t generalizing s i p fuel with
  | leaf sym w => simp_all [HTree.paths]
  | node w tl tr ihl ihr =>
    rw [State.bitsLeft_eq] at hf
    cases hu : s.unread with
    | nil =>
      cases fuel with
      | zero => rfl
      | succ fuel => rw [decodeLoop, State.readBit, State.readBits_end (by rw [hu]; simp)]
    | cons b x =>
      rw [hu] at hf he
      cases fuel with
      | zero => simp at hf
      | succ fuel =>
        obtain ⟨j, hj, hstep⟩ := decodeLoop_step (fuel := fuel) h hu
        have hu1 : (s.seek (s.inp.pos + 1)).unread = x := by
          rw [State.unread_seek_add, hu]
          rfl
        have hsub : ∃ q ∈ (if b then tr else tl).paths, q.2 = x ++ y := by
          simp only [HTree.paths, List.mem_append, List.mem_map] at hp
          rcases hp with ⟨q, hq, rfl⟩ | ⟨q, hq, rfl⟩
          · simp only [List.cons_append, List.cons.injEq] at he
            obtain ⟨rfl, he⟩ := he
            exact ⟨q, hq, he⟩
          · simp only [List.cons_append, List.cons.injEq] at he
            obtain ⟨rfl, he⟩ := he
            exact ⟨q, hq, he⟩
        obtain ⟨q, hq, hqe⟩ := hsub
        have hb : (s.seek (s.inp.pos + 1)).bitsLeft ≤ fuel := by
          rw [State.bitsLeft_eq, hu1]
          simp only [List.length_cons] at hf
          omega
        have hend : (s.seek (s.inp.pos + 1)).inToEnd = s.inToEnd := rfl
        rw [hstep]
        cases b with
        | false =>
          simp only [Bool.false_eq_true, if_false] at hj hq ⊢
          cases tl with
          | leaf sym w' => simp_all [HTree.paths]
          | node w' a c =>
            simp only
            rw [ihl ((State.spells_congr (by rfl) _ j).1 hj) hq (by rw [hu1]; exact hqe) hb, hend]
        | true =>
          simp only [if_true] at hj hq ⊢
          cases tr with
          | leaf sym w' => simp_all [HTree.paths]
          | node w' a c =>
            simp only
            rw [ihr ((State.spells_congr (by rfl) _ j).1 hj) hq (by rw [hu1]; exact hqe) hb, hend]

/-- The byte that a symbol below 256 writes. -/
theorem State.writeByte_eq (s : State) (b : BitVec 8) :
    s.writeByte (b.setWidth 9) = s.writeStr (bitsOfBytes [b]) := by
  have : (b.setWidth 9).toNat = b.toNat := by
    rw [BitVec.toNat_setWidth]
    exact Nat.mod_eq_of_lt (by have := b.isLt; omega)
  simp [State.writeByte, State.writeBits, this]

/-- R192: the walk over the codes of the bytes `bytes`, on a tree that is no single leaf. -/
theorem decodeLoop_bytes {w : Word} {tl tr : HTree} {s : State} {bytes : List (BitVec 8)} {c x : Bits} {fuel : Nat}
    (h : s.Spells (.node w tl tr) s.regs.root) (hc : (HTree.node w tl tr).Encodes bytes c)
    (hu : s.unread = c ++ x) :
    decodeLoop (fuel + c.length) s.regs.root s =
      decodeLoop fuel s.regs.root ((s.writeStr (bitsOfBytes bytes)).seek (s.inp.pos + c.length)) := by
  induction bytes generalizing s c with
  | nil =>
    simp only [HTree.Encodes] at hc
    subst hc
    simp
  | cons b bytes ih =>
    obtain ⟨p, rest, hp, hrest, rfl⟩ := hc
    have hne : p ≠ [] := by
      intro h0
      simp only [HTree.paths, List.mem_append, List.mem_map] at hp
      rcases hp with ⟨z, -, hz⟩ | ⟨z, -, hz⟩ <;> simp [h0] at hz
    rw [List.append_assoc] at hu
    rw [List.length_append, show fuel + (p.length + rest.length) = fuel + rest.length + p.length by omega,
      decodeLoop_path h hp hne hu, atLeaf, if_neg, State.writeByte_eq]
    · have hu2 : ((s.seek (s.inp.pos + p.length)).writeStr (bitsOfBytes [b])).unread = rest ++ x := by
        rw [State.writeStr_unread, State.unread_seek_add, hu, List.drop_left]
      have := ih (s := (s.seek (s.inp.pos + p.length)).writeStr (bitsOfBytes [b]))
        ((State.spells_congr (by rfl) _ _).1 h) hrest hu2
      rw [show (s.seek (s.inp.pos + p.length)).regs.root =
        ((s.seek (s.inp.pos + p.length)).writeStr (bitsOfBytes [b])).regs.root from rfl, this]
      simp only [State.writeStr_writeStr, ← bitsOfBytes_append, List.singleton_append, State.writeStr_inp,
        State.seek_inp]
      rw [show s.inp.pos + p.length + rest.length = s.inp.pos + (p.length + rest.length) by omega]
      rfl
    · have hb : (b.setWidth 9).toNat = b.toNat := by
        rw [BitVec.toNat_setWidth]
        exact Nat.mod_eq_of_lt (by have := b.isLt; omega)
      have := b.isLt
      show ¬ (b.setWidth 9).toNat = 256
      omega

/-- Everything DECODE_BODY's loop can change on a tree that is no single leaf: OUT, which grows, IN.pos, and DEC_STATE at a
success; its one error is TRUNC_BODY. -/
theorem decodeLoop_frame {w : Word} {tl tr : HTree} {s : State} {fuel : Nat}
    (h : s.Spells (.node w tl tr) s.regs.root) (hf : s.bitsLeft ≤ fuel) :
    ∃ bs pos, (decodeLoop fuel s.regs.root s = .ok (((s.writeStr bs).seek pos).setDec .done) ∧
        ∃ p ∈ (HTree.node w tl tr).paths, p.1.toNat = Config.sentinel) ∨
      decodeLoop fuel s.regs.root s = .raised .truncBody ((s.writeStr bs).seek pos) := by
  induction hk : s.bitsLeft using Nat.strong_induction_on generalizing s fuel with
  | _ k ih =>
    rcases (HTree.node w tl tr).path_cases s.unread with ⟨p, hp, x, hu⟩ | ⟨p, hp, y, hy, he⟩
    · have hne : p.2 ≠ [] := by
        intro h0
        simp only [HTree.paths, List.mem_append, List.mem_map] at hp
        rcases hp with ⟨z, -, rfl⟩ | ⟨z, -, rfl⟩ <;> simp at h0
      have hpos : 0 < p.2.length := List.length_pos_iff.2 hne
      have hlen := State.bitsLeft_eq s
      rw [hu, List.length_append] at hlen
      obtain ⟨f, rfl⟩ : ∃ f, fuel = f + p.2.length := ⟨fuel - p.2.length, by omega⟩
      rw [decodeLoop_path h hp hne hu, atLeaf]
      split
      · rename_i hs
        exact ⟨[], s.inp.pos + p.2.length, .inl ⟨by simp, p, hp, hs⟩⟩
      · have hu2 : ((s.seek (s.inp.pos + p.2.length)).writeByte p.1).unread = x := by
          show (s.seek (s.inp.pos + p.2.length)).unread = x
          rw [State.unread_seek_add, hu, List.drop_left]
        obtain ⟨bs, pos, hr⟩ := ih _ (by rw [State.bitsLeft_eq, hu2]; omega)
          (s := (s.seek (s.inp.pos + p.2.length)).writeByte p.1) (fuel := f)
          ((State.spells_congr (by rfl) _ _).1 h) (by rw [State.bitsLeft_eq, hu2]; omega) rfl
        refine ⟨bin 8 p.1.toNat ++ bs, pos, ?_⟩
        rw [← State.writeStr_writeStr]
        exact hr
    · exact ⟨[], s.inp.data.length, .inr (by rw [decodeLoop_trunc h hp hy he hf]; simp [State.inToEnd])⟩

end Sys2Proof.Machine
end

