-- ==== Sys2Proof/Laws/Build.lean ====
section
/-! SUPPORT. What BUILD_TREE does: the priority queue (R135), the leaves (R134) and the merge loop with its invariant (R136,
R138). -/

namespace Sys2Proof.Machine

/-! ### The priority queue -/

/-- R135: the order of the keys. -/
def PqEntry.Le (a b : PqEntry) : Prop := a.w.toNat < b.w.toNat ∨ (a.w.toNat = b.w.toNat ∧ a.i ≤ b.i)

theorem PqEntry.before_iff (a b : PqEntry) : a.before b = true ↔ ¬ b.Le a := by
  simp only [PqEntry.before, PqEntry.Le, Bool.or_eq_true, Bool.and_eq_true, decide_eq_true_eq, beq_iff_eq,
    BitVec.lt_def, BitVec.toNat_inj.symm]
  omega

theorem pqMin_spec (e : PqEntry) (q : List PqEntry) : pqMin e q ∈ e :: q ∧ ∀ x ∈ e :: q, (pqMin e q).Le x := by
  induction q generalizing e with
  | nil => simp [pqMin, PqEntry.Le]
  | cons y q ih =>
    have hstep : pqMin e (y :: q) = pqMin (if y.before e then y else e) q := rfl
    rw [hstep]
    by_cases hb : y.before e = true
    · rw [if_pos hb]
      obtain ⟨hm, hl⟩ := ih y
      have hye := (PqEntry.before_iff y e).1 hb
      refine ⟨List.mem_cons_of_mem _ hm, fun x hx => ?_⟩
      rcases List.mem_cons.1 hx with rfl | hx
      · have := hl y (by simp)
        simp only [PqEntry.Le] at *
        omega
      · exact hl x hx
    · rw [if_neg hb]
      obtain ⟨hm, hl⟩ := ih e
      have hey : e.Le y := by
        by_contra h
        exact hb ((PqEntry.before_iff y e).2 h)
      refine ⟨?_, fun x hx => ?_⟩
      · rcases List.mem_cons.1 hm with h | h
        · rw [h]; simp
        · simp [h]
      · rcases List.mem_cons.1 hx with rfl | hx
        · exact hl x (by simp)
        rcases List.mem_cons.1 hx with rfl | hx
        · have := hl e (by simp)
          simp only [PqEntry.Le] at *
          omega
        · exact hl x (by simp [hx])

/-- R135: ExtractMin removes one element, of least key. -/
theorem extractMin_spec {q rest : List PqEntry} {m : PqEntry} (h : extractMin q = some (m, rest)) :
    q.Perm (m :: rest) ∧ ∀ x ∈ q, m.Le x := by
  cases q with
  | nil => simp [extractMin] at h
  | cons e q =>
    simp only [extractMin, Option.some.injEq, Prod.mk.injEq] at h
    obtain ⟨rfl, rfl⟩ := h
    obtain ⟨hm, hl⟩ := pqMin_spec e q
    exact ⟨List.perm_cons_erase hm, hl⟩

theorem extractMin_eq_none {q : List PqEntry} : extractMin q = none ↔ q = [] := by
  cases q <;> simp [extractMin]

/-! ### The arena below an index -/

/-- The two states have the same entries below `n`. -/
def SameBelow (n : Nat) (s s' : State) : Prop := ∀ k : NodeIdx, k.toNat < n → s.nodeAt k = s'.nodeAt k

theorem sameBelow_setNode (s : State) (n : Nat) (x : Node) : SameBelow n (s.setNode n x) s := fun k hk => by
  rw [State.nodeAt_setNode, if_neg (by omega)]

theorem SameBelow.kids {n : Nat} {s s' : State} (h : SameBelow n s s') {i : Nat} (hi : i < n) :
    s.kids i = s'.kids i := by
  have : (BitVec.ofNat 10 i).toNat < n := by
    rw [BitVec.toNat_ofNat]
    exact lt_of_le_of_lt (Nat.mod_le _ _) hi
  rw [State.kids, State.kids, h _ this]

theorem SameBelow.children {n k : Nat} {s s' : State} (h : SameBelow n s s') (hk : k ≤ n) :
    s.children k = s'.children k := by
  unfold State.children
  rw [List.flatMap_def, List.flatMap_def]
  congr 1
  refine List.map_congr_left fun i hi => h.kids ?_
  have := List.mem_range.1 hi
  omega

theorem SameBelow.weightAt {n : Nat} {s s' : State} (h : SameBelow n s s') {i : Nat} (hi : i < n) :
    s.weightAt i = s'.weightAt i := by
  have : (BitVec.ofNat 10 i).toNat < n := by
    rw [BitVec.toNat_ofNat]
    exact lt_of_le_of_lt (Nat.mod_le _ _) hi
  rw [State.weightAt, State.weightAt, h _ this]

theorem SameBelow.liveBefore {n k j : Nat} {s s' : State} (h : SameBelow n s s') (hk : k ≤ n) :
    s.LiveBefore k j ↔ s'.LiveBefore k j := by
  rw [State.LiveBefore, State.LiveBefore, h.children hk]

/-- How a merge chose its children depends only on the entries up to it. -/
theorem SameBelow.mergesLeastTwo {n k : Nat} {s s' : State} (h : SameBelow n s s') (hk : k < n) (hk2 : k < 1024)
    (hm : s.MergesLeastTwo k) : s'.MergesLeastTwo k := by
  obtain ⟨w, l, r, hn, hw, hl, hr, hne, h1, h2⟩ := hm
  have hlt : ∀ {j}, s'.LiveBefore k j → j < n := fun hj => by have := hj.1; omega
  have hl' := (h.liveBefore (j := l.toNat) (by omega)).1 hl
  have hr' := (h.liveBefore (j := r.toNat) (by omega)).1 hr
  refine ⟨w, l, r, ?_, ?_, hl', hr', hne, fun j hj => ?_, fun j hj hjl => ?_⟩
  · rw [← h _ (by rw [toNat_ofNat_idx hk2]; exact hk)]
    exact hn
  · rw [hw, h.weightAt (hlt hl'), h.weightAt (hlt hr')]
  · have := h1 j ((h.liveBefore (by omega)).2 hj)
    simpa [State.KeyLe, h.weightAt (hlt hl'), h.weightAt (hlt hj)] using this
  · have := h2 j ((h.liveBefore (by omega)).2 hj) hjl
    simpa [State.KeyLe, h.weightAt (hlt hr'), h.weightAt (hlt hj)] using this

theorem State.children_succ (s : State) (n : Nat) : s.children (n + 1) = s.children n ++ s.kids n := by
  simp [State.children, List.range_succ]

/-- The weight of the tree at an index is the weight of the entry there. -/
theorem State.Spells.weightAt {s : State} {t : HTree} {i : Nat} (h : s.Spells t (BitVec.ofNat 10 i)) :
    s.weightAt i = t.weight.toNat := by
  cases t with
  | leaf sym w => rw [State.weightAt, show s.nodeAt _ = _ from h]; rfl
  | node w l r =>
    obtain ⟨a, b, hn, -, -⟩ := h
    rw [State.weightAt, hn]
    rfl

/-! ### The leaves -/

/-- The leaves of the symbols `syms`, placed from entry 0 on. -/
theorem placeLeaves_spec (s : State) (syms : List Nat) (hlen : syms.length ≤ 257) :
    ∃ node, (syms.foldl placeLeaf ⟨s, 0, []⟩).s = { s with node := node } ∧
      (syms.foldl placeLeaf ⟨s, 0, []⟩).n = (syms.filter fun i => s.freqAt i ≠ 0).length ∧
      (syms.foldl placeLeaf ⟨s, 0, []⟩).pq =
        ((syms.filter fun i => s.freqAt i ≠ 0).zipIdx.map fun p => ⟨s.freqAt p.1, p.2⟩).reverse ∧
      (∀ k (h : k < (syms.filter fun i => s.freqAt i ≠ 0).length),
        ({ s with node := node } : State).nodeAt (BitVec.ofNat 10 k) =
          some (.leaf (BitVec.ofNat 9 ((syms.filter fun i => s.freqAt i ≠ 0)[k]))
            (s.freqAt ((syms.filter fun i => s.freqAt i ≠ 0)[k])))) := by
  induction syms using List.reverseRecOn with
  | nil => exact ⟨s.node, rfl, rfl, rfl, by simp⟩
  | append_singleton syms a ih =>
    simp only [List.length_append, List.length_singleton] at hlen
    obtain ⟨node, h1, h2, h3, h4⟩ := ih (by omega)
    have hle : (syms.filter fun i => s.freqAt i ≠ 0).length ≤ syms.length := List.length_filter_le _ _
    have hf : (syms.foldl placeLeaf ⟨s, 0, []⟩).s.freqAt a = s.freqAt a := by rw [h1]; rfl
    rw [List.foldl_append, List.foldl_cons, List.foldl_nil, placeLeaf, hf]
    by_cases ha : s.freqAt a = 0
    · rw [if_pos ha]
      have hflt : (syms ++ [a]).filter (fun i => s.freqAt i ≠ 0) = syms.filter fun i => s.freqAt i ≠ 0 := by
        simp [List.filter_append, ha]
      rw [hflt]
      exact ⟨node, h1, h2, h3, h4⟩
    · rw [if_neg ha]
      have hflt : (syms ++ [a]).filter (fun i => s.freqAt i ≠ 0) = (syms.filter fun i => s.freqAt i ≠ 0) ++ [a] := by
        simpa [List.filter_append] using ha
      simp only [hflt, List.length_append, List.length_singleton, h2, h3]
      refine ⟨(({ s with node := node } : State).setNode (syms.filter fun i => s.freqAt i ≠ 0).length
        (.leaf (BitVec.ofNat 9 a) (s.freqAt a))).node, ?_, trivial, ?_, ?_⟩
      · rw [h1]; rfl
      · simp [List.zipIdx_append]
      · intro k hk
        show (({ s with node := node } : State).setNode _ _).nodeAt _ = _
        rw [State.nodeAt_setNode, toNat_ofNat_idx (by omega)]
        by_cases hk2 : k = (syms.filter fun i => s.freqAt i ≠ 0).length
        · subst hk2
          rw [if_pos ⟨rfl, by omega⟩]
          simp
        · rw [if_neg (by omega), h4 k (by omega)]
          rw [List.getElem_append_left (by omega)]

end Sys2Proof.Machine
end

