-- ==== Sys2Proof/Laws/Merge.lean ====
section
/-! SUPPORT. The merge loop of BUILD_TREE (R134, R135): its invariant, and the tree it ends with (R136). -/

namespace Sys2Proof.Machine

/-- The invariant of the merge loop over the leaves `act` of the counts of `s0`: PQ holds the roots of a forest over the
active symbols, which are the entries that are no child, and every merge took the two least. -/
structure Builder.Grown (s0 : State) (act : List Nat) (b : Builder) : Prop where
  frame : b.s = { s0 with node := b.s.node }
  count : b.n + b.pq.length = 2 * act.length
  leavesFirst : act.length ≤ b.n
  live : (b.pq.map PqEntry.i ++ b.s.children b.n).Perm (List.range b.n)
  forest : ∃ ts, List.Forall₂ (fun e t => b.s.Spells t (BitVec.ofNat 10 e.i) ∧ HTree.weight t = e.w) b.pq ts ∧
    (ts.flatMap HTree.symbols).Perm (act.map fun i => BitVec.ofNat 9 i) ∧ (ts.map HTree.size).sum = b.n
  weights : (b.pq.map fun e => e.w.toNat).sum = (act.map fun i => (s0.freqAt i).toNat).sum
  leaves : ∀ k (h : k < act.length),
    b.s.nodeAt (BitVec.ofNat 10 k) = some (.leaf (BitVec.ofNat 9 act[k]) (s0.freqAt act[k]))
  merges : ∀ k, act.length ≤ k → k < b.n → b.s.MergesLeastTwo k

/-- The elements of PQ are the entries that no entry made so far has as a child. -/
theorem Builder.Grown.mem_pq {s0 : State} {act : List Nat} {b : Builder} (h : b.Grown s0 act) (j : Nat) :
    j ∈ b.pq.map PqEntry.i ↔ b.s.LiveBefore b.n j := by
  have hnd : (b.pq.map PqEntry.i ++ b.s.children b.n).Nodup := h.live.nodup_iff.2 List.nodup_range
  have hdisj := (List.nodup_append.1 hnd).2.2
  have hmem : ∀ x, x ∈ b.pq.map PqEntry.i ++ b.s.children b.n ↔ x < b.n := fun x => by
    rw [h.live.mem_iff, List.mem_range]
  constructor
  · intro hj
    exact ⟨(hmem j).1 (List.mem_append_left _ hj), fun hc => hdisj j hj j hc rfl⟩
  · intro ⟨hlt, hnc⟩
    rcases List.mem_append.1 ((hmem j).2 hlt) with hj | hj
    · exact hj
    · exact absurd hj hnc

theorem Builder.Grown.weightAt {s0 : State} {act : List Nat} {b : Builder} (h : b.Grown s0 act) {e : PqEntry}
    (he : e ∈ b.pq) : b.s.weightAt e.i = e.w.toNat := by
  obtain ⟨ts, hf, -, -⟩ := h.forest
  obtain ⟨k, hk, rfl⟩ := List.getElem_of_mem he
  have hkt : k < ts.length := by rw [← hf.length_eq]; exact hk
  obtain ⟨hs, hw⟩ := (List.forall₂_iff_get.1 hf).2 k hk hkt
  simp only [List.get_eq_getElem] at hs hw
  rw [hs.weightAt, hw]

theorem sameBelow_spells {n : Nat} {s s' : State} {t : HTree} {i : NodeIdx} (h : SameBelow n s s') (hi : i.toNat < n)
    (hc : ∀ k < n, ∀ j ∈ s.kids k, j < n) (hs : s.Spells t i) : s'.Spells t i := by
  induction t generalizing i with
  | leaf sym w => rw [State.Spells, ← h i hi]; exact hs
  | node w l r ihl ihr =>
    obtain ⟨a, b, hab, hl, hr⟩ := hs
    have hk : s.kids i.toNat = [a.toNat, b.toNat] := by
      rw [State.kids, show BitVec.ofNat 10 i.toNat = i by simp, hab]
    have := hc i.toNat hi
    rw [hk] at this
    exact ⟨a, b, by rw [← h i hi]; exact hab, ihl (this _ (by simp)) hl, ihr (this _ (by simp)) hr⟩

/-- R134, R135: a pass of the merge loop keeps the invariant. -/
theorem Builder.Grown.step {s0 : State} {act : List Nat} {b b' : Builder} (h : b.Grown s0 act)
    (hact : act.length ≤ 257) (htot : (act.map fun i => (s0.freqAt i).toNat).sum < 2 ^ 32)
    (hstep : mergeStep b = some b') : b'.Grown s0 act ∧ b'.pq.length + 1 = b.pq.length := by
  rw [mergeStep] at hstep
  cases h1 : extractMin b.pq with
  | none => simp [h1] at hstep
  | some p =>
    obtain ⟨left, rest⟩ := p
    rw [h1] at hstep
    simp only at hstep
    cases h2 : extractMin rest with
    | none => simp [h2] at hstep
    | some p =>
      obtain ⟨right, rest'⟩ := p
      rw [h2] at hstep
      simp only [Option.some.injEq] at hstep
      subst hstep
      obtain ⟨hp1, hm1⟩ := extractMin_spec h1
      obtain ⟨hp2, hm2⟩ := extractMin_spec h2
      have hp : b.pq.Perm (left :: right :: rest') := hp1.trans (hp2.cons left)
      have hlen : b.pq.length = rest'.length + 2 := by rw [hp.length_eq]; simp
      have hcount := h.count
      have hn : b.n < 513 := by omega
      have hmemL : left ∈ b.pq := hp.mem_iff.2 (by simp)
      have hmemR : right ∈ b.pq := hp.mem_iff.2 (by simp)
      have hLive : ∀ {e}, e ∈ b.pq → b.s.LiveBefore b.n e.i := fun he => (h.mem_pq _).1 (List.mem_map_of_mem he)
      have hLi := (hLive hmemL).1
      have hRi := (hLive hmemR).1
      have hLn : (BitVec.ofNat 10 left.i).toNat = left.i := toNat_ofNat_idx (by omega)
      have hRn : (BitVec.ofNat 10 right.i).toNat = right.i := toNat_ofNat_idx (by omega)
      have hidx : (b.pq.map PqEntry.i).Perm (left.i :: right.i :: rest'.map PqEntry.i) := by
        simpa using hp.map PqEntry.i
      have hnd : (left.i :: right.i :: rest'.map PqEntry.i).Nodup := by
        have : (b.pq.map PqEntry.i ++ b.s.children b.n).Nodup := h.live.nodup_iff.2 List.nodup_range
        exact hidx.nodup_iff.1 (List.nodup_append.1 this).1
      have hLR : left.i ≠ right.i := by
        intro he
        rw [List.nodup_cons] at hnd
        exact hnd.1 (by rw [he]; simp)
      -- the weights do not wrap
      have hws : left.w.toNat + right.w.toNat + (rest'.map fun e => e.w.toNat).sum =
          (act.map fun i => (s0.freqAt i).toNat).sum := by
        rw [← h.weights, (hp.map fun e => e.w.toNat).sum_eq]
        simp [add_assoc]
      have hadd : (left.w + right.w).toNat = left.w.toNat + right.w.toNat := by
        rw [BitVec.toNat_add]
        exact Nat.mod_eq_of_lt (by omega)
      -- the new entry
      let x : Node := .internal (left.w + right.w) (BitVec.ofNat 10 left.i) (BitVec.ofNat 10 right.i)
      have hsb : SameBelow b.n b.s (b.s.setNode b.n x) := fun k hk => (sameBelow_setNode b.s b.n x k hk).symm
      have hnew : (b.s.setNode b.n x).nodeAt (BitVec.ofNat 10 b.n) = some x := by
        rw [State.nodeAt_setNode, toNat_ofNat_idx (by omega), if_pos ⟨rfl, hn⟩]
      have hkidsN : (b.s.setNode b.n x).kids b.n = [left.i, right.i] := by
        rw [State.kids, hnew]
        simp only [x, hLn, hRn]
      have hch : (b.s.setNode b.n x).children (b.n + 1) = b.s.children b.n ++ [left.i, right.i] := by
        rw [State.children_succ, ← hsb.children le_rfl, hkidsN]
      have hcl : ∀ k < b.n, ∀ j ∈ b.s.kids k, j < b.n := fun k hk j hj => by
        have : j ∈ b.s.children b.n := by
          rw [State.children, List.mem_flatMap]
          exact ⟨k, List.mem_range.2 hk, hj⟩
        exact List.mem_range.1 (h.live.mem_iff.1 (List.mem_append_right _ this))
      refine ⟨⟨?_, ?_, ?_, ?_, ?_, ?_, ?_, ?_⟩, by simp only [List.length_cons]; omega⟩
      · show (b.s.setNode b.n x) = _
        rw [h.frame]
        rfl
      · simp only [List.length_cons]
        omega
      · have := h.leavesFirst
        show act.length ≤ b.n + 1
        omega
      · show ((b.n :: rest'.map PqEntry.i) ++ (b.s.setNode b.n x).children (b.n + 1)).Perm (List.range (b.n + 1))
        rw [hch, List.range_succ, List.cons_append]
        refine List.Perm.trans (List.Perm.cons b.n ?_) (List.perm_append_singleton b.n (List.range b.n)).symm
        refine List.Perm.trans ?_ h.live
        refine List.Perm.trans ?_ (hidx.symm.append_right _)
        rw [← List.append_assoc]
        refine (List.perm_append_comm).trans ?_
        simp
      · obtain ⟨ts, hf, hsym, hsz⟩ := h.forest
        obtain ⟨us, hus, hperm⟩ := List.perm_comp_forall₂ hp.symm hf
        match us, hus with
        | tl :: tr :: us, hus =>
          simp only [List.forall₂_cons] at hus
          obtain ⟨⟨hsl, hwl⟩, ⟨hsr, hwr⟩, hrest⟩ := hus
          have hmono : ∀ {t : HTree} {e : PqEntry}, e ∈ b.pq → b.s.Spells t (BitVec.ofNat 10 e.i) →
              (b.s.setNode b.n x).Spells t (BitVec.ofNat 10 e.i) := fun he hs => by
            have hi := (hLive he).1
            exact sameBelow_spells hsb (by rw [toNat_ofNat_idx (by omega)]; exact hi) hcl hs
          refine ⟨.node (left.w + right.w) tl tr :: us, ?_, ?_, ?_⟩
          · refine List.Forall₂.cons ⟨⟨_, _, hnew, hmono hmemL hsl, hmono hmemR hsr⟩, rfl⟩ ?_
            rw [List.forall₂_iff_get] at hrest ⊢
            refine ⟨hrest.1, fun i h1 h2 => ?_⟩
            obtain ⟨hs, hw⟩ := hrest.2 i h1 h2
            exact ⟨hmono (hp.mem_iff.2 (by simp)) hs, hw⟩
          · simp only [List.flatMap_cons, HTree.symbols_node, List.append_assoc]
            refine List.Perm.trans ?_ hsym
            have := hperm.flatMap_right HTree.symbols
            simpa using this
          · have := (hperm.map HTree.size).sum_eq
            simp only [List.map_cons, List.sum_cons, HTree.size] at this ⊢
            omega
      · simp only [List.map_cons, List.sum_cons, hadd]
        exact hws
      · intro k hk
        have := h.leavesFirst
        show (b.s.setNode b.n x).nodeAt _ = _
        rw [← hsb _ (by rw [toNat_ofNat_idx (by omega)]; omega)]
        exact h.leaves k hk
      · intro k hk1 hk2
        show (b.s.setNode b.n x).MergesLeastTwo k
        have hk2 : k < b.n + 1 := hk2
        by_cases hkn : k < b.n
        · exact hsb.mergesLeastTwo hkn (by omega) (h.merges k hk1 hkn)
        · obtain rfl : k = b.n := by omega
          have hw : ∀ {e}, e ∈ b.pq → (b.s.setNode b.n x).weightAt e.i = e.w.toNat := fun he => by
            rw [← hsb.weightAt (hLive he).1, h.weightAt he]
          have hofLive : ∀ {j}, (b.s.setNode b.n x).LiveBefore b.n j → ∃ e ∈ b.pq, e.i = j := fun hj => by
            have := (h.mem_pq _).2 ((hsb.liveBefore le_rfl).2 hj)
            simpa using this
          refine ⟨_, _, _, hnew, ?_, ?_, ?_, ?_, ?_, ?_⟩
          · rw [hLn, hRn, hw hmemL, hw hmemR, hadd]
          · rw [hLn]
            exact (hsb.liveBefore le_rfl).1 (hLive hmemL)
          · rw [hRn]
            exact (hsb.liveBefore le_rfl).1 (hLive hmemR)
          · intro he
            have := congrArg BitVec.toNat he
            rw [hLn, hRn] at this
            exact hLR this
          · intro j hj
            obtain ⟨e, he, rfl⟩ := hofLive hj
            rw [State.KeyLe, hLn, hw hmemL, hw he]
            exact hm1 e he
          · intro j hj hne
            obtain ⟨e, he, rfl⟩ := hofLive hj
            rw [hLn] at hne
            rw [State.KeyLe, hRn, hw hmemR, hw he]
            refine hm2 e ?_
            rcases List.mem_cons.1 (hp1.mem_iff.1 he) with rfl | hr
            · exact absurd rfl hne
            · exact hr

theorem mergeStep_eq_none {b : Builder} (h : mergeStep b = none) : b.pq.length < 2 := by
  rw [mergeStep] at h
  cases h1 : extractMin b.pq with
  | none =>
    rw [extractMin_eq_none] at h1
    simp [h1]
  | some p =>
    obtain ⟨left, rest⟩ := p
    rw [h1] at h
    simp only at h
    cases h2 : extractMin rest with
    | none =>
      rw [extractMin_eq_none] at h2
      have := (extractMin_spec h1).1.length_eq
      rw [h2] at this
      simp [this]
    | some p => simp [h2] at h

/-- R134: the merge loop ends with at most one element in PQ. -/
theorem mergeAll_grown {s0 : State} {act : List Nat} (hact : act.length ≤ 257)
    (htot : (act.map fun i => (s0.freqAt i).toNat).sum < 2 ^ 32) (fuel : Nat) (b : Builder) (h : b.Grown s0 act)
    (hf : b.pq.length ≤ fuel) : (mergeAll fuel b).Grown s0 act ∧ (mergeAll fuel b).pq.length < 2 := by
  induction fuel generalizing b with
  | zero => exact ⟨h, by rw [mergeAll]; omega⟩
  | succ fuel ih =>
    rw [mergeAll]
    cases hs : mergeStep b with
    | none => exact ⟨h, mergeStep_eq_none hs⟩
    | some b' =>
      obtain ⟨h', hl⟩ := h.step hact htot hs
      exact ih b' h' (by omega)

/-! ### The whole of BUILD_TREE after its checks -/

theorem State.freqAt_eq_getElem (s : State) {i : Nat} (h : i < 257) : s.freqAt i = s.freq[i] := by
  simp [State.freqAt, h]

/-- R134: the exact sum is the sum over the active symbols. -/
theorem State.freqSum_eq (s : State) : s.freqSum = (s.activeSymbols.map fun i => (s.freqAt i).toNat).sum := by
  have h1 : s.freq.toList = (List.range 257).map s.freqAt := by
    apply List.ext_getElem (by simp)
    intro i h1 h2
    simp only [List.length_map, List.length_range] at h2
    simp [State.freqAt_eq_getElem s h2]
  rw [State.freqSum, h1, State.activeSymbols, List.map_map]
  generalize List.range 257 = l
  induction l with
  | nil => rfl
  | cons a l ih =>
    rw [List.filter_cons]
    by_cases ha : s.freqAt a = 0
    · rw [if_neg (by simpa using ha), List.map_cons, List.sum_cons, ih]
      simp [ha]
    · rw [if_pos (by simpa using ha), List.map_cons, List.sum_cons, ih, List.map_cons, List.sum_cons]
      rfl

theorem State.activeSymbols_length (s : State) : s.activeSymbols.length ≤ 257 := by
  have := List.length_filter_le (fun i => decide (s.freqAt i ≠ 0)) (List.range 257)
  simpa [State.activeSymbols] using this

theorem State.activeSymbols_nodup (s : State) : s.activeSymbols.Nodup :=
  List.nodup_range.filter _

theorem State.mem_activeSymbols {s : State} {i : Nat} : i ∈ s.activeSymbols ↔ i ≤ 256 ∧ s.freqAt i ≠ 0 := by
  simp only [State.activeSymbols, List.mem_filter, List.mem_range, decide_eq_true_eq]
  constructor
  · exact fun ⟨h1, h2⟩ => ⟨by have : i < 257 := h1; omega, h2⟩
  · exact fun ⟨h1, h2⟩ => ⟨show i < 257 by omega, h2⟩

/-- The children of leaves: none. -/
theorem State.children_of_leaves {s : State} {n : Nat}
    (h : ∀ k < n, ∃ sym w, s.nodeAt (BitVec.ofNat 10 k) = some (.leaf sym w)) : s.children n = [] := by
  rw [State.children, List.flatMap_eq_nil_iff]
  intro k hk
  obtain ⟨sym, w, h⟩ := h k (List.mem_range.1 hk)
  rw [State.kids, h]

/-- A row of leaves, one for each symbol with its weight. -/
theorem leafRow_symbols (f : Nat → Word) (l : List (Nat × Nat)) :
    (l.map fun p => HTree.leaf (BitVec.ofNat 9 p.1) (f p.1)).flatMap HTree.symbols =
      (l.map Prod.fst).map fun i => BitVec.ofNat 9 i := by
  induction l with
  | nil => rfl
  | cons p l ih => simp [ih]

theorem leafRow_sizes (f : Nat → Word) (l : List (Nat × Nat)) :
    ((l.map fun p => HTree.leaf (BitVec.ofNat 9 p.1) (f p.1)).map HTree.size).sum = l.length := by
  induction l with
  | nil => rfl
  | cons p l ih =>
    rw [List.map_cons, List.map_cons, List.sum_cons, ih, List.length_cons, HTree.size]
    omega

/-- R134: the invariant of the merge loop holds when the leaves have been placed. -/
theorem placeLeaves_grown (s : State) : (placeLeaves s).Grown s s.activeSymbols := by
  obtain ⟨node, h1, h2, h3, h4⟩ := placeLeaves_spec s (List.range Config.nsym) (by simp)
  change (placeLeaves s).s = _ at h1
  change (placeLeaves s).n = s.activeSymbols.length at h2
  change (placeLeaves s).pq = (s.activeSymbols.zipIdx.map fun p => ⟨s.freqAt p.1, p.2⟩).reverse at h3
  change ∀ k (h : k < s.activeSymbols.length), ({ s with node := node } : State).nodeAt (BitVec.ofNat 10 k) =
    some (.leaf (BitVec.ofNat 9 s.activeSymbols[k]) (s.freqAt s.activeSymbols[k])) at h4
  have hlen := s.activeSymbols_length
  have hch : ({ s with node := node } : State).children s.activeSymbols.length = [] :=
    State.children_of_leaves fun k hk => ⟨_, _, h4 k hk⟩
  have hidx : (s.activeSymbols.zipIdx.map Prod.snd) = List.range s.activeSymbols.length := by
    rw [List.zipIdx_map_snd, List.range_eq_range']
  have hval : (s.activeSymbols.zipIdx.map Prod.fst) = s.activeSymbols := List.zipIdx_map_fst _ _
  refine ⟨by rw [h1], by rw [h2, h3]; simp; omega, by rw [h2], ?_, ?_, ?_, ?_, ?_⟩
  · rw [h1, h2, hch, h3, List.append_nil, List.map_reverse, List.map_map]
    refine (List.reverse_perm _).trans (List.Perm.of_eq ?_)
    rw [← hidx]
    rfl
  · refine ⟨(s.activeSymbols.zipIdx.map fun p => HTree.leaf (BitVec.ofNat 9 p.1) (s.freqAt p.1)).reverse, ?_, ?_, ?_⟩
    · rw [h3, h1, List.forall₂_reverse_iff, List.forall₂_map_left_iff, List.forall₂_map_right_iff]
      refine List.forall₂_same.2 fun p hp => ⟨?_, rfl⟩
      obtain ⟨v, k⟩ := p
      obtain ⟨hk, hv⟩ := List.mem_zipIdx' hp
      simp only at hk hv ⊢
      rw [State.Spells, h4 k hk, hv]
    · refine ((List.reverse_perm _).flatMap_right _).trans (List.Perm.of_eq ?_)
      rw [leafRow_symbols, hval]
    · rw [(((List.reverse_perm _).map HTree.size)).sum_eq, leafRow_sizes, List.length_zipIdx, h2]
  · rw [h3, (((List.reverse_perm _).map fun e : PqEntry => e.w.toNat)).sum_eq, List.map_map]
    conv_rhs => rw [← hval, List.map_map]
    rfl
  · rw [h1]
    exact h4
  · intro k hk1 hk2
    omega

/-- R134 to R138: what BUILD_TREE's tree is, in the arena `s'` it wrote from the counts of `s`. -/
structure BuiltTree (s s' : State) (t : HTree) : Prop where
  spells : s'.Spells t (BitVec.ofNat 10 (2 * s.activeSymbols.length - 2))
  weight : t.weight.toNat = s.freqSum
  symbols : t.symbols.Perm (s.activeSymbols.map fun i => BitVec.ofNat 9 i)
  eachOnce : ((2 * s.activeSymbols.length - 2) :: s'.children (2 * s.activeSymbols.length - 1)).Perm
    (List.range (2 * s.activeSymbols.length - 1))
  leaves : ∀ k (h : k < s.activeSymbols.length),
    s'.nodeAt (BitVec.ofNat 10 k) = some (.leaf (BitVec.ofNat 9 s.activeSymbols[k]) (s.freqAt s.activeSymbols[k]))
  merges : ∀ k, s.activeSymbols.length ≤ k → k < 2 * s.activeSymbols.length - 1 → s'.MergesLeastTwo k

/-- R134 to R138: BUILD_TREE after its checks. -/
theorem growTree_ok {s : State} (h256 : s.freqAt 256 ≠ 0) (hsum : s.freqSum ≤ Config.maxTotal) :
    ∃ node t, BuiltTree s { s with node := node } t ∧
      growTree s = .ok (({ s with node := node } : State).publishTree (2 * s.activeSymbols.length - 2)
        (2 * s.activeSymbols.length - 1) s.activeSymbols.length t.weight) := by
  have hlen := s.activeSymbols_length
  have hpos : 0 < s.activeSymbols.length := List.length_pos_of_mem (State.mem_activeSymbols.2 ⟨le_rfl, h256⟩)
  have h0 := placeLeaves_grown s
  have hn0 : (placeLeaves s).n = s.activeSymbols.length := by
    have h1 := placeLeaves_spec s (List.range Config.nsym) (by simp)
    exact h1.choose_spec.2.1
  have hpq0 : (placeLeaves s).pq.length = s.activeSymbols.length := by have := h0.count; omega
  have htot : (s.activeSymbols.map fun i => (s.freqAt i).toNat).sum < 2 ^ 32 := by
    rw [← s.freqSum_eq]
    have : s.freqSum ≤ 4294967295 := hsum
    omega
  obtain ⟨hg, hlt⟩ := mergeAll_grown hlen htot (placeLeaves s).n _ h0 (by omega)
  rw [growTree]
  generalize mergeAll (placeLeaves s).n (placeLeaves s) = b at hg hlt ⊢
  have hcount := hg.count
  have hlive := hg.live
  obtain ⟨ts, hf, hsym, -⟩ := hg.forest
  have hws := hg.weights
  rw [publishRoot]
  match hpq : b.pq with
  | [] =>
    -- PQ cannot be empty: the entry made last is no child
    rw [hpq] at hcount hf
    cases hf
    have := hsym.length_eq
    simp at this
    omega
  | root :: root2 :: rest =>
    rw [hpq] at hlt
    simp at hlt
  | [root] =>
    rw [hpq] at hcount hlive hf hws
    have hbn : b.n = 2 * s.activeSymbols.length - 1 := by
      simp only [List.length_singleton] at hcount
      omega
    match ts, hf with
    | [t], hf =>
      simp only [List.forall₂_cons, List.forall₂_nil_right_iff, and_true] at hf
      obtain ⟨hsp, hwt⟩ := hf
      simp only [List.map_cons, List.map_nil, List.singleton_append] at hlive
      -- the root is the entry made last: the children of every entry were made before it
      have hroot : root.i = 2 * s.activeSymbols.length - 2 := by
        have hin : 2 * s.activeSymbols.length - 2 ∈ root.i :: b.s.children b.n :=
          hlive.mem_iff.2 (List.mem_range.2 (by omega))
        rcases List.mem_cons.1 hin with h | h
        · exact h.symm
        · exfalso
          rw [State.children, List.mem_flatMap] at h
          obtain ⟨k, hk, hj⟩ := h
          have hk := List.mem_range.1 hk
          by_cases hkl : k < s.activeSymbols.length
          · rw [State.kids, hg.leaves k hkl] at hj
            simp at hj
          · obtain ⟨w, l, r, hn, -, hl, hr, -⟩ := hg.merges k (by omega) hk
            rw [State.kids, hn] at hj
            have := hl.1
            have := hr.1
            simp only [List.mem_cons, List.not_mem_nil, or_false] at hj
            omega
      have hframe : ({ s with node := b.s.node } : State) = b.s := hg.frame.symm
      refine ⟨b.s.node, t, ⟨?_, ?_, ?_, ?_, ?_, ?_⟩, ?_⟩
      · rw [hframe, ← hroot]
        exact hsp
      · rw [hwt, s.freqSum_eq, ← hws]
        simp
      · simpa using hsym
      · rw [hframe, ← hroot, ← hbn]
        exact hlive
      · rw [hframe]
        exact hg.leaves
      · rw [hframe]
        intro k h1 h2
        exact hg.merges k h1 (by omega)
      · simp only
        rw [hframe, hroot, hbn, hn0, hwt]

end Sys2Proof.Machine
end

