-- ==== Sys2Proof/Laws/Frames.lean ====
section
/-! SUPPORT. What a command body can change, from any state: a relation that every primitive operation of a body keeps is
kept by the body. -/

namespace Sys2Proof.Machine

/-- The body of each command (R130 to R216). -/
def bodyOf : Instr → State → Run
  | .nop => .ok
  | .count => countBody
  | .buildTree => buildTreeBody
  | .genCodes => genCodesBody
  | .writeHeader => writeHeaderBody
  | .readHeader => readHeaderBody
  | .encodeBody => encodeBodyBody
  | .decodeBody => decodeBodyBody
  | .writeMagic => writeMagicBody
  | .checkMagic => checkMagicBody
  | .rewindIn => rewindInBody
  | .closeOut => closeOutBody
  | .compress => compressBody
  | .decompress => decompressBody

/-- R232: performing a command is its body and then the completion. -/
theorem exec_eq_finish (i : Instr) (s : State) : exec i s = finish (bodyOf i s) := by cases i <;> rfl

/-- A relation between the state before and the state after that can be chained. -/
structure Chains (R : State → State → Prop) : Prop where
  refl : ∀ s, R s s
  trans : ∀ {s t u}, R s t → R t u → R s u

namespace Chains

variable {R : State → State → Prop}

theorem andThen (h : Chains R) {s : State} {r : Run} {k : State → Run} (hr : R s r.state)
    (hk : ∀ t, r = .ok t → R t (k t).state) : R s (r.andThen k).state := by
  cases r with
  | ok t => exact h.trans hr (hk t rfl)
  | raised c t => exact hr
  | stuck f t => exact hr

theorem require (h : Chains R) (s : State) (b : Bool) (c : ErrCode) : R s (s.require b c).state := by
  cases b <;> exact h.refl s

theorem countLoop (h : Chains R) (hr : ∀ s n, R s (s.readBits n).2) (he : ∀ s, R s s.inToEnd) (hf : ∀ s i w, R s (s.setFreq i w)) (fuel n : Nat)
    (s : State) : R s (Machine.countLoop fuel n s).state := by
  induction fuel generalizing n s with
  | zero => exact he s
  | succ fuel ih =>
    rw [Machine.countLoop]
    have h1 : R s s.readByte.2 := hr s _
    rcases hb : s.readByte with ⟨o, t⟩
    rw [hb] at h1
    cases o with
    | none => exact h1
    | some v =>
      simp only
      split
      · exact h1
      · exact h.trans h1 (h.trans (hf _ _ _) (ih _ _))

theorem encodeLoop (h : Chains R) (hr : ∀ s n, R s (s.readBits n).2) (he : ∀ s, R s s.inToEnd) (hw : ∀ s bs, R s (s.writeStr bs)) (fuel : Nat)
    (s : State) : R s (Machine.encodeLoop fuel s).state := by
  induction fuel generalizing s with
  | zero => exact he s
  | succ fuel ih =>
    rw [Machine.encodeLoop]
    have h1 : R s s.readByte.2 := hr s _
    rcases hb : s.readByte with ⟨o, t⟩
    rw [hb] at h1
    cases o with
    | none => exact h1
    | some v =>
      simp only
      split
      · exact h.trans h1 (h.trans (hw _ _) (ih _))
      · exact h1

theorem decodeLoop (h : Chains R) (hr : ∀ s n, R s (s.readBits n).2) (he : ∀ s, R s s.inToEnd) (hw : ∀ s bs, R s (s.writeStr bs))
    (hd : ∀ s d, R s (s.setDec d)) (fuel : Nat) (p : NodeIdx) (s : State) :
    R s (Machine.decodeLoop fuel p s).state := by
  induction fuel generalizing p s with
  | zero => exact he s
  | succ fuel ih =>
    rw [Machine.decodeLoop]
    have h1 : R s s.readBit.2 := hr s _
    rcases hb : s.readBit with ⟨o, t⟩
    rw [hb] at h1
    cases o with
    | none => exact h1
    | some v =>
      simp only
      split
      · split
        · split
          · exact h.trans h1 (hd _ _)
          · exact h.trans h1 (h.trans (hw _ _) (ih _ _))
        · exact h.trans h1 (ih _ _)
        · exact h1
      · exact h1

theorem visit (h : Chains R) (hc : ∀ s i e, R s (s.setCode i e)) (room : Nat) (i : NodeIdx) (c : Bits) (s : State) :
    R s (Machine.visit room i c s).state := by
  induction room generalizing i c s with
  | zero => exact h.refl s
  | succ room ih =>
    rw [Machine.visit]
    split
    · exact h.refl s
    · split
      · exact h.refl s
      · exact hc _ _ _
    · exact h.andThen (ih _ _ _) fun _ _ => ih _ _ _

theorem emit (h : Chains R) (hw : ∀ s bs, R s (s.writeStr bs)) (room : Nat) (i : NodeIdx) (s : State) :
    R s (Machine.emit room i s).state := by
  induction room generalizing i s with
  | zero => exact h.refl s
  | succ room ih =>
    rw [Machine.emit]
    split
    · exact h.refl s
    · exact h.trans (hw _ _) (hw _ _)
    · exact h.andThen (h.trans (hw _ _) (ih _ _)) fun _ _ => ih _ _

end Chains

/-- The state a Parse call has written when it ends, however it ends. -/
def Parse.state : Parse → State
  | .ok _ _ _ s => s
  | .raised _ s => s
  | .stuck s => s

theorem Chains.parseLeaf {R : State → State → Prop} (h : Chains R) (hr : ∀ s n, R s (s.readBits n).2)
    (hn : ∀ s i x, R s (s.setNode i x)) (i leaves : Nat) (s : State) : R s (Machine.parseLeaf i leaves s).state := by
  rw [Machine.parseLeaf]
  have h1 : R s s.readSym.2 := hr s _
  rcases hb : s.readSym with ⟨o, t⟩
  rw [hb] at h1
  cases o with
  | none => exact h1
  | some v =>
    simp only
    split
    · exact h.trans h1 (hn _ _ _)
    · exact h1

theorem Chains.parse {R : State → State → Prop} (h : Chains R) (hr : ∀ s n, R s (s.readBits n).2)
    (hn : ∀ s i x, R s (s.setNode i x)) (depth n leaves : Nat) (s : State) :
    R s (Machine.parse depth n leaves s).state := by
  induction depth generalizing n leaves s with
  | zero => exact h.refl s
  | succ depth ih =>
    rw [Machine.parse]
    have h1 : R s s.readBit.2 := hr s _
    rcases hb : s.readBit with ⟨o, t⟩
    rw [hb] at h1
    cases o with
    | none => exact h1
    | some v =>
      simp only
      split
      · exact h1
      · split
        · exact h.trans h1 (h.parseLeaf hr hn _ _ _)
        · refine h.trans h1 ?_
          have h2 := ih (n + 1) leaves t
          cases hp : Machine.parse depth (n + 1) leaves t with
          | raised c u => rw [hp] at h2; exact h2
          | stuck u => rw [hp] at h2; exact h2
          | ok l n1 leaves1 u =>
            rw [hp] at h2
            refine h.trans h2 ?_
            have h3 := ih n1 leaves1 u
            rw [Parse.ok_andThen]
            cases hq : Machine.parse depth n1 leaves1 u with
            | raised c v => rw [hq] at h3; exact h3
            | stuck v => rw [hq] at h3; exact h3
            | ok r n2 leaves2 v =>
              rw [hq] at h3
              exact h.trans h3 (hn _ _ _)

/-! ### Every command body, from any state -/

/-- The kinds of primitive operation that command bodies are made of. -/
inductive Effect where
  /-- ReadBits (R71) -/
  | read
  /-- Rewind (R73) -/
  | rewind
  /-- WriteBits (R72) -/
  | write
  /-- Close (R74) -/
  | close
  /-- a write of DEC_STATE (R56) -/
  | dec
  /-- a write of FREQ (R38) -/
  | freq
  /-- a write of NODE, TREE_VALID and the result registers (R41, R50) -/
  | tree
  /-- a write of the code table, CODE_VALID and MAX_LEN (R45, R50) -/
  | codes
  deriving DecidableEq, Repr

/-- R50, R82: the kinds of operation that each command uses. -/
def effectsOf : Instr → List Effect
  | .nop => []
  | .count => [.read, .freq]
  | .buildTree => [.tree]
  | .genCodes => [.codes]
  | .writeHeader => [.write]
  | .readHeader => [.read, .tree]
  | .encodeBody => [.read, .write]
  | .decodeBody => [.read, .write, .dec]
  | .writeMagic => [.write]
  | .checkMagic => [.read]
  | .rewindIn => [.rewind]
  | .closeOut => [.close]
  | .compress => [.read, .rewind, .write, .close, .freq, .tree, .codes]
  | .decompress => [.read, .write, .close, .dec, .tree]

/-- The operations of the kinds in `es` keep `R`. -/
structure Keeps (es : List Effect) (R : State → State → Prop) : Prop extends Chains R where
  read : .read ∈ es → ∀ s n, R s (s.readBits n).2
  toEnd : .read ∈ es → ∀ s, R s s.inToEnd
  rewind : .rewind ∈ es → ∀ s, R s s.rewind
  write : .write ∈ es → ∀ s bs, R s (s.writeStr bs)
  close : .close ∈ es → ∀ s, R s s.close
  dec : .dec ∈ es → ∀ s d, R s (s.setDec d)
  clearFreq : .freq ∈ es → ∀ s, R s s.clearFreq
  freq : .freq ∈ es → ∀ s i w, R s (s.setFreq i w)
  dropTree : .tree ∈ es → ∀ s, R s s.dropTree
  node : .tree ∈ es → ∀ s i x, R s (s.setNode i x)
  publishTree : .tree ∈ es → ∀ s a b c w, R s (s.publishTree a b c w)
  dropCodes : .codes ∈ es → ∀ s, R s s.dropCodes
  code : .codes ∈ es → ∀ s i e, R s (s.setCode i e)
  publishCodes : .codes ∈ es → ∀ s, R s s.publishCodes

/-- A relation kept by more operations is kept by fewer. -/
theorem Keeps.mono {es es' : List Effect} {R : State → State → Prop} (h : Keeps es R) (hs : ∀ e ∈ es', e ∈ es) :
    Keeps es' R :=
  ⟨h.toChains, fun m => h.read (hs _ m), fun m => h.toEnd (hs _ m), fun m => h.rewind (hs _ m),
    fun m => h.write (hs _ m), fun m => h.close (hs _ m), fun m => h.dec (hs _ m), fun m => h.clearFreq (hs _ m),
    fun m => h.freq (hs _ m), fun m => h.dropTree (hs _ m), fun m => h.node (hs _ m), fun m => h.publishTree (hs _ m),
    fun m => h.dropCodes (hs _ m), fun m => h.code (hs _ m), fun m => h.publishCodes (hs _ m)⟩

namespace Keeps

variable {R : State → State → Prop}

theorem count (h : Keeps (effectsOf .count) R) (s : State) : R s (countBody s).state :=
  h.andThen (h.trans ((h.clearFreq (by decide)) s) (h.countLoop (h.read (by decide)) (h.toEnd (by decide)) (h.freq (by decide)) _ _ _)) fun t _ => h.freq (by decide) t _ _

theorem placeLeaf (h : Keeps (effectsOf .buildTree) R) (b : Builder) (sym : Nat) : R b.s (Machine.placeLeaf b sym).s := by
  unfold Machine.placeLeaf
  split
  · exact h.refl _
  · exact (h.node (by decide)) _ _ _

theorem placeLeaves (h : Keeps (effectsOf .buildTree) R) (syms : List Nat) (b : Builder) : R b.s (syms.foldl Machine.placeLeaf b).s := by
  induction syms generalizing b with
  | nil => exact h.refl _
  | cons i syms ih => exact h.trans (h.placeLeaf b i) (ih _)

theorem mergeStep (h : Keeps (effectsOf .buildTree) R) {b b' : Builder} (hb : Machine.mergeStep b = some b') : R b.s b'.s := by
  unfold Machine.mergeStep at hb
  split at hb
  · cases hb
  · split at hb
    · cases hb
    · cases hb
      exact (h.node (by decide)) _ _ _

theorem mergeAll (h : Keeps (effectsOf .buildTree) R) (fuel : Nat) (b : Builder) : R b.s (Machine.mergeAll fuel b).s := by
  induction fuel generalizing b with
  | zero => exact h.refl _
  | succ fuel ih =>
    rw [Machine.mergeAll]
    split
    · exact h.refl _
    · rename_i b' hb
      exact h.trans (h.mergeStep hb) (ih b')

theorem growTree (h : Keeps (effectsOf .buildTree) R) (s : State) : R s (Machine.growTree s).state := by
  rw [Machine.growTree, publishRoot]
  have h1 : R s (Machine.mergeAll (Machine.placeLeaves s).n (Machine.placeLeaves s)).s :=
    h.trans (h.placeLeaves _ ⟨s, 0, []⟩) (h.mergeAll _ _)
  split
  · exact h1
  · exact h.trans h1 ((h.publishTree (by decide)) _ _ _ _ _)

theorem buildTree (h : Keeps (effectsOf .buildTree) R) (s : State) : R s (buildTreeBody s).state :=
  h.andThen (h.trans ((h.dropTree (by decide)) s) (h.require _ _ _)) fun _ _ =>
    h.andThen (h.require _ _ _) fun u _ => h.growTree u

theorem genCodes (h : Keeps (effectsOf .genCodes) R) (s : State) : R s (genCodesBody s).state :=
  h.andThen (h.trans ((h.dropCodes (by decide)) s) (h.require _ _ _)) fun _ _ =>
    h.andThen (h.visit (h.code (by decide)) _ _ _ _) fun u _ => (h.publishCodes (by decide)) u

theorem writeHeader (h : Keeps (effectsOf .writeHeader) R) (s : State) : R s (writeHeaderBody s).state :=
  h.andThen (h.require _ _ _) fun _ _ => h.andThen (h.require _ _ _) fun _ _ => h.emit (h.write (by decide)) _ _ _

theorem readHeader (h : Keeps (effectsOf .readHeader) R) (s : State) : R s (readHeaderBody s).state := by
  have h1 : R s (Machine.parse (Config.nodeCap + 1) 0 0 s.dropTree).state :=
    h.trans ((h.dropTree (by decide)) s) (h.parse (h.read (by decide)) (h.node (by decide)) _ _ _ _)
  rw [readHeaderBody]
  split <;> rename_i hp <;> rw [hp] at h1
  · exact h.trans h1 ((h.publishTree (by decide)) _ _ _ _ _)
  · exact h1
  · exact h1

theorem encodeBody (h : Keeps (effectsOf .encodeBody) R) (s : State) : R s (encodeBodyBody s).state :=
  h.andThen (h.require _ _ _) fun _ _ => h.andThen (h.require _ _ _) fun _ _ => h.andThen (h.require _ _ _) fun _ _ =>
    h.andThen (h.encodeLoop (h.read (by decide)) (h.toEnd (by decide)) (h.write (by decide)) _ _) fun _ _ => (h.write (by decide)) _ _

theorem decodeWalk (h : Keeps (effectsOf .decodeBody) R) (s : State) : R s (Machine.decodeWalk s).state := by
  rw [Machine.decodeWalk]
  split
  · exact h.refl s
  · split
    · exact (h.dec (by decide)) _ _
    · exact h.refl s
  · exact h.decodeLoop (h.read (by decide)) (h.toEnd (by decide)) (h.write (by decide)) (h.dec (by decide)) _ _ _

theorem decodeBody (h : Keeps (effectsOf .decodeBody) R) (s : State) : R s (decodeBodyBody s).state := by
  have h1 : R s (((s.setDec .walking).require s.status.treeValid .noTree).andThen fun s1 =>
      (s1.require (!s1.out.closed) .outClosed).andThen Machine.decodeWalk).state :=
    h.andThen (h.trans ((h.dec (by decide)) s _) (h.require _ _ _)) fun t _ =>
      h.andThen (h.require _ _ _) fun u _ => h.decodeWalk u
  rw [decodeBodyBody]
  cases hr : (((s.setDec .walking).require s.status.treeValid .noTree).andThen fun s1 =>
      (s1.require (!s1.out.closed) .outClosed).andThen Machine.decodeWalk) with
  | ok t => rw [hr] at h1; exact h1
  | raised c t => rw [hr] at h1; exact h.trans h1 ((h.dec (by decide)) _ _)
  | stuck f t => rw [hr] at h1; exact h1

theorem writeMagic (h : Keeps (effectsOf .writeMagic) R) (s : State) : R s (writeMagicBody s).state :=
  h.andThen (h.require _ _ _) fun _ _ => (h.write (by decide)) _ _

theorem checkMagic (h : Keeps (effectsOf .checkMagic) R) (s : State) : R s (checkMagicBody s).state := by
  have h1 : R s s.readMagic.2 := (h.read (by decide)) s _
  rw [checkMagicBody]
  rcases hb : s.readMagic with ⟨o, t⟩
  rw [hb] at h1
  cases o with
  | none => exact h1
  | some v => simp only; split <;> exact h1

theorem compress (h : Keeps (effectsOf .compress) R) (s : State) : R s (compressBody s).state :=
  h.andThen ((h.mono (by decide)).count s) fun _ _ => h.andThen (h.rewind (by decide) _) fun _ _ =>
    h.andThen ((h.mono (by decide)).buildTree _) fun _ _ => h.andThen ((h.mono (by decide)).genCodes _) fun _ _ =>
      h.andThen ((h.mono (by decide)).writeMagic _) fun _ _ => h.andThen ((h.mono (by decide)).writeHeader _) fun _ _ =>
        h.andThen ((h.mono (by decide)).encodeBody _) fun _ _ => h.close (by decide) _

theorem decompress (h : Keeps (effectsOf .decompress) R) (s : State) : R s (decompressBody s).state :=
  h.andThen ((h.mono (by decide)).checkMagic s) fun _ _ => h.andThen ((h.mono (by decide)).readHeader _) fun _ _ =>
    h.andThen ((h.mono (by decide)).decodeBody _) fun _ _ => h.close (by decide) _

/-- A relation that the operations of a command keep is kept by its body, however it ends. -/
theorem body {i : Instr} (h : Keeps (effectsOf i) R) (s : State) : R s (bodyOf i s).state := by
  cases i with
  | nop => exact h.refl s
  | count => exact h.count s
  | buildTree => exact h.buildTree s
  | genCodes => exact h.genCodes s
  | writeHeader => exact h.writeHeader s
  | readHeader => exact h.readHeader s
  | encodeBody => exact h.encodeBody s
  | decodeBody => exact h.decodeBody s
  | writeMagic => exact h.writeMagic s
  | checkMagic => exact h.checkMagic s
  | rewindIn => exact h.rewind (by decide) s
  | closeOut => exact h.close (by decide) s
  | compress => exact h.compress s
  | decompress => exact h.decompress s

end Keeps

end Sys2Proof.Machine
end

