-- ==== Sys2Proof/Laws/Bodies.lean ====
section
/-! SUPPORT. What each command body does: one lemma for each way it can go (R130 to R216). -/

namespace Sys2Proof.Machine

/-! ### COUNT -/

theorem countBody_ok {s : State} {bytes : List (BitVec 8)} {tail : Bits} (h : s.unread = bitsOfBytes bytes ++ tail)
    (ht : tail.length < 8) (hn : bytes.length < 4294967295) :
    countBody s = .ok (((s.clearFreq.tally bytes).inToEnd).setFreq Config.sentinel 1) := by
  rw [countBody, countLoop_of_unread (s := s.clearFreq) (fuel := s.bitsLeft) h ht (Nat.le_refl _) (by omega)]
  rfl

theorem countBody_overflow {s : State} {bytes : List (BitVec 8)} {b : BitVec 8} {x : Bits}
    (h : s.unread = bitsOfBytes bytes ++ (bin 8 b.toNat ++ x)) (hn : bytes.length = 4294967294) :
    countBody s = .raised .overflow ((s.clearFreq.tally bytes).seek (s.inp.pos + 8 * (bytes.length + 1))) := by
  rw [countBody, countLoop_overflow (s := s.clearFreq) (fuel := s.bitsLeft) h (Nat.le_refl _) (by omega)]
  rfl

/-- COUNT ends in one of two ways (R131). -/
theorem countBody_cases (s : State) :
    (∃ bytes tail, s.unread = bitsOfBytes bytes ++ tail ∧ tail.length < 8 ∧ bytes.length < 4294967295) ∨
      ∃ bytes b x, s.unread = bitsOfBytes bytes ++ (bin 8 (b : BitVec 8).toNat ++ x) ∧ bytes.length = 4294967294 := by
  obtain ⟨bytes, tail, he, ht⟩ := exists_bytes s.unread
  by_cases hn : bytes.length < 4294967295
  · exact .inl ⟨bytes, tail, he, ht, hn⟩
  · right
    have hd : bytes = bytes.take 4294967294 ++ (bytes[4294967294] :: bytes.drop (4294967294 + 1)) := by
      rw [← List.drop_eq_getElem_cons, List.take_append_drop]
    refine ⟨bytes.take 4294967294, bytes[4294967294], bitsOfBytes (bytes.drop (4294967294 + 1)) ++ tail, ?_, by
      rw [List.length_take]; omega⟩
    rw [he]
    conv_lhs => rw [hd, bitsOfBytes_append, bitsOfBytes_cons]
    simp only [List.append_assoc]

/-- What COUNT leaves in FREQ (R130, R132). -/
theorem freqAt_counted (s : State) (bytes : List (BitVec 8)) (i : Nat) :
    (((s.clearFreq.tally bytes).inToEnd).setFreq Config.sentinel 1).freqAt i =
      if i = 256 then 1 else BitVec.ofNat 32 ((bytes.map BitVec.toNat).count i) := by
  rw [State.freqAt_setFreq]
  by_cases hi : i = 256
  · subst hi
    rfl
  · rw [if_neg (fun h => hi h.1.symm), if_neg hi]
    show (s.clearFreq.tally bytes).freqAt i = _
    rw [State.freqAt_tally]
    simp

theorem count_map_toNat (bytes : List (BitVec 8)) (b : BitVec 8) : (bytes.map BitVec.toNat).count b.toNat = bytes.count b :=
  List.count_map_of_injective _ _ (fun _ _ h => BitVec.eq_of_toNat_eq h) _

/-! ### BUILD_TREE -/

theorem buildTreeBody_noSentinel {s : State} (h : s.freqAt 256 = 0) :
    buildTreeBody s = .raised .noSentinel s.dropTree := by
  simp [buildTreeBody, h]

theorem buildTreeBody_eq {s : State} (h : s.freqAt 256 ≠ 0) :
    buildTreeBody s = (s.dropTree.require (s.freqSum ≤ Config.maxTotal) .overflow).andThen growTree := by
  rw [buildTreeBody, show (s.freqAt Config.sentinel != 0) = true from bne_iff_ne.2 h]
  rfl

theorem buildTreeBody_overflow {s : State} (h : s.freqAt 256 ≠ 0) (ho : 4294967295 < s.freqSum) :
    buildTreeBody s = .raised .overflow s.dropTree := by
  rw [buildTreeBody_eq h, show decide (s.freqSum ≤ Config.maxTotal) = false from decide_eq_false (by
    show ¬ s.freqSum ≤ 4294967295; omega)]
  rfl

theorem buildTreeBody_ok {s : State} (h : s.freqAt 256 ≠ 0) (ho : s.freqSum ≤ 4294967295) :
    ∃ node t, BuiltTree s { s.dropTree with node := node } t ∧
      buildTreeBody s = .ok (({ s.dropTree with node := node } : State).publishTree (2 * s.activeSymbols.length - 2)
        (2 * s.activeSymbols.length - 1) s.activeSymbols.length t.weight) := by
  obtain ⟨node, t, ht, he⟩ := growTree_ok (s := s.dropTree) h ho
  refine ⟨node, t, ⟨ht.spells, ht.weight, ht.symbols, ht.eachOnce, ht.leaves, ht.merges⟩, ?_⟩
  rw [buildTreeBody_eq h, show decide (s.freqSum ≤ Config.maxTotal) = true from decide_eq_true ho, State.require_true,
    Run.ok_andThen, he]
  rfl

/-! ### Trees that the registers describe -/

theorem State.HoldsTree.depth_lt {s : State} {t : HTree} (h : s.HoldsTree t) : t.depth < Config.nodeCap :=
  lt_of_lt_of_le t.depth_lt_size h.fits

/-- Whether the registers describe a tree depends on the arena and on three of them. -/
theorem State.HoldsTree.congr {s s' : State} {t : HTree} (h : s.HoldsTree t) (hn : s.node = s'.node)
    (hr : s.regs.root = s'.regs.root) (hc : s.regs.nodeCount = s'.regs.nodeCount)
    (hl : s.regs.leafCount = s'.regs.leafCount) : s'.HoldsTree t where
  spells := hr ▸ (State.spells_congr hn t _).1 h.spells
  nodeCount := hc ▸ h.nodeCount
  leafCount := hl ▸ h.leafCount
  fits := h.fits
  legal := h.legal
  eachOnce := by
    have hk : s.children t.size = s'.children t.size := by
      have : s.nodeAt = s'.nodeAt := by
        funext k
        simp [State.nodeAt, hn]
      simp only [State.children]
      congr 1
      funext i
      simp [State.kids, this]
    rw [← hr, ← hk]
    exact h.eachOnce

/-- The registers describe at most one tree. -/
theorem State.HoldsTree.unique {s : State} {t t' : HTree} (h : s.HoldsTree t) (h' : s.HoldsTree t') : t = t' :=
  State.spells_unique h.spells h'.spells

theorem State.HoldsTree.leaves_le {s : State} {t : HTree} (h : s.HoldsTree t) : t.leaves ≤ 257 := by
  have := t.size_eq
  have : t.size ≤ 513 := h.fits
  omega

/-- R136: BUILD_TREE's registers describe its tree. -/
theorem BuiltTree.holdsTree {s s' : State} {t : HTree} (h : BuiltTree s s' t) (hs : 0 < s.activeSymbols.length)
    (total : Word) :
    (s'.publishTree (2 * s.activeSymbols.length - 2) (2 * s.activeSymbols.length - 1) s.activeSymbols.length total).HoldsTree
      t := by
  have hlen := s.activeSymbols_length
  have hleaves : t.leaves = s.activeSymbols.length := by
    rw [← t.symbols_length, h.symbols.length_eq, List.length_map]
  have hsize := t.size_eq
  have hsz : t.size = 2 * s.activeSymbols.length - 1 := by omega
  refine ⟨(State.spells_congr (s := s') (by rfl) t _).1 h.spells, ?_, ?_, ?_, ?_, ?_⟩
  · show (BitVec.ofNat 10 _).toNat = _
    rw [toNat_ofNat_idx (by omega), hsz]
  · show (BitVec.ofNat 10 _).toNat = _
    rw [toNat_ofNat_idx (by omega), hleaves]
  · show t.size ≤ 513
    omega
  · intro sym hsym
    obtain ⟨i, hi, rfl⟩ := List.mem_map.1 (h.symbols.mem_iff.1 hsym)
    have := (State.mem_activeSymbols.1 hi).1
    show _ ≤ 256
    rw [BitVec.toNat_ofNat, Nat.mod_eq_of_lt (by omega)]
    exact this
  · show ((BitVec.ofNat 10 _).toNat :: s'.children t.size).Perm _
    rw [toNat_ofNat_idx (by omega), hsz]
    exact h.eachOnce

/-- R136: each active symbol is at one leaf. -/
theorem BuiltTree.nodup {s s' : State} {t : HTree} (h : BuiltTree s s' t) : t.symbols.Nodup := by
  refine h.symbols.nodup_iff.2 (List.Nodup.map_on ?_ s.activeSymbols_nodup)
  intro i hi j hj he
  have h1 := (State.mem_activeSymbols.1 hi).1
  have h2 := (State.mem_activeSymbols.1 hj).1
  have := congrArg BitVec.toNat he
  rw [BitVec.toNat_ofNat, BitVec.toNat_ofNat, Nat.mod_eq_of_lt (by omega), Nat.mod_eq_of_lt (by omega)] at this
  exact this

/-! ### GEN_CODES -/

theorem genCodesBody_noTree {s : State} (h : s.status.treeValid = false) :
    genCodesBody s = .raised .noTree s.dropCodes := by
  simp [genCodesBody, h]

theorem genCodesBody_eq {s : State} {t : HTree} (hv : s.status.treeValid = true) (h : s.HoldsTree t) :
    genCodesBody s = (assignAll t.paths s.dropCodes).andThen fun u => .ok u.publishCodes := by
  rw [genCodesBody, hv, State.require_true, Run.ok_andThen,
    visit_eq (t := t) (i := s.dropCodes.regs.root) (s := s.dropCodes) ((State.spells_congr (s := s) (by rfl) t _).1 h.spells) h.depth_lt]
  simp

theorem genCodesBody_dup {s : State} {t : HTree} (hv : s.status.treeValid = true) (h : s.HoldsTree t)
    (hd : ¬ t.symbols.Nodup) : ∃ code, genCodesBody s = .raised .dupSymbol { s.dropCodes with code := code } := by
  obtain ⟨code, hc⟩ := assignAll_dup (ps := t.paths) (s := s.dropCodes)
    (fun p hp => h.legal p.1 (List.mem_map_of_mem hp)) (.inl hd)
  exact ⟨code, by rw [genCodesBody_eq hv h, hc]; rfl⟩

/-- R37: the largest length in a table. -/
theorem longest_spec (l : List CodeEntry) (m : CodeLen) :
    let r := l.foldl (fun m e => if e.present && m < e.len then e.len else m) m
    m.toNat ≤ r.toNat ∧ (∀ e ∈ l, e.present = true → e.len.toNat ≤ r.toNat) ∧
      (r = m ∨ ∃ e ∈ l, e.present = true ∧ r = e.len) := by
  induction l generalizing m with
  | nil => simp
  | cons e l ih =>
    obtain ⟨h1, h2, h3⟩ := ih (if e.present && m < e.len then e.len else m)
    simp only [List.foldl_cons]
    by_cases hc : (e.present && decide (m < e.len)) = true
    · rw [if_pos hc] at h1 h2 h3 ⊢
      simp only [Bool.and_eq_true, decide_eq_true_eq, BitVec.lt_def] at hc
      refine ⟨by omega, fun x hx hp => ?_, ?_⟩
      · rcases List.mem_cons.1 hx with rfl | hx
        · exact h1
        · exact h2 x hx hp
      · rcases h3 with h3 | ⟨x, hx, h3⟩
        · exact .inr ⟨e, by simp, hc.1, h3⟩
        · exact .inr ⟨x, by simp [hx], h3⟩
    · rw [if_neg hc] at h1 h2 h3 ⊢
      simp only [Bool.and_eq_true, decide_eq_true_eq, BitVec.lt_def, not_and, not_lt] at hc
      refine ⟨h1, fun x hx hp => ?_, ?_⟩
      · rcases List.mem_cons.1 hx with rfl | hx
        · have := hc hp
          omega
        · exact h2 x hx hp
      · rcases h3 with h3 | ⟨x, hx, h3⟩
        · exact .inl h3
        · exact .inr ⟨x, by simp [hx], h3⟩

theorem State.codeAt_mem (s : State) {i : Nat} (h : i < 257) : s.codeAt i ∈ s.code.toList := by
  rw [State.codeAt, Vector.getElem?_eq_getElem h]
  simp

theorem State.mem_code (s : State) {e : CodeEntry} (h : e ∈ s.code.toList) : ∃ i < 257, s.codeAt i = e := by
  obtain ⟨i, hi, he⟩ := List.getElem_of_mem h
  simp only [Vector.length_toList] at hi
  refine ⟨i, hi, ?_⟩
  rw [State.codeAt, Vector.getElem?_eq_getElem hi]
  simpa using he

/-- R37, R150: MAX_LEN of a table that holds the paths of a tree is the tree's depth. -/
theorem longestCode_of_holdsCodes {s : State} {t : HTree} (hc : s.HoldsCodes t) (hl : t.symbolsLegal)
    (hd : t.depth < 512) : s.longestCode = BitVec.ofNat 9 t.depth := by
  have hlen : ∀ p ∈ t.paths, (CodeEntry.ofPath p.2).len.toNat = p.2.length := fun p hp => by
    have := t.path_length_le hp
    show (BitVec.ofNat 9 _).toNat = _
    rw [BitVec.toNat_ofNat, Nat.mod_eq_of_lt (by omega)]
  obtain ⟨-, h2, h3⟩ := longest_spec s.code.toList 0
  change ∀ e ∈ s.code.toList, e.present = true → e.len.toNat ≤ s.longestCode.toNat at h2
  change s.longestCode = 0 ∨ ∃ e ∈ s.code.toList, e.present = true ∧ s.longestCode = e.len at h3
  obtain ⟨p, hp, hpd⟩ := t.exists_deepest
  have hle : t.depth ≤ s.longestCode.toNat := by
    have hlt : p.1.toNat < 257 := by
      have : p.1.toNat ≤ 256 := hl _ (List.mem_map_of_mem hp)
      omega
    have := h2 _ (s.codeAt_mem hlt) (by rw [hc.1 p hp]; rfl)
    rw [hc.1 p hp, hlen p hp] at this
    omega
  refine BitVec.eq_of_toNat_eq ?_
  rw [BitVec.toNat_ofNat, Nat.mod_eq_of_lt hd]
  refine Nat.le_antisymm ?_ hle
  rcases h3 with h3 | ⟨e, he, hep, h3⟩
  · rw [h3]
    simp
  · obtain ⟨i, -, rfl⟩ := s.mem_code he
    by_cases hi : i ∈ t.symbols.map BitVec.toNat
    · obtain ⟨sym, hsym, rfl⟩ := List.mem_map.1 hi
      obtain ⟨q, hq, rfl⟩ := List.mem_map.1 hsym
      rw [h3, hc.1 q hq, hlen q hq]
      exact t.path_length_le hq
    · rw [hc.2 i hi] at hep
      cases hep

theorem genCodesBody_ok {s : State} {t : HTree} (hv : s.status.treeValid = true) (h : s.HoldsTree t)
    (hd : t.symbols.Nodup) :
    ∃ code, genCodesBody s =
        .ok { s with
          code := code
          status := { s.status with codeValid := true }
          regs := { s.regs with maxLen := BitVec.ofNat 9 t.depth } } ∧
      ({ s with code := code } : State).HoldsCodes t := by
  obtain ⟨code, h1, h2, h3⟩ := assignAll_ok (ps := t.paths) (s := s.dropCodes) hd
    (fun p hp => h.legal p.1 (List.mem_map_of_mem hp)) (fun p _ => by simp [CodeEntry.empty])
  have hc : ({ s with code := code } : State).HoldsCodes t := by
    refine ⟨h2, fun i hi => ?_⟩
    have := h3 i (by simpa [HTree.symbols] using hi)
    rw [State.codeAt_dropCodes] at this
    exact this
  refine ⟨code, ?_, hc⟩
  have := longestCode_of_holdsCodes hc h.legal (by have := h.depth_lt; show t.depth < 512; have : t.depth < 513 := this; have := t.depth_lt_leaves; have := h.leaves_le; omega)
  rw [genCodesBody_eq hv h, h1, Run.ok_andThen, ← this]
  rfl

/-! ### The header -/

theorem writeHeaderBody_ok {s : State} {t : HTree} (hv : s.status.treeValid = true) (ho : s.out.closed = false)
    (h : s.HoldsTree t) : writeHeaderBody s = .ok (s.writeStr t.header) := by
  simp [writeHeaderBody, hv, ho, emit_eq h.spells h.depth_lt]

theorem readHeaderBody_ok {s : State} {t : HTree} {x : Bits} (h : s.unread = t.header ++ x) (hn : t.size ≤ 513)
    (hl : t.symbolsLegal) :
    readHeaderBody s =
      .ok (((State.place t 0 s.dropTree).seek (s.inp.pos + t.header.length)).publishTree 0 t.size t.leaves 0) := by
  have hd := t.depth_lt_size
  rw [readHeaderBody, parse_ok (t := t) (s := s.dropTree) (x := x) h (by omega) hl (by show t.depth < 514; omega)]
  simp

/-- R166, R168: a success of READ_HEADER has read the header of a tree that fits. -/
theorem readHeaderBody_ok_inv {s s' : State} (h : readHeaderBody s = .ok s') :
    ∃ t x, s.unread = HTree.header t ++ x ∧ t.symbolsLegal ∧ t.size ≤ 513 ∧
      s' = ((State.place t 0 s.dropTree).seek (s.inp.pos + t.header.length)).publishTree 0 t.size t.leaves 0 := by
  rw [readHeaderBody] at h
  split at h
  · rename_i i n leaves u hp
    obtain ⟨t, x, h1, h2, rfl, rfl, h5, rfl, rfl⟩ := parse_ok_inv (by omega) hp
    cases h
    exact ⟨t, x, h1, h2, by omega, by simp⟩
  · cases h
  · cases h

/-- R168: the registers describe the tree that was read. -/
theorem holdsTree_place {s : State} {t : HTree} (hn : t.size ≤ 513) (hl : t.symbolsLegal) (pos : Nat) :
    (((State.place t 0 s).seek pos).publishTree 0 t.size t.leaves 0).HoldsTree t.unweighted := by
  have hsz := t.size_eq
  have hrange : List.range' 0 t.size = List.range t.size := List.range_eq_range'.symm
  refine ⟨?_, ?_, ?_, ?_, ?_, ?_⟩
  · exact State.spells_place (n := 0) (s := s) (by omega) fun k _ _ => rfl
  · show (BitVec.ofNat 10 _).toNat = _
    rw [toNat_ofNat_idx (by omega), HTree.unweighted_size]
  · show (BitVec.ofNat 10 _).toNat = _
    rw [toNat_ofNat_idx (by omega), HTree.unweighted_leaves]
  · rw [HTree.unweighted_size]
    exact hn
  · intro sym hsym
    rw [HTree.unweighted_symbols] at hsym
    exact hl sym hsym
  · rw [HTree.unweighted_size]
    have := State.kids_place (t := t) (n := 0) (s := s)
      (s' := ((State.place t 0 s).seek pos).publishTree 0 t.size t.leaves 0) (by omega) fun k _ _ => rfl
    rw [hrange] at this
    exact this

/-- READ_HEADER is never stuck, and its errors leave no tree (R166). -/
theorem readHeaderBody_raised {s s' : State} {c : ErrCode} (h : readHeaderBody s = .raised c s') :
    ∃ node pos, s' = ({ s.dropTree with node := node } : State).seek pos ∧
      (c = .truncHeader ∨ c = .headerTooLarge ∨ c = .badSymbol) := by
  rw [readHeaderBody] at h
  rcases parse_frame (Config.nodeCap + 1) 0 0 s.dropTree with ⟨i, n, l, node, pos, hp⟩ | ⟨e, node, pos, hp, he⟩ | ⟨t, hp⟩
  · rw [hp] at h
    cases h
  · rw [hp] at h
    cases h
    exact ⟨node, pos, rfl, he⟩
  · rw [hp] at h
    cases h

theorem readHeaderBody_ne_stuck (s s' : State) (f : Fault) : readHeaderBody s ≠ .stuck f s' := by
  intro h
  rw [readHeaderBody] at h
  split at h
  · cases h
  · cases h
  · rename_i hp
    exact parse_ne_stuck (by omega) (by show 514 ≤ 514 + 0; omega) hp

/-! ### The body -/

theorem encodeBodyBody_eq {s : State} (hv : s.status.codeValid = true) (ho : s.out.closed = false)
    (hs : (s.codeAt 256).present = true) :
    encodeBodyBody s = (encodeLoop s.bitsLeft s).andThen fun u => .ok (u.writeStr (u.codeString 256)) := by
  rw [encodeBodyBody, hv, State.require_true, Run.ok_andThen, ho, Bool.not_false, State.require_true, Run.ok_andThen,
    show (s.codeAt Config.sentinel).present = true from hs, State.require_true, Run.ok_andThen]
  rfl

theorem encodeBodyBody_ok {s : State} {bytes : List (BitVec 8)} {tail : Bits} (hv : s.status.codeValid = true)
    (ho : s.out.closed = false) (hs : (s.codeAt 256).present = true) (h : s.unread = bitsOfBytes bytes ++ tail)
    (ht : tail.length < 8) (hp : ∀ b ∈ bytes, (s.codeAt b.toNat).present = true) :
    encodeBodyBody s = .ok ((s.writeStr (s.codesOf bytes ++ s.codeString 256)).seek s.inp.data.length) := by
  rw [encodeBodyBody_eq hv ho hs, encodeLoop_ok h ht (Nat.le_refl _) hp, Run.ok_andThen]
  show Run.ok (((s.writeStr (s.codesOf bytes)).seek s.inp.data.length).writeStr (s.codeString 256)) = _
  rw [State.writeStr_seek, State.writeStr_writeStr, State.writeStr_seek]

theorem decodeBodyBody_eq {s : State} (hv : s.status.treeValid = true) (ho : s.out.closed = false) :
    decodeBodyBody s = (decodeWalk (s.setDec .walking)).decodeError := by
  simp [decodeBodyBody, hv, ho]

/-- R186: DECODE_BODY on a tree, from its root. -/
theorem decodeBodyBody_leaf {s : State} {sym : Sym} {w : Word} (hv : s.status.treeValid = true)
    (ho : s.out.closed = false) (h : s.nodeAt s.regs.root = some (.leaf sym w)) :
    decodeBodyBody s = if sym.toNat = 256 then .ok (s.setDec .done) else .raised .truncBody (s.setDec .error) := by
  rw [decodeBodyBody_eq hv ho, decodeWalk]
  have : (s.setDec .walking).nodeAt (s.setDec .walking).regs.root = some (.leaf sym w) := h
  rw [this]
  by_cases hs : sym.toNat = 256
  · rw [if_pos hs]
    simp [Config.sentinel, hs]
    rfl
  · rw [if_neg hs]
    simp [Config.sentinel, hs]
    rfl

theorem decodeBodyBody_node {s : State} {w : Word} {tl tr : HTree} (hv : s.status.treeValid = true)
    (ho : s.out.closed = false) (h : s.Spells (.node w tl tr) s.regs.root) :
    decodeBodyBody s = (decodeLoop s.bitsLeft s.regs.root (s.setDec .walking)).decodeError := by
  obtain ⟨l, r, hn, -, -⟩ := h
  rw [decodeBodyBody_eq hv ho, decodeWalk]
  have : (s.setDec .walking).nodeAt (s.setDec .walking).regs.root = some (.internal w l r) := hn
  rw [this]
  rfl

end Sys2Proof.Machine
end

