-- ==== Sys2Proof/Laws/Commute.lean ====
section
/-! SUPPORT. The outcome fields of STATUS are read by no command body, so completing a command first changes nothing else of
the next one (R210). -/

namespace Sys2Proof.Machine

/-- A run with its state changed. -/

def Run.mapState (f : State → State) : Run → Run
  | .ok s => .ok (f s)
  | .raised c s => .raised c (f s)
  | .stuck g s => .stuck g (f s)


theorem Run.mapState_andThen {r : Run} {k k' : State → Run} (hk : ∀ s, k' (State.completeOk s) = Run.mapState State.completeOk (k s)) :
   (Run.mapState State.completeOk r).andThen k' = Run.mapState State.completeOk (r.andThen k) := by
  cases r <;> simp [Run.mapState, hk]

theorem require_completeOk (s : State) (b c) : s.completeOk.require b c = Run.mapState State.completeOk (s.require b c) := by cases b <;> rfl

theorem countLoop_completeOk (fuel n s) : countLoop fuel n (State.completeOk s) = Run.mapState State.completeOk (countLoop fuel n s) := by
  induction fuel generalizing n s with
  | zero => rfl
  | succ fuel ih =>
    rw [countLoop, countLoop]
    have : s.completeOk.readByte = (s.readByte.1, State.completeOk s.readByte.2) := rfl
    rw [this]
    rcases s.readByte with ⟨_ | v, t⟩
    · rfl
    · simp only
      split
      · rfl
      · exact ih (n+1) (t.setFreq v (t.freqAt v + 1))

theorem countBody_completeOk (s) : countBody (State.completeOk s) = Run.mapState State.completeOk (countBody s) := by
  unfold countBody
  have : s.completeOk.clearFreq = s.clearFreq.completeOk := rfl
  rw [this, countLoop_completeOk]
  exact Run.mapState_andThen fun s => rfl
/-- A builder with its state changed. -/

def Builder.mapState (f : State → State) (b : Builder) : Builder := ⟨f b.s, b.n, b.pq⟩

theorem placeLeaf_completeOk (b i) : placeLeaf (Builder.mapState State.completeOk b) i = Builder.mapState State.completeOk (placeLeaf b i) := by
  unfold placeLeaf
  show (if b.s.freqAt i = 0 then _ else _) = _
  split <;> rfl

theorem placeLeaves_completeOk (l : List Nat) (b) : l.foldl placeLeaf (Builder.mapState State.completeOk b) = Builder.mapState State.completeOk (l.foldl placeLeaf b) := by
  induction l generalizing b with
  | nil => rfl
  | cons a l ih => rw [List.foldl_cons, placeLeaf_completeOk, ih]; rfl

theorem mergeStep_completeOk (b) : mergeStep (Builder.mapState State.completeOk b) = (mergeStep b).map (Builder.mapState State.completeOk) := by
  unfold mergeStep
  have : (Builder.mapState State.completeOk b).pq = b.pq := rfl
  rw [this]
  cases extractMin b.pq with
  | none => rfl
  | some p =>
    obtain ⟨l, r⟩ := p
    simp only
    cases extractMin r <;> rfl

theorem mergeAll_completeOk (fuel b) : mergeAll fuel (Builder.mapState State.completeOk b) = Builder.mapState State.completeOk (mergeAll fuel b) := by
  induction fuel generalizing b with
  | zero => rfl
  | succ fuel ih =>
    rw [mergeAll, mergeAll, mergeStep_completeOk]
    cases mergeStep b with
    | none => rfl
    | some b' => exact ih b'

theorem growTree_completeOk (s) : growTree (State.completeOk s) = Run.mapState State.completeOk (growTree s) := by
  unfold growTree
  have : placeLeaves (State.completeOk s) = Builder.mapState State.completeOk (placeLeaves s) := by
    unfold placeLeaves
    generalize List.range Config.nsym = l
    exact placeLeaves_completeOk l ⟨s, 0, []⟩
  rw [this]
  generalize placeLeaves s = b0
  have hn : (Builder.mapState State.completeOk b0).n = b0.n := rfl
  rw [hn, mergeAll_completeOk]
  generalize mergeAll b0.n b0 = b
  generalize b0.n = n
  rcases b with ⟨s, m, _ | ⟨e, q⟩⟩ <;> rfl

theorem buildTreeBody_completeOk (s) : buildTreeBody (State.completeOk s) = Run.mapState State.completeOk (buildTreeBody s) := by
  unfold buildTreeBody
  have : (s.completeOk.dropTree.require (s.completeOk.freqAt Config.sentinel != 0) .noSentinel) = Run.mapState State.completeOk (s.dropTree.require (s.freqAt Config.sentinel != 0) .noSentinel) := require_completeOk s.dropTree _ _
  rw [this]
  refine Run.mapState_andThen fun s => ?_
  have : s.completeOk.require (decide (s.completeOk.freqSum ≤ Config.maxTotal)) .overflow = Run.mapState State.completeOk (s.require (decide (s.freqSum ≤ Config.maxTotal)) .overflow) := require_completeOk _ _ _
  rw [this]
  exact Run.mapState_andThen growTree_completeOk

theorem visit_completeOk (room i c s) : visit room i c (State.completeOk s) = Run.mapState State.completeOk (visit room i c s) := by
  induction room generalizing i c s with
  | zero => rfl
  | succ room ih =>
    rw [visit, visit]
    rw [State.completeOk_nodeAt]
    rcases s.nodeAt i with _ | ⟨sym, w⟩ | ⟨w, l, r⟩
    · rfl
    · simp only [State.completeOk_codeAt]
      by_cases h : (s.codeAt sym.toNat).present = true <;> simp only [h, ↓reduceIte] <;> rfl
    · simp only [ih]; exact Run.mapState_andThen fun s => ih _ _ _

theorem genCodesBody_completeOk (s) : genCodesBody (State.completeOk s) = Run.mapState State.completeOk (genCodesBody s) := by
  unfold genCodesBody
  have : s.completeOk.dropCodes.require s.completeOk.status.treeValid .noTree = Run.mapState State.completeOk (s.dropCodes.require s.status.treeValid .noTree) := require_completeOk s.dropCodes _ _
  rw [this]
  refine Run.mapState_andThen fun s => ?_
  rw [visit_completeOk]
  exact Run.mapState_andThen fun s => rfl

theorem emit_completeOk (room i s) : emit room i (State.completeOk s) = Run.mapState State.completeOk (emit room i s) := by
  induction room generalizing i s with
  | zero => rfl
  | succ room ih =>
    rw [emit, emit]
    rw [State.completeOk_nodeAt]
    rcases s.nodeAt i with _ | ⟨sym, w⟩ | ⟨w, l, r⟩
    · rfl
    · rfl
    · have : s.completeOk.writeInternalTag = s.writeInternalTag.completeOk := rfl
      simp only [this, ih]; exact Run.mapState_andThen fun s => ih _ _

theorem writeHeaderBody_completeOk (s) : writeHeaderBody (State.completeOk s) = Run.mapState State.completeOk (writeHeaderBody s) := by
  unfold writeHeaderBody
  have : s.completeOk.require s.completeOk.status.treeValid .noTree = Run.mapState State.completeOk (s.require s.status.treeValid .noTree) := require_completeOk s _ _
  rw [this]
  refine Run.mapState_andThen fun s => ?_
  have : s.completeOk.require (!s.completeOk.out.closed) .outClosed = Run.mapState State.completeOk (s.require (!s.out.closed) .outClosed) := require_completeOk s _ _
  rw [this]
  exact Run.mapState_andThen fun s => emit_completeOk _ _ _

theorem writeMagicBody_completeOk (s) : writeMagicBody (State.completeOk s) = Run.mapState State.completeOk (writeMagicBody s) := by
  unfold writeMagicBody
  have : s.completeOk.require (!s.completeOk.out.closed) .outClosed = Run.mapState State.completeOk (s.require (!s.out.closed) .outClosed) := require_completeOk s _ _
  rw [this]
  exact Run.mapState_andThen fun s => rfl

theorem checkMagicBody_completeOk (s) : checkMagicBody (State.completeOk s) = Run.mapState State.completeOk (checkMagicBody s) := by
  unfold checkMagicBody
  have : s.completeOk.readMagic = (s.readMagic.1, State.completeOk s.readMagic.2) := rfl
  rw [this]
  rcases s.readMagic with ⟨_ | v, t⟩
  · rfl
  · simp only [State.completeOk_magic]; by_cases h : v = t.magic.toNat <;> simp only [h, ↓reduceIte] <;> rfl

theorem encodeLoop_completeOk (fuel s) : encodeLoop fuel (State.completeOk s) = Run.mapState State.completeOk (encodeLoop fuel s) := by
  induction fuel generalizing s with
  | zero => rfl
  | succ fuel ih =>
    rw [encodeLoop, encodeLoop]
    have : s.completeOk.readByte = (s.readByte.1, State.completeOk s.readByte.2) := rfl
    rw [this]
    rcases s.readByte with ⟨_ | v, t⟩
    · rfl
    · simp only [State.completeOk_codeAt]
      by_cases h : (t.codeAt v).present = true
      · simp only [h, ↓reduceIte]; exact ih (t.writeCode (t.codeAt v))
      · simp only [h]; rfl

theorem encodeBodyBody_completeOk (s) : encodeBodyBody (State.completeOk s) = Run.mapState State.completeOk (encodeBodyBody s) := by
  unfold encodeBodyBody
  have : s.completeOk.require s.completeOk.status.codeValid .noCodes = Run.mapState State.completeOk (s.require s.status.codeValid .noCodes) := require_completeOk s _ _
  rw [this]
  refine Run.mapState_andThen fun s => ?_
  have : s.completeOk.require (!s.completeOk.out.closed) .outClosed = Run.mapState State.completeOk (s.require (!s.out.closed) .outClosed) := require_completeOk s _ _
  rw [this]
  refine Run.mapState_andThen fun s => ?_
  have : s.completeOk.require (s.completeOk.codeAt Config.sentinel).present .noCode = Run.mapState State.completeOk (s.require (s.codeAt Config.sentinel).present .noCode) := require_completeOk s _ _
  rw [this]
  refine Run.mapState_andThen fun s => ?_
  have : s.completeOk.bitsLeft = s.bitsLeft := rfl
  rw [this, encodeLoop_completeOk]
  exact Run.mapState_andThen fun s => rfl
/-- A Parse call with its state changed. -/

def Parse.mapState (f : State → State) : Parse → Parse
  | .ok i n l s => .ok i n l (f s)
  | .raised c s => .raised c (f s)
  | .stuck s => .stuck (f s)

theorem parseLeaf_completeOk (i l s) : parseLeaf i l (State.completeOk s) = Parse.mapState State.completeOk (parseLeaf i l s) := by
  unfold parseLeaf
  have : s.completeOk.readSym = (s.readSym.1, State.completeOk s.readSym.2) := rfl
  rw [this]
  rcases s.readSym with ⟨_ | v, t⟩
  · rfl
  · simp only; split <;> rfl

theorem parse_completeOk (d n l s) : parse d n l (State.completeOk s) = Parse.mapState State.completeOk (parse d n l s) := by
  induction d generalizing n l s with
  | zero => rfl
  | succ d ih =>
    rw [parse, parse]
    have : s.completeOk.readBit = (s.readBit.1, State.completeOk s.readBit.2) := rfl
    rw [this]
    rcases s.readBit with ⟨_ | v, t⟩
    · rfl
    · simp only
      split
      · rfl
      · split
        · exact parseLeaf_completeOk _ _ _
        · rw [ih]
          cases parse d (n+1) l t with
          | ok i n1 l1 u =>
            simp only [Parse.mapState, Parse.ok_andThen]
            rw [ih]
            cases parse d n1 l1 u <;> rfl
          | raised c u => rfl
          | stuck u => rfl

theorem readHeaderBody_completeOk (s) : readHeaderBody (State.completeOk s) = Run.mapState State.completeOk (readHeaderBody s) := by
  unfold readHeaderBody
  have : s.completeOk.dropTree = s.dropTree.completeOk := rfl
  rw [this, parse_completeOk]
  cases parse (Config.nodeCap + 1) 0 0 s.dropTree <;> rfl

theorem decodeLoop_completeOk (fuel p s) : decodeLoop fuel p (State.completeOk s) = Run.mapState State.completeOk (decodeLoop fuel p s) := by
  induction fuel generalizing p s with
  | zero => rfl
  | succ fuel ih =>
    rw [decodeLoop, decodeLoop]
    have : s.completeOk.readBit = (s.readBit.1, State.completeOk s.readBit.2) := rfl
    rw [this]
    rcases s.readBit with ⟨_ | v, t⟩
    · rfl
    · simp only [State.completeOk_nodeAt]
      split
      · split
        · split
          · rfl
          · exact ih t.regs.root (t.writeByte _)
        · exact ih _ _
        · rfl
      · rfl

theorem decodeWalk_completeOk (s) : decodeWalk (State.completeOk s) = Run.mapState State.completeOk (decodeWalk s) := by
  unfold decodeWalk
  simp only [State.completeOk_nodeAt, State.completeOk_regs]
  split
  · rfl
  · split <;> rfl
  · exact decodeLoop_completeOk _ _ _

theorem decodeBodyBody_completeOk (s) : decodeBodyBody (State.completeOk s) = Run.mapState State.completeOk (decodeBodyBody s) := by
  unfold decodeBodyBody
  have : (s.completeOk.setDec .walking).require s.completeOk.status.treeValid .noTree = Run.mapState State.completeOk ((s.setDec .walking).require s.status.treeValid .noTree) := require_completeOk (s.setDec .walking) _ _
  rw [this]
  rw [Run.mapState_andThen (k := fun s1 => (s1.require (!s1.out.closed) .outClosed).andThen decodeWalk) (fun s => by
    have : s.completeOk.require (!s.completeOk.out.closed) .outClosed = Run.mapState State.completeOk (s.require (!s.out.closed) .outClosed) := require_completeOk s _ _
    rw [this]
    exact Run.mapState_andThen decodeWalk_completeOk)]
  cases (((s.setDec .walking).require s.status.treeValid .noTree).andThen fun s1 => (s1.require (!s1.out.closed) .outClosed).andThen decodeWalk) <;> rfl

theorem finish_mapState (r : Run) : finish (Run.mapState State.completeOk r) = finish r := by cases r <;> rfl

/-- The first step of a macro. -/

theorem macro_step (i : Instr) (rest : List Instr) (s : State) (k : State → Run)
   (hk : ∀ t, execUntilError rest (State.completeOk t) = finish (k t)) :
   execUntilError (i :: rest) s = finish ((bodyOf i s).andThen k) := by
  rw [execUntilError, exec_eq_finish]
  cases bodyOf i s with
  | ok t => simp [hk]
  | raised c t => simp
  | stuck f t => simp

/-- The step of a macro after the first. -/

theorem macro_step_completed (i : Instr) (rest : List Instr) (s : State) (k : State → Run)
   (hc : ∀ s, bodyOf i (State.completeOk s) = Run.mapState State.completeOk (bodyOf i s))
   (hk : ∀ t, execUntilError rest (State.completeOk t) = finish (k t)) :
   execUntilError (i :: rest) (State.completeOk s) = finish ((bodyOf i s).andThen k) := by
  rw [execUntilError, exec_eq_finish, hc]
  cases bodyOf i s with
  | ok t => 
    have : finish (Run.mapState State.completeOk (.ok t)) = .next (State.completeOk t) := rfl
    simp [this, hk]
  | raised c t => simp [Run.mapState]; rfl
  | stuck f t => simp [Run.mapState]

end Sys2Proof.Machine
end

