-- ==== Sys2Proof/Laws/Container.lean ====
section
/-! SUPPORT. COMPRESS up to its first write (R212): after COUNT, REWIND_IN, BUILD_TREE and GEN_CODES the tree and the codes
are those of the bytes that were counted. -/

namespace Sys2Proof.Machine

theorem sum_range_eq (n a : Nat) : ((List.range n).map fun i => if a = i then 1 else 0).sum = if a < n then 1 else 0 := by
  induction n with
  | zero => rfl
  | succ n ih =>
    rw [List.range_succ, List.map_append, List.sum_append, ih]
    by_cases h : a < n
    · simp [h, show a ≠ n by omega, show a < n + 1 by omega]
    · by_cases h2 : a = n
      · simp [h2]
      · simp [h, h2, show ¬ a < n + 1 by omega]

/-- The counts of all values below `n` add up to the number of values. -/
theorem sum_count {l : List Nat} {n : Nat} (h : ∀ x ∈ l, x < n) :
    ((List.range n).map fun i => l.count i).sum = l.length := by
  induction l with
  | nil => simp
  | cons a l ih =>
    have hsplit : ((List.range n).map fun i => (a :: l).count i) =
        (List.range n).map fun i => l.count i + if a = i then 1 else 0 := by
      refine List.map_congr_left fun i _ => ?_
      rw [List.count_cons]
      simp
    rw [hsplit, List.sum_map_add, ih fun x hx => h x (List.mem_cons_of_mem _ hx), sum_range_eq, if_pos (h a (by simp)),
      List.length_cons]

/-- The state that COUNT leaves when it succeeds. -/
def State.counted (s : State) (bytes : List (BitVec 8)) : State :=
  ((s.clearFreq.tally bytes).inToEnd).setFreq Config.sentinel 1

/-- COUNT changes FREQ and IN.pos alone. -/
theorem State.counted_eq (s : State) (bytes : List (BitVec 8)) :
    s.counted bytes = ({ s with freq := (s.counted bytes).freq } : State).inToEnd := by
  have h : s.clearFreq.tally bytes = { s with freq := (s.clearFreq.tally bytes).freq } := by
    conv_lhs => rw [State.tally_eq]
    rfl
  conv_lhs => rw [State.counted, h]
  rfl

/-- R131: the counts after COUNT add up to the number of bytes and the sentinel's 1. -/
theorem freqSum_counted {s : State} {bytes : List (BitVec 8)} (h : bytes.length < 4294967295) :
    (s.counted bytes).freqSum = bytes.length + 1 := by
  have hval : ∀ i < 257, ((s.counted bytes).freqAt i).toNat =
      (bytes.map BitVec.toNat).count i + if 256 = i then 1 else 0 := by
    intro i _
    rw [State.counted, freqAt_counted]
    by_cases hi : i = 256
    · subst hi
      have : (bytes.map BitVec.toNat).count 256 = 0 := by
        refine List.count_eq_zero_of_not_mem fun hm => ?_
        obtain ⟨b, -, hb⟩ := List.mem_map.1 hm
        have := b.isLt
        omega
      rw [this]
      rfl
    · rw [if_neg hi, if_neg (Ne.symm hi), BitVec.toNat_ofNat, Nat.mod_eq_of_lt]
      · rfl
      · have := List.count_le_length (a := i) (l := bytes.map BitVec.toNat)
        rw [List.length_map] at this
        omega
  have hlist : (s.counted bytes).freq.toList.map BitVec.toNat =
      (List.range 257).map fun i => (bytes.map BitVec.toNat).count i + if 256 = i then 1 else 0 := by
    apply List.ext_getElem (by simp)
    intro i h1 h2
    simp only [List.length_map, Vector.length_toList] at h1
    rw [List.getElem_map, List.getElem_map, List.getElem_range, ← hval i h1, State.freqAt_eq_getElem _ h1]
    rfl
  have hlt : ∀ x ∈ bytes.map BitVec.toNat, x < 257 := by
    intro x hx
    obtain ⟨b, -, rfl⟩ := List.mem_map.1 hx
    have := b.isLt
    omega
  rw [State.freqSum, hlist, List.sum_map_add, sum_count hlt, sum_range_eq, if_pos (by omega), List.length_map]

/-- R212: the state of COMPRESS before WRITE_MAGIC. -/
theorem compressBody_ready {s : State} {bytes : List (BitVec 8)} {tail : Bits}
    (h : s.unread = bitsOfBytes bytes ++ tail) (ht : tail.length < 8) (hn : bytes.length < 4294967295) :
    ∃ u t, compressBody s =
        ((writeMagicBody u).andThen fun s5 =>
          (writeHeaderBody s5).andThen fun s6 => (encodeBodyBody s6).andThen closeOutBody) ∧
      u.status = { s.status with treeValid := true, codeValid := true } ∧ u.HoldsTree t ∧ t.symbols.Nodup ∧
      u.HoldsCodes t ∧ u.regs.maxLen = BitVec.ofNat 9 t.depth ∧ (256 : Sym) ∈ t.symbols ∧
      (∀ b ∈ bytes, b.setWidth 9 ∈ t.symbols) ∧ (∀ sym ∈ t.symbols, sym = 256 ∨ ∃ b ∈ bytes, sym = b.setWidth 9) ∧
      u = { s.rewind with status := u.status, regs := u.regs, freq := u.freq, node := u.node, code := u.code } := by
  have hc : countBody s = .ok (s.counted bytes) := countBody_ok h ht hn
  have hmem : ∀ i, (i = 256 ∨ ∃ b ∈ bytes, b.toNat = i) → i ∈ (s.counted bytes).activeSymbols := by
    intro i hi
    rw [State.mem_activeSymbols, State.counted, freqAt_counted]
    rcases hi with rfl | ⟨b, hb, rfl⟩
    · exact ⟨by omega, by rw [if_pos rfl]; decide⟩
    · have hlt := b.isLt
      have hpos := List.count_pos_iff.2 hb
      have hle := List.count_le_length (a := b) (l := bytes)
      refine ⟨by omega, ?_⟩
      rw [if_neg (by omega), count_map_toNat]
      intro he
      have := congrArg BitVec.toNat he
      rw [BitVec.toNat_ofNat, Nat.mod_eq_of_lt (by omega)] at this
      simp at this
      omega
  have h256 : (s.counted bytes).rewind.freqAt 256 ≠ 0 := (State.mem_activeSymbols.1 (hmem 256 (.inl rfl))).2
  have hsum : (s.counted bytes).rewind.freqSum ≤ 4294967295 := by
    have := freqSum_counted (s := s) hn
    show (s.counted bytes).freqSum ≤ _
    omega
  obtain ⟨node, t, hb, he⟩ := buildTreeBody_ok h256 hsum
  have hpos : 0 < (s.counted bytes).rewind.activeSymbols.length := List.length_pos_of_mem (hmem 256 (.inl rfl))
  have hht := hb.holdsTree hpos t.weight
  obtain ⟨code, hg, hhc⟩ := genCodesBody_ok rfl hht hb.nodup
  have hsym : ∀ i ∈ (s.counted bytes).activeSymbols, BitVec.ofNat 9 i ∈ t.symbols := fun i hi =>
    hb.symbols.mem_iff.2 (List.mem_map_of_mem hi)
  obtain ⟨u, hgu, hu⟩ : ∃ u, genCodesBody _ = .ok u ∧ u = _ := ⟨_, hg, rfl⟩
  refine ⟨u, t, ?_, ?_, ?_, hb.nodup, ?_, ?_, hsym 256 (hmem 256 (.inl rfl)), ?_, ?_, ?_⟩
  · rw [compressBody, hc, Run.ok_andThen, rewindInBody, Run.ok_andThen, he, Run.ok_andThen, hgu, Run.ok_andThen]
  · have hst : (s.counted bytes).status = s.status := by rw [State.counted_eq]; rfl
    rw [hu, ← hst]
    rfl
  · rw [hu]
    exact hht.congr rfl rfl rfl rfl
  · rw [hu]
    exact ⟨hhc.1, hhc.2⟩
  · rw [hu]
  · intro b hb'
    have := hsym b.toNat (hmem _ (.inr ⟨b, hb', rfl⟩))
    rwa [show BitVec.ofNat 9 b.toNat = b.setWidth 9 from (BitVec.ofNat_toNat 9 b)] at this
  · intro sym hs
    obtain ⟨i, hi, rfl⟩ := List.mem_map.1 (hb.symbols.mem_iff.1 hs)
    obtain ⟨hi1, hi2⟩ := State.mem_activeSymbols.1 hi
    change (s.counted bytes).freqAt i ≠ 0 at hi2
    rw [State.counted, freqAt_counted] at hi2
    by_cases h256' : i = 256
    · subst h256'
      exact .inl rfl
    · rw [if_neg h256'] at hi2
      have hin : i ∈ bytes.map BitVec.toNat := by
        by_contra hno
        rw [List.count_eq_zero_of_not_mem hno] at hi2
        exact hi2 rfl
      obtain ⟨b, hb', rfl⟩ := List.mem_map.1 hin
      exact .inr ⟨b, hb', BitVec.ofNat_toNat 9 b⟩
  · obtain ⟨f, hf⟩ : ∃ f, s.counted bytes = ({ s with freq := f } : State).inToEnd := ⟨_, State.counted_eq s bytes⟩
    rw [hu, hf]
    rfl

end Sys2Proof.Machine
end

