-- ==== Sys2Proof/Laws/HostPort.lean ====
section
/-! SUPPORT. The host register window: what a turn of HOST amounts to, and where the fields of the packed words stand. -/

namespace Sys2Proof.Machine

theorem getLsbD_append_hi {m n : Nat} (x : BitVec m) (y : BitVec n) (k : Nat) (h : n ≤ k) :
    (x ++ y).getLsbD k = x.getLsbD (k - n) := by
  rw [BitVec.getLsbD_append, if_neg (by omega)]

theorem getLsbD_append_lo {m n : Nat} (x : BitVec m) (y : BitVec n) (k : Nat) (h : k < n) :
    (x ++ y).getLsbD k = y.getLsbD k := by
  rw [BitVec.getLsbD_append, if_pos h]

theorem windowOffset_lt {off : Nat} (h : off < 0x80) : windowOffset off = some (BitVec.ofNat 7 off) := by
  simp [windowOffset, Config.windowBytes, h]

/-- A well-formed read reaches the register of its offset. -/
theorem step_read {s : State} {off : Nat} {rest} (h : off < 0x80) (h4 : off % 4 = 0) :
   step { s with queue := .host (.read off .word) :: rest } = .next (hostRead (regAt (BitVec.ofNat 7 off)) { s with queue := rest }) := by
  simp only [step, stepWith, hostTurnWith, access, windowOffset_lt h]
  rw [if_pos]
  simp only [accessWf, AccessWidth.bits, BitVec.toNat_ofNat]
  simp; omega

/-- A well-formed write reaches the register of its offset. -/
theorem step_write {s : State} {off : Nat} {rest v} (h : off < 0x80) (h4 : off % 4 = 0) :
   step { s with queue := .host (.write off .word v) :: rest } = .next (hostWrite (regAt (BitVec.ofNat 7 off)) v (postWith exec { s with queue := rest }) { s with queue := rest }) := by
  simp only [step, stepWith, hostTurnWith, access, windowOffset_lt h]
  rw [if_pos]
  simp only [accessWf, AccessWidth.bits, BitVec.toNat_ofNat]
  simp; omega

/-- A read while BUSY = 0. -/
theorem hostReads_eq {s : State} (hb : s.status.busy = false) {off : Nat} (h : off < 0x80) (h4 : off % 4 = 0) :
   s.HostReads off (s.readReg (regAt (BitVec.ofNat 7 off))) := by
  intro rest
  rw [step_read h h4]
  simp only [hostRead, hb]
  generalize regAt (BitVec.ofNat 7 off) = r
  cases r <;> rfl

theorem regAt_reserved {off : Nat} (h1 : 0x54 ≤ off) (h2 : off ≤ 0x7C) : regAt (BitVec.ofNat 7 off) = .reserved := by
  unfold regAt
  have : (BitVec.ofNat 7 off).toNat = off := by simp; omega
  rw [this]
  split <;> first | omega | rfl

/-- R28: where the fields of STATUS stand. -/
theorem Status.word_fields (st : Status) (a b : Bool) (d : BitVec 2) : let v := st.word a b d
    v.getLsbD 0 = st.busy ∧ v.getLsbD 1 = st.done ∧ v.getLsbD 2 = st.err ∧ v.getLsbD 3 = st.ovr ∧
      v.getLsbD 4 = st.treeValid ∧ v.getLsbD 5 = st.codeValid ∧ v.getLsbD 6 = a ∧
      v.getLsbD 7 = b ∧ v.extractLsb' 8 4 = st.errCode.toBits ∧
      v.extractLsb' 12 2 = d ∧ v.extractLsb' 14 18 = 0 := by
  refine ⟨?_, ?_, ?_, ?_, ?_, ?_, ?_, ?_, ?_, ?_, ?_⟩ <;>
    (simp (disch := omega) only [Status.word, getLsbD_append_hi, getLsbD_append_lo, BitVec.extractLsb'_append_eq_of_le,
      BitVec.extractLsb'_append_eq_of_add_le]; simp)

/-- R31: where the fields of CFG stand. -/
theorem Cfg.word_fields (c : Cfg) : c.word.getLsbD 0 = c.irqEn ∧ c.word.extractLsb' 1 2 = c.dbgLevel ∧ c.word.extractLsb' 3 29 = 0 := by
  rcases c with ⟨i, d⟩
  simp only [Cfg.word]
  revert i d; decide

/-- A write while BUSY = 0. -/
theorem step_write_idle {s : State} (hb : s.status.busy = false) {off : Nat} {v} (h : off < 0x80) (h4 : off % 4 = 0) (rest) :
   step { s with queue := .host (.write off .word v) :: rest } = .next (({ s with queue := rest }.writeReg v (postWith exec { s with queue := rest }) (regAt (BitVec.ofNat 7 off))).respond .written) := by
  rw [step_write h h4]
  simp [hostWrite, hb]

theorem Node.infoWord_leaf (sym : Sym) (w) : let v := (Node.leaf sym w).infoWord
   v.getLsbD 31 = true ∧ v.extractLsb' 29 2 = 0 ∧ v.extractLsb' 20 9 = sym ∧ v.extractLsb' 0 20 = 0 := by
  refine ⟨?_, ?_, ?_, ?_⟩ <;>
    (simp (disch := omega) only [Node.infoWord, getLsbD_append_hi, BitVec.extractLsb'_append_eq_of_le,
      BitVec.extractLsb'_append_eq_of_add_le]; simp)

theorem Node.infoWord_internal (w) (l r : NodeIdx) : let v := (Node.internal w l r).infoWord
   v.extractLsb' 20 12 = 0 ∧ v.extractLsb' 10 10 = r ∧ v.extractLsb' 0 10 = l := by
  refine ⟨?_, ?_, ?_⟩ <;>
    (simp (disch := omega) only [Node.infoWord, BitVec.extractLsb'_append_eq_of_le, BitVec.extractLsb'_append_eq_of_add_le]
     simp)

theorem regAt_busy {off : Nat} (h : off < 0x80) (h1 : off ≠ 4) (h2 : off ≠ 0xC) : (regAt (BitVec.ofNat 7 off)).writableBusy = false := by
  unfold regAt
  have : (BitVec.ofNat 7 off).toNat = off := by simp; omega
  rw [this]
  split <;> first | omega | rfl

/-! ### A reset while a word that selects no command is pending (R236, R263) -/

/-- R236: performing the word would end in ILLEGAL_CMD and move no stream. -/
theorem postWith_illegal {s : State} (h : ∀ i, decode s.pending ≠ .ok i) : postWith exec s = s.completeErr .illegalCmd := by
  unfold postWith performWith
  cases hd : decode s.pending with
  | ok i => exact absurd hd (h i)
  | error e => rfl

/-- So the reset leaves the streams as they are. -/
theorem State.resetHtb_illegal {s : State} (hb : s.status.busy = true) (h : ∀ i, decode s.pending ≠ .ok i) :
    s.resetHtb (s.completeErr .illegalCmd) =
      { State.reset with
        inp := s.inp, out := s.out, queue := s.queue, response := s.response, draws := s.draws + 1 } := by
  obtain ⟨e, hd⟩ : ∃ e, decode s.pending = .error e := by
    cases hd : decode s.pending with
    | ok i => exact absurd hd (h i)
    | error e => exact ⟨e, rfl⟩
  have hpos : s.abandonedPos s.inp.pos = s.inp.pos := by
    simp [State.abandonedPos, State.pendingRewinds, hd, Nat.mod_one]
  have hbits : s.abandonedBits s.out.bits = s.out.bits := by simp [State.abandonedBits]
  have hclosed : s.abandonedClosed s.out.bits = s.out.closed := by
    simp [State.abandonedClosed, State.pendingSelects, hd]
  rw [State.resetHtb, if_pos hb, State.abandon]
  simp only [State.completeErr_inp, State.completeErr_out, hpos, hbits, hclosed]
  rfl

end Sys2Proof.Machine
end

