-- ==== Sys2Proof/Laws/Outcomes.lean ====
section
/-! SUPPORT. How command bodies end: which errors each can raise (R230), that a valid arena is never found broken, and what
this says of `exec`. -/

namespace Sys2Proof.Machine

/-- DECODE_BODY on a held tree: some bytes are written and some bits consumed, then it ends in DONE or in TRUNC_BODY. -/

theorem decodeBody_spells (s : State) (tree : HTree) (hv : s.status.treeValid = true)
    (ho : s.out.closed = false) (ht : s.Spells tree s.regs.root) :
    ∃ bs pos, (decodeBodyBody s = .ok (((s.writeStr bs).seek pos).setDec .done) ∧ (256 : Sym) ∈ tree.symbols) ∨
      decodeBodyBody s = .raised .truncBody (((s.writeStr bs).seek pos).setDec .error) := by
  cases tree with
  | leaf sym w =>
    refine ⟨[], s.inp.pos, ?_⟩
    rw [decodeBodyBody_leaf hv ho ht]
    by_cases h : sym.toNat = 256
    · left
      have : sym = 256 := BitVec.eq_of_toNat_eq h
      subst this
      simp
    · right; simp [h]
  | node w tl tr =>
    rw [decodeBodyBody_node hv ho ht]
    have hs' : (s.setDec .walking).Spells (.node w tl tr) (s.setDec .walking).regs.root := (State.spells_congr (s := s) (by rfl) _ _).1 ht
    obtain ⟨bs, pos, ⟨h1, p, hp, h2⟩ | h1⟩ := decodeLoop_frame (fuel := s.bitsLeft) hs' (Nat.le_refl _)
    · refine ⟨bs, pos, .inl ⟨?_, ?_⟩⟩
      · rw [show s.regs.root = (s.setDec .walking).regs.root from rfl, h1]; rfl
      · have : p.1 = 256 := BitVec.eq_of_toNat_eq h2
        rw [← this]; exact List.mem_map_of_mem hp
    · refine ⟨bs, pos, .inr ?_⟩
      rw [show s.regs.root = (s.setDec .walking).regs.root from rfl, h1]; rfl

/-- A body that raises only codes of `cs`. -/

def Raises (cs : List ErrCode) (r : Run) : Prop := ∀ c t, r = .raised c t → c ∈ cs

theorem Raises.andThen {cs r k} (h : Raises cs r) (hk : ∀ t, r = .ok t → Raises cs (k t)) : Raises cs (r.andThen k) := by
  intro c t he
  rcases Run.andThen_eq_raised.1 he with h1 | ⟨s, h1, h2⟩
  · exact h c t h1
  · exact hk s h1 c t h2

theorem Raises.require {cs c} (h : c ∈ cs) (s : State) (b) : Raises cs (s.require b c) := by
  intro e t he; rw [State.require_eq_raised] at he; rw [he.2.1]; exact h

theorem Raises.ok {cs s} : Raises cs (.ok s) := by intro c t h; cases h

theorem Raises.stuck {cs f s} : Raises cs (.stuck f s) := by intro c t h; cases h

theorem Raises.mono {cs ds r} (h : Raises cs r) (hs : ∀ c ∈ cs, c ∈ ds) : Raises ds r := fun c t e => hs c (h c t e)

theorem Raises.raised {cs c s} (h : c ∈ cs) : Raises cs (.raised c s) := by intro e t he; cases he; exact h

theorem visit_raises (room i c s) : Raises [.noTree, .dupSymbol] (visit room i c s) := by
  induction room generalizing i c s with
  | zero => exact .stuck
  | succ room ih =>
    rw [visit]; split
    · exact .stuck
    · split
      · exact .raised (by simp)
      · exact .ok
    · exact (ih _ _ _).andThen fun t _ => ih _ _ _

theorem emit_raises (room i s) : Raises [.noTree, .outClosed] (emit room i s) := by
  induction room generalizing i s with
  | zero => exact .stuck
  | succ room ih =>
    rw [emit]; split
    · exact .stuck
    · exact .ok
    · exact (ih _ _).andThen fun t _ => ih _ _

theorem decodeLoop_raises (fuel p s) : Raises [.noTree, .outClosed, .truncBody] (decodeLoop fuel p s) := by
  induction fuel generalizing p s with
  | zero => exact .raised (by simp)
  | succ fuel ih =>
    rw [decodeLoop]; split
    · exact .raised (by simp)
    · split
      · split
        · split
          · exact .ok
          · exact ih _ _
        · exact ih _ _
        · exact .stuck
      · exact .stuck

theorem basic_raises (i : Instr) (hi : i ≠ .compress) (hi' : i ≠ .decompress) (s : State) : Raises (errorsOf i) (bodyOf i s) := by
  cases i with
  | nop => exact .ok
  | count =>
    refine Raises.andThen (fun c t h => ?_) fun t _ => .ok
    obtain ⟨f, p, h1 | h1⟩ := countLoop_frame s.bitsLeft 0 s.clearFreq <;> rw [h1] at h <;> cases h; simp [errorsOf]
  | buildTree =>
    refine Raises.andThen (.require (by simp [errorsOf]) _ _) fun t _ => Raises.andThen (.require (by simp [errorsOf]) _ _) fun u _ => ?_
    rw [growTree, publishRoot]; split
    · exact .stuck
    · exact .ok
  | genCodes =>
    exact Raises.andThen (.require (by simp [errorsOf]) _ _) fun t _ => Raises.andThen (visit_raises _ _ _ _) fun u _ => .ok
  | writeHeader =>
    exact Raises.andThen (.require (by simp [errorsOf]) _ _) fun t _ => Raises.andThen (.require (by simp [errorsOf]) _ _) fun u _ => emit_raises _ _ _
  | readHeader =>
    intro c t h
    obtain ⟨node, pos, -, hc⟩ := readHeaderBody_raised h
    rcases hc with rfl | rfl | rfl <;> simp [errorsOf]
  | encodeBody =>
    refine Raises.andThen (.require (by simp [errorsOf]) _ _) fun t _ => Raises.andThen (.require (by simp [errorsOf]) _ _) fun u _ => Raises.andThen (.require (by simp [errorsOf]) _ _) fun u _ => Raises.andThen (fun c t h => ?_) fun t _ => .ok
    obtain ⟨f, p, h1 | h1⟩ := encodeLoop_frame u.bitsLeft u <;> rw [h1] at h <;> cases h; simp [errorsOf]
  | decodeBody =>
    intro c t h
    have : Raises (errorsOf .decodeBody) (((s.setDec .walking).require s.status.treeValid .noTree).andThen fun s1 =>
      (s1.require (!s1.out.closed) .outClosed).andThen Machine.decodeWalk) := by
      refine Raises.andThen (.require (by simp [errorsOf]) _ _) fun t _ => Raises.andThen (.require (by simp [errorsOf]) _ _) fun u _ => ?_
      rw [decodeWalk]; split
      · exact .stuck
      · split
        · exact .ok
        · exact .raised (by simp [errorsOf])
      · exact decodeLoop_raises _ _ _
    change (Run.decodeError _) = _ at h
    cases hr : (((s.setDec .walking).require s.status.treeValid .noTree).andThen fun s1 =>
      (s1.require (!s1.out.closed) .outClosed).andThen Machine.decodeWalk) with
    | ok u => rw [hr] at h; cases h
    | raised e u => rw [hr] at h; cases h; exact this _ u hr
    | stuck f u => rw [hr] at h; cases h
  | writeMagic => exact Raises.andThen (.require (by simp [errorsOf]) _ _) fun t _ => .ok
  | checkMagic =>
    show Raises _ (checkMagicBody s)
    rw [checkMagicBody]; split
    · exact .raised (by simp [errorsOf])
    · split
      · exact .ok
      · exact .raised (by simp [errorsOf])
  | rewindIn => exact .ok
  | closeOut => exact .ok
  | compress => exact absurd rfl hi
  | decompress => exact absurd rfl hi'

theorem compress_raises (s : State) : Raises (errorsOf .compress) (compressBody s) := by
  rcases countBody_cases s with ⟨bytes, tail, h1, h2, h3⟩ | ⟨bytes, b, x, h1, h2⟩
  · obtain ⟨u, t, he, hst, hht, hnd, hhc, hml, h256, hb, hbs, hfr⟩ := compressBody_ready h1 h2 h3
    rw [he]
    have hcv : u.status.codeValid = true := by rw [hst]
    have htv : u.status.treeValid = true := by rw [hst]
    by_cases ho : u.out.closed = true
    · have : writeMagicBody u = .raised .outClosed u := by simp [writeMagicBody, ho]
      rw [this]; exact .raised (by simp [errorsOf])
    · simp at ho
      have e1 : writeMagicBody u = .ok u.writeMagicWord := by simp [writeMagicBody, ho]
      have e2 : writeHeaderBody u.writeMagicWord = .ok (u.writeMagicWord.writeStr t.header) :=
        writeHeaderBody_ok htv ho (hht.congr rfl rfl rfl rfl)
      rw [e1, Run.ok_andThen, e2, Run.ok_andThen]
      have hs : ((u.writeMagicWord.writeStr t.header).codeAt 256).present = true := by
        obtain ⟨p, hp, hp2⟩ := List.mem_map.1 h256
        have := hhc.1 p hp
        rw [hp2] at this
        exact congrArg CodeEntry.present this
      rw [encodeBodyBody_eq (s := u.writeMagicWord.writeStr t.header) hcv ho hs]
      obtain ⟨f, p, hh | hh⟩ := encodeLoop_frame (u.writeMagicWord.writeStr t.header).bitsLeft (u.writeMagicWord.writeStr t.header)
      · rw [hh]; exact .ok
      · rw [hh]; exact .raised (by simp [errorsOf])
  · have := countBody_overflow h1 h2
    rw [compressBody, this]; exact .raised (by simp [errorsOf])

theorem decodeAfterHeader_raises {s : State} {tr : HTree} {pos : Nat} (hn : tr.size ≤ 513) (hl : tr.symbolsLegal) :
   Raises (errorsOf .decompress) (decodeBodyBody (((State.place tr 0 s).seek pos).publishTree 0 tr.size tr.leaves 0)) := by
  have hh := holdsTree_place (s := s) hn hl pos
  generalize hu : (((State.place tr 0 s).seek pos).publishTree 0 tr.size tr.leaves 0) = u at hh
  have hv : u.status.treeValid = true := by rw [← hu]; rfl
  by_cases ho : u.out.closed = true
  · have : decodeBodyBody u = .raised .outClosed (u.setDec .error) := by simp [decodeBodyBody, hv, ho]; rfl
    rw [this]; exact .raised (by simp [errorsOf])
  · simp at ho
    obtain ⟨bs, p, ⟨h, -⟩ | h⟩ := decodeBody_spells u _ hv ho hh.spells
    · rw [h]; exact .ok
    · rw [h]; exact .raised (by simp [errorsOf])

theorem decompress_raises (s : State) : Raises (errorsOf .decompress) (decompressBody s) := by
  refine Raises.andThen ((basic_raises .checkMagic (by simp) (by simp) s).mono (by simp [errorsOf])) fun t _ =>
    Raises.andThen ((basic_raises .readHeader (by simp) (by simp) t).mono (by simp [errorsOf])) fun u hu => Raises.andThen ?_ fun v _ => .ok
  obtain ⟨tr, x, -, h1, h2, rfl⟩ := readHeaderBody_ok_inv hu
  exact decodeAfterHeader_raises h2 h1

/-- R230: the errors of every body. -/

theorem body_raises_only (i : Instr) (s : State) : Raises (errorsOf i) (bodyOf i s) := by
  by_cases hi : i = .compress
  · subst hi; exact compress_raises s
  · by_cases hi' : i = .decompress
    · subst hi'; exact decompress_raises s
    · exact basic_raises i hi hi' s

/-- Every next state of `exec` is a completion of its body, and an error is one of the command's own. -/

theorem next_cases {i : Instr} {s t : State} (h : exec i s = .next t) :
   (∃ u, bodyOf i s = .ok u ∧ t = u.completeOk) ∨ (∃ c u, bodyOf i s = .raised c u ∧ t = u.completeErr c ∧ c ∈ errorsOf i) := by
  rw [exec_eq_finish, finish_eq_next] at h
  rcases h with h | ⟨c, u, h1, h2⟩
  · exact .inl h
  · exact .inr ⟨c, u, h1, h2, body_raises_only i s c u h1⟩

/-- A body that does not meet a broken arena. -/

def NotStuck (r : Run) : Prop := ∀ f t, r ≠ .stuck f t

theorem NotStuck.andThen {r k} (h : NotStuck r) (hk : ∀ t, r = .ok t → NotStuck (k t)) : NotStuck (r.andThen k) := by
  intro f t he
  rcases Run.andThen_eq_stuck.1 he with h1 | ⟨s, h1, h2⟩
  · exact h f t h1
  · exact hk s h1 f t h2

theorem NotStuck.require (s : State) (b c) : NotStuck (s.require b c) := fun _ _ h => State.require_ne_stuck h

theorem NotStuck.ok {s} : NotStuck (.ok s) := by intro f t h; cases h

theorem NotStuck.raised {c s} : NotStuck (.raised c s) := by intro f t h; cases h

theorem countBody_notStuck (s) : NotStuck (countBody s) := by
  refine NotStuck.andThen (fun f t h => ?_) fun t _ => .ok
  obtain ⟨_, p, h1 | h1⟩ := countLoop_frame s.bitsLeft 0 s.clearFreq <;> rw [h1] at h <;> cases h

theorem buildTreeBody_notStuck (s) : NotStuck (buildTreeBody s) := by
  by_cases h1 : s.freqAt 256 = 0
  · rw [buildTreeBody_noSentinel h1]; exact .raised
  · by_cases h2 : s.freqSum ≤ 4294967295
    · obtain ⟨node, tr, h3, h4⟩ := buildTreeBody_ok h1 h2
      rw [h4]; exact .ok
    · rw [buildTreeBody_overflow h1 (by omega)]; exact .raised

theorem genCodesBody_notStuck {s tr} (hv : s.status.treeValid = true) (h : s.HoldsTree tr) : NotStuck (genCodesBody s) := by
  rw [genCodesBody_eq hv h]
  refine NotStuck.andThen (fun f t e => ?_) fun t _ => .ok
  obtain ⟨_, h1 | h1⟩ := assignAll_frame tr.paths s.dropCodes <;> rw [h1] at e <;> cases e

theorem writeMagicBody_notStuck (s) : NotStuck (writeMagicBody s) := (NotStuck.require _ _ _).andThen fun _ _ => .ok

theorem checkMagicBody_notStuck (s) : NotStuck (checkMagicBody s) := by
  rw [checkMagicBody]; split
  · exact .raised
  · split
    · exact .ok
    · exact .raised

theorem encodeBodyBody_notStuck (s) : NotStuck (encodeBodyBody s) := by
  refine NotStuck.andThen (.require _ _ _) fun t _ => NotStuck.andThen (.require _ _ _) fun u _ => NotStuck.andThen (.require _ _ _) fun u _ => NotStuck.andThen (fun f t h => ?_) fun t _ => .ok
  obtain ⟨_, p, h1 | h1⟩ := encodeLoop_frame u.bitsLeft u <;> rw [h1] at h <;> cases h

theorem readHeaderBody_notStuck (s) : NotStuck (readHeaderBody s) := fun f t => readHeaderBody_ne_stuck s t f

theorem writeHeaderBody_notStuck {s tr} (hv : s.status.treeValid = true) (h : s.HoldsTree tr) : NotStuck (writeHeaderBody s) := by
  by_cases ho : s.out.closed = true
  · have : writeHeaderBody s = .raised .outClosed s := by simp [writeHeaderBody, hv, ho]
    rw [this]; exact .raised
  · rw [writeHeaderBody_ok hv (by simpa using ho) h]; exact .ok

theorem decodeBodyBody_notStuck {s tr} (hv : s.status.treeValid = true) (h : s.Spells tr s.regs.root) : NotStuck (decodeBodyBody s) := by
  by_cases ho : s.out.closed = true
  · have : decodeBodyBody s = .raised .outClosed (s.setDec .error) := by simp [decodeBodyBody, hv, ho]; rfl
    rw [this]; exact .raised
  · obtain ⟨bs, pos, ⟨h1, -⟩ | h1⟩ := decodeBody_spells s tr hv (by simpa using ho) h <;> rw [h1]
    · exact .ok
    · exact .raised

theorem compressBody_notStuck (s) : NotStuck (compressBody s) := by
  rcases countBody_cases s with ⟨bytes, tail, h1, h2, h3⟩ | ⟨bytes, b, x, h1, h2⟩
  · obtain ⟨u, t, he, hst, hht, hnd, hhc, hml, h256, hb, hbs, hfr⟩ := compressBody_ready h1 h2 h3
    rw [he]
    have htv : u.status.treeValid = true := by rw [hst]
    refine (writeMagicBody_notStuck u).andThen fun v hv => NotStuck.andThen (writeHeaderBody_notStuck (tr := t) ?_ ?_) fun w _ => (encodeBodyBody_notStuck w).andThen fun _ _ => .ok
    · obtain ⟨w, hw, hk⟩ := Run.andThen_eq_ok.1 hv
      obtain ⟨-, rfl⟩ := State.require_eq_ok.1 hw
      cases hk; exact htv
    · obtain ⟨w, hw, hk⟩ := Run.andThen_eq_ok.1 hv
      obtain ⟨-, rfl⟩ := State.require_eq_ok.1 hw
      cases hk; exact hht.congr rfl rfl rfl rfl
  · have := countBody_overflow h1 h2
    rw [compressBody, this]; exact .raised

theorem decompressBody_notStuck (s) : NotStuck (decompressBody s) := by
  refine (checkMagicBody_notStuck s).andThen fun t _ => (readHeaderBody_notStuck t).andThen fun u hu => NotStuck.andThen ?_ fun _ _ => .ok
  obtain ⟨tr, x, -, h1, h2, rfl⟩ := readHeaderBody_ok_inv hu
  exact decodeBodyBody_notStuck rfl (holdsTree_place h2 h1 _).spells

/-- A valid arena is never found broken. -/

theorem body_notStuck (i : Instr) (s : State) (h : s.TreeOk) : NotStuck (bodyOf i s) := by
  cases hv : s.status.treeValid with
  | false =>
    cases i with
    | nop => exact .ok
    | count => exact countBody_notStuck s
    | buildTree => exact buildTreeBody_notStuck s
    | genCodes => show NotStuck (genCodesBody s); rw [genCodesBody_noTree hv]; exact .raised
    | writeHeader => show NotStuck (writeHeaderBody s); simp only [writeHeaderBody, hv]; exact .raised
    | readHeader => exact readHeaderBody_notStuck s
    | encodeBody => exact encodeBodyBody_notStuck s
    | decodeBody => show NotStuck (decodeBodyBody s); simp only [decodeBodyBody, hv]; exact .raised
    | writeMagic => exact writeMagicBody_notStuck s
    | checkMagic => exact checkMagicBody_notStuck s
    | rewindIn => exact .ok
    | closeOut => exact .ok
    | compress => exact compressBody_notStuck s
    | decompress => exact decompressBody_notStuck s
  | true =>
    obtain ⟨tr, ht⟩ := h.1 hv
    cases i with
    | nop => exact .ok
    | count => exact countBody_notStuck s
    | buildTree => exact buildTreeBody_notStuck s
    | genCodes => exact genCodesBody_notStuck hv ht
    | writeHeader => exact writeHeaderBody_notStuck hv ht
    | readHeader => exact readHeaderBody_notStuck s
    | encodeBody => exact encodeBodyBody_notStuck s
    | decodeBody => exact decodeBodyBody_notStuck hv ht.spells
    | writeMagic => exact writeMagicBody_notStuck s
    | checkMagic => exact checkMagicBody_notStuck s
    | rewindIn => exact .ok
    | closeOut => exact .ok
    | compress => exact compressBody_notStuck s
    | decompress => exact decompressBody_notStuck s

/-- A relation that a command's operations and its completion keep is kept by `exec`. -/

theorem exec_state {i : Instr} {s t : State} {R : State → State → Prop} (hk : Keeps (effectsOf i) R)
    (hok : ∀ u, R u u.completeOk) (herr : ∀ u c, R u (u.completeErr c)) (h : exec i s = .next t) : R s t := by
  have hb := hk.body s
  rcases next_cases h with ⟨u, h1, rfl⟩ | ⟨c, u, h1, rfl, -⟩ <;> rw [h1] at hb
  · exact hk.trans hb (hok u)
  · exact hk.trans hb (herr u c)

end Sys2Proof.Machine
end

