-- ==== Sys2Proof/Laws/PerInstr.lean ====
section
/-! SUPPORT. The per-instruction family DecodeEncode: the word that `encode` gives a command decodes to that command
(R101, R102), and a command is well formed. One lemma per constructor. -/

namespace Sys2Proof.Laws.DecodeEncode

/-- Decoding undoes encoding, and the word is a legal command word. -/
def Statement (i : Instr) : Prop := decode (encode i) = .ok i ∧ i.wf = true ∧ commandWordWf (encode i) = true

theorem nop : Statement .nop := by unfold Statement; decide
theorem count : Statement .count := by unfold Statement; decide
theorem buildTree : Statement .buildTree := by unfold Statement; decide
theorem genCodes : Statement .genCodes := by unfold Statement; decide
theorem writeHeader : Statement .writeHeader := by unfold Statement; decide
theorem readHeader : Statement .readHeader := by unfold Statement; decide
theorem encodeBody : Statement .encodeBody := by unfold Statement; decide
theorem decodeBody : Statement .decodeBody := by unfold Statement; decide
theorem writeMagic : Statement .writeMagic := by unfold Statement; decide
theorem checkMagic : Statement .checkMagic := by unfold Statement; decide
theorem rewindIn : Statement .rewindIn := by unfold Statement; decide
theorem closeOut : Statement .closeOut := by unfold Statement; decide
theorem compress : Statement .compress := by unfold Statement; decide
theorem decompress : Statement .decompress := by unfold Statement; decide

end Sys2Proof.Laws.DecodeEncode
end

