-- ==== Sys2Proof/Laws/Step.lean ====
section
/-! SUPPORT. What one step can do, said once: `StepTo` lists the ways a step reaches a next state, and `step_cases` says that
there is no other. An invariant of the machine is proved by cases on it. -/

namespace Sys2Proof.Machine

/-- What is left of `s` when its turn has been taken from the queue, or when the queue was empty. -/
def Popped (s u : State) : Prop := u = s ∨ ∃ rest, u = { s with queue := rest }

/-- The ways a step of `s` can reach `t`. -/
inductive StepTo (s : State) : State → Prop
  /-- CORE performs a command (R53). -/
  | performed {u t : State} {i : Instr} : Popped s u → s.status.busy = true → decode s.pending = .ok i →
      exec i u = .next t → StepTo s t
  /-- CORE performs a word that selects no command (R236). -/
  | illegal {u : State} : Popped s u → s.status.busy = true → StepTo s (u.completeErr .illegalCmd)
  /-- CORE's turn with BUSY = 0 (R249). -/
  | idle {u : State} : Popped s u → s.status.busy = false → StepTo s u
  /-- A read, a bus error, an access that does not reach HTB, a write that takes nothing, or TakeOut. -/
  | answered (rest : List Turn) (resp : Option Response) (d : Nat) :
      StepTo s { s with queue := rest, response := resp, draws := d }
  /-- A command word is accepted (R27). -/
  | accepted (rest : List Turn) (v : Word) : s.status.busy = false →
      StepTo s ((({ s with queue := rest } : State).accept v).respond .written)
  /-- STATUS is written (R29). -/
  | cleared (rest : List Turn) (v : Word) : StepTo s ((({ s with queue := rest } : State).clearStatus v).respond .written)
  /-- A write is dropped (R52). -/
  | dropped (rest : List Turn) : s.status.busy = true →
      StepTo s (({ s with queue := rest } : State).dropWrite.respond .written)
  /-- CFG, MAGIC, an index register or FREQ_DATA is written. -/
  | configured (rest : List Turn) (cfg : Cfg) (magic : Word) (idx : IndexRegs) (freq : Vector Word 257) :
      s.status.busy = false →
      StepTo s
        (({ s with queue := rest, cfg := cfg, magic := magic, idx := idx, freq := freq } : State).respond .written)
  /-- IN is attached or OUT is opened (R77). -/
  | moved (rest : List Turn) (inp : InStream) (out : OutStream) : s.status.busy = false → inp = s.inp ∨ inp.pos = 0 →
      StepTo s (({ s with queue := rest, inp := inp, out := out } : State).respond .acted)
  /-- HTB is reset (R260 to R263). -/
  | reset (rest : List Turn) (resp : Response) :
      StepTo s
        ((({ s with queue := rest } : State).resetHtb (postWith exec { s with queue := rest })).respond resp)

theorem core_turn_cases {s u t : State} (hu : Popped s u) (h : coreTurnWith exec u = .next t) : StepTo s t := by
  have hb : u.status.busy = s.status.busy := by rcases hu with rfl | ⟨r, rfl⟩ <;> rfl
  have hp : u.pending = s.pending := by rcases hu with rfl | ⟨r, rfl⟩ <;> rfl
  unfold coreTurnWith at h
  split at h
  · rename_i h1
    rw [hb] at h1
    unfold performWith at h
    split at h
    · rename_i i hi
      exact .performed hu h1 (hp ▸ hi) h
    · cases h
      exact .illegal hu h1
  · rename_i h1
    cases h
    exact .idle hu (hb ▸ by simpa using h1)

theorem access_cases (offset : Nat) (width : AccessWidth) (go : BitVec 7 → State → State) (s : State) :
    access offset width go s = s.respond .notClaimed ∨ access offset width go s = s.respond .busError ∨
      ∃ off, windowOffset offset = some off ∧ access offset width go s = go off s := by
  unfold access
  split
  · exact .inl rfl
  · split
    · rename_i off h _
      exact .inr (.inr ⟨off, h, rfl⟩)
    · exact .inr (.inl rfl)

theorem host_read_cases (s : State) (rest : List Turn) (r : HostReg) : StepTo s (hostRead r { s with queue := rest }) := by
  unfold hostRead
  split
  · exact .answered rest _ _
  · exact .answered rest _ s.draws

theorem host_write_cases (s : State) (rest : List Turn) (r : HostReg) (v : Word) :
    StepTo s (hostWrite r v (postWith exec { s with queue := rest }) { s with queue := rest }) := by
  unfold hostWrite
  split
  · rename_i h
    exact .dropped rest (Bool.and_eq_true_iff.1 h).1
  · rename_i h
    have hb : r.writableBusy = false → s.status.busy = false := by
      intro hr
      rw [hr] at h
      simpa using h
    cases r
    case ctrl =>
      simp only [State.writeReg]
      split
      · exact .reset rest .written
      · exact .answered rest _ s.draws
    case cmd => exact .accepted rest v (hb rfl)
    case status => exact .cleared rest v
    case cfg => exact .configured rest _ s.magic s.idx s.freq (hb rfl)
    case magic => exact .configured rest s.cfg _ s.idx s.freq (hb rfl)
    case freqData => exact .configured rest s.cfg s.magic s.idx _ (hb rfl)
    case freqIdx => exact .configured rest s.cfg s.magic _ s.freq (hb rfl)
    case nodeIdx => exact .configured rest s.cfg s.magic _ s.freq (hb rfl)
    case codeIdx => exact .configured rest s.cfg s.magic _ s.freq (hb rfl)
    case codeWsel => exact .configured rest s.cfg s.magic _ s.freq (hb rfl)
    all_goals exact .answered rest _ s.draws

/-- Every step to a next state is one of the ways that `StepTo` lists. -/
theorem step_cases {s t : State} (h : step s = .next t) : StepTo s t := by
  unfold step stepWith at h
  split at h
  · exact core_turn_cases (.inl rfl) h
  · exact core_turn_cases (.inr ⟨_, rfl⟩) h
  · rename_i a rest hq
    unfold hostTurnWith at h
    split at h
    · cases h
      rcases access_cases _ _ _ _ with h1 | h1 | ⟨off, -, h1⟩ <;> rw [h1]
      · exact .answered rest _ s.draws
      · exact .answered rest _ s.draws
      · exact host_read_cases s rest _
    · cases h
      rcases access_cases _ _ _ _ with h1 | h1 | ⟨off, -, h1⟩ <;> rw [h1]
      · exact .answered rest _ s.draws
      · exact .answered rest _ s.draws
      · exact host_write_cases s rest _ _
    · unfold streamAction at h
      split at h
      · cases h
      · rename_i hb
        cases h
        exact .moved rest _ s.out (by simpa using hb) (.inr rfl)
    · unfold streamAction at h
      split at h
      · cases h
      · rename_i hb
        cases h
        exact .moved rest s.inp _ (by simpa using hb) (.inl rfl)
    · cases h
      exact .answered rest _ s.draws
    · cases h
      exact .reset rest .acted

/-- A step that stops the model: HOST moves a stream while BUSY = 1, or CORE meets a stop of `exec`. -/
theorem step_stops {s : State} (h : ∀ t, step s ≠ .next t) :
    (s.status.busy = true ∧ step s = .fault .streamMoveWhileBusy ∧
      ((∃ d rest, s.queue = .host (.attachIn d) :: rest) ∨ ∃ rest, s.queue = .host .openOut :: rest)) ∨
    ∃ u i, Popped s u ∧ s.status.busy = true ∧ decode s.pending = .ok i ∧ step s = exec i u := by
  have core : ∀ u, Popped s u → step s = coreTurnWith exec u →
      ∃ u i, Popped s u ∧ s.status.busy = true ∧ decode s.pending = .ok i ∧ step s = exec i u := by
    intro u hu he
    have hb : u.status.busy = s.status.busy := by rcases hu with rfl | ⟨r, rfl⟩ <;> rfl
    have hp : u.pending = s.pending := by rcases hu with rfl | ⟨r, rfl⟩ <;> rfl
    unfold coreTurnWith at he
    split at he
    · rename_i h1
      unfold performWith at he
      split at he
      · rename_i i hi
        exact ⟨u, i, hu, hb ▸ h1, hp ▸ hi, he⟩
      · exact absurd he (h _)
    · exact absurd he (h _)
  rcases hq : s.queue with _ | ⟨_ | a, rest⟩
  · exact .inr (core s (.inl rfl) (by simp only [step, stepWith, hq]))
  · exact .inr (core _ (.inr ⟨rest, rfl⟩) (by simp only [step, stepWith, hq]))
  · have hs : step s = hostTurnWith exec a { s with queue := rest } := by simp only [step, stepWith, hq]
    rw [hs] at h ⊢
    cases a with
    | read => exact absurd rfl (h _)
    | write => exact absurd rfl (h _)
    | takeOut => exact absurd rfl (h _)
    | hardReset => exact absurd rfl (h _)
    | attachIn d =>
      simp only [hostTurnWith, streamAction] at h ⊢
      by_cases hb : s.status.busy = true
      · exact .inl ⟨hb, if_pos hb, .inl ⟨d, rest, rfl⟩⟩
      · exact absurd (if_neg hb) (h _)
    | openOut =>
      simp only [hostTurnWith, streamAction] at h ⊢
      by_cases hb : s.status.busy = true
      · exact .inl ⟨hb, if_pos hb, .inr ⟨rest, rfl⟩⟩
      · exact absurd (if_neg hb) (h _)

/-! ### Runs -/

/-- One more step of any machine, through a next state. -/
theorem run_succ_next {M : Host.Core} {k : Nat} {s t : M.State} (h : M.step s = .next t) : M.run (k + 1) s = M.run k t := by
  rw [Host.Core.run, h]

/-- A run that stops at its first step with a fault. -/
theorem run_succ_fault {M : Host.Core} {k : Nat} {s : M.State} {f : M.Fault} (h : M.step s = .fault f) :
    M.run (k + 1) s = .fault f := by
  rw [Host.Core.run, h]

/-- One more step of this machine, through a next state. -/
theorem core_run_next {k : Nat} {s t : State} (h : step s = .next t) : Sys2Proof.core.run (k + 1) s = Sys2Proof.core.run k t :=
  run_succ_next (M := Sys2Proof.core) h

/-- A run of this machine that stops at its first step with a fault. -/
theorem core_run_fault {k : Nat} {s : State} {f : Fault} (h : step s = .fault f) :
    Sys2Proof.core.run (k + 1) s = .fault f :=
  run_succ_fault (M := Sys2Proof.core) h

end Sys2Proof.Machine
end

