-- ==== Sys2Proof/Tests/Slice0.lean ====
section
/-! SUPPORT. The model's own tests: the checks of WellFormed and Decode, one or two of the spec's vectors
(95_test_vectors.md) for each command, and for each obligation with hypotheses a state and operands that meet them. -/

namespace Sys2Proof.Tests

open Sys2Proof Sys2Proof.Machine

set_option Elab.async false

/-! ### Helpers -/

/-- The bits of a string of the digits 0 and 1. -/
def bitsOf (s : String) : Bits := s.toList.map (· == '1')

/-- The start of the spec's vectors: reset, with the magic word that they use. -/
def base : State := { State.reset with magic := 0x12345678 }

/-- IN attached with bits. -/
def withIn (d : Bits) (s : State) : State := { s with inp := { data := d, pos := 0 } }

/-- IN attached with bytes. -/
def withBytes (l : List (BitVec 8)) (s : State) : State := withIn (bitsOfBytes l) s

/-- OUT already closed. -/
def closed (s : State) : State := { s with out := { bits := [], closed := true } }

/-- Counts written by HOST. -/
def counts (l : List (Nat × Word)) (s : State) : State := l.foldl (fun s p => s.setFreq p.1 p.2) s

/-- A command accepted, and CORE has the turn. -/
def accepted (w : Word) (s : State) : State := { s.accept w with queue := [.core] }

/-- The state after a command. -/
def after (i : Instr) (s : State) : State :=
  match exec i s with
  | .next t => t
  | .fault _ => s
  | .refused _ => s

/-- The outcome is a next state with a property. -/
def endsWith (o : Host.Outcome State Fault Refusal) (p : State → Bool) : Bool :=
  match o with
  | .next t => p t
  | .fault _ => false
  | .refused _ => false

theorem of_endsWith {o : Host.Outcome State Fault Refusal} {p : State → Bool} (h : endsWith o p = true) :
    ∃ t, o = .next t ∧ p t = true := by
  cases o with
  | next t => exact ⟨t, rfl, h⟩
  | fault f => cases h
  | refused r => cases h

theorem exec_after {i : Instr} {s : State} (h : endsWith (exec i s) (fun _ => true) = true) :
    exec i s = .next (after i s) := by
  obtain ⟨t, ht, -⟩ := of_endsWith h
  rw [ht, after, ht]

/-! ### WellFormed -/

theorem test_smoke_word_refuses_rsvd : commandWordWf 0x00000101 = false := by decide
theorem test_smoke_word_refuses_reserved_opcode :
    commandWordWf 0x0C = false ∧ commandWordWf 0x0F = false ∧ commandWordWf 0x12 = false ∧ commandWordWf 0xFF = false := by
  decide
theorem test_smoke_access_refuses_misaligned : accessWf 0x06 32 = false := by decide
theorem test_smoke_access_refuses_sub_word : accessWf 0x08 8 = false ∧ accessWf 0x08 16 = false := by decide
theorem test_smoke_symbol_refuses_257 : symWf 257 = false ∧ symWf 511 = false ∧ symWf 256 = true := by decide

/-! ### Decode: the words of R102, written out as RSVD [31:8] and OPCODE [7:0] -/

theorem test_decode_nop : decode 0b00000000000000000000000000000000 = .ok .nop := by decide
theorem test_decode_count : decode 0b00000000000000000000000000000001 = .ok .count := by decide
theorem test_decode_buildTree : decode 0b00000000000000000000000000000010 = .ok .buildTree := by decide
theorem test_decode_genCodes : decode 0b00000000000000000000000000000011 = .ok .genCodes := by decide
theorem test_decode_writeHeader : decode 0b00000000000000000000000000000100 = .ok .writeHeader := by decide
theorem test_decode_readHeader : decode 0b00000000000000000000000000000101 = .ok .readHeader := by decide
theorem test_decode_encodeBody : decode 0b00000000000000000000000000000110 = .ok .encodeBody := by decide
theorem test_decode_decodeBody : decode 0b00000000000000000000000000000111 = .ok .decodeBody := by decide
theorem test_decode_writeMagic : decode 0b00000000000000000000000000001000 = .ok .writeMagic := by decide
theorem test_decode_checkMagic : decode 0b00000000000000000000000000001001 = .ok .checkMagic := by decide
theorem test_decode_rewindIn : decode 0b00000000000000000000000000001010 = .ok .rewindIn := by decide
theorem test_decode_closeOut : decode 0b00000000000000000000000000001011 = .ok .closeOut := by decide
theorem test_decode_compress : decode 0b00000000000000000000000000010000 = .ok .compress := by decide
theorem test_decode_decompress : decode 0b00000000000000000000000000010001 = .ok .decompress := by decide
/-- R101: RSVD is checked first, and a word of either kind selects nothing. -/
theorem test_decode_refuses :
    decode 0x0000000C = .error .reservedOpcode ∧ decode 0x00000101 = .error .reservedBitsSet ∧
      decode 0x8000000C = .error .reservedBitsSet := by decide

/-! ### One step of each command, from 95_test_vectors.md -/

/-- V-RH-1. -/
def rh1 : State := after .readHeader (withIn (bitsOf "01001000001010010000101100000000") base)

/-- V-GEN-1's codes, on V-RH-1's tree, which is V-BLD-1's but for indices and weights. -/
def gen1 : State := after .genCodes rh1

/-- V-NOP-1. -/
theorem test_nop_clears_errcode :
    endsWith (exec .nop { base with status := { base.status with errCode := .truncBody, err := true } })
      (fun t => t.statusWord == 0x82) = true := by decide +kernel

/-- V-CNT-3: three trailing bits are consumed and not counted. -/
theorem test_count_drops_trailing_bits :
    endsWith (exec .count (withIn (bitsOf "01000001101") base))
      (fun t => t.freqAt 0x41 == 1 && t.freqAt 256 == 1 && t.freqSum == 2 && t.inp.pos == 11) = true := by
  decide +kernel

/-- V-CNT-4: an earlier count is cleared. -/
theorem test_count_clears_freq :
    endsWith (exec .count (counts [(7, 99)] base)) (fun t => t.freqAt 7 == 0 && t.freqAt 256 == 1) = true := by
  decide +kernel

/-- V-BLD-3: ties go to the lower index, and the first extracted is the left child. -/
theorem test_buildTree_ties :
    endsWith (exec .buildTree (counts [(0x41, 1), (0x42, 1), (256, 1)] base))
      (fun t => t.nodeAt 3 == some (.internal 2 0 1) && t.nodeAt 4 == some (.internal 3 2 3) &&
        t.regs == { root := 4, nodeCount := 5, leafCount := 3, total := 3, maxLen := 0 }) = true := by
  decide +kernel

/-- V-BLD-10: the sum is one over the limit. -/
theorem test_buildTree_overflow :
    endsWith (exec .buildTree (counts [(0, 0xFFFFFFFF), (256, 1)] base))
      (fun t => t.status.errCode == .overflow && !t.status.treeValid && t.regs.total == 0) = true := by
  decide +kernel

/-- V-GEN-3's codes, on the tree of V-WH-5's header. -/
theorem test_genCodes_abracadabra :
    endsWith
      (exec .genCodes
        (after .readHeader
          (withIn (bitsOf "01001000001001100000000100100001001001010010010010000111001000100") base)))
      (fun t => [0x41, 0x42, 0x43, 0x44, 0x52, 256].map t.codeString ==
        [bitsOf "0", bitsOf "101", bitsOf "1110", bitsOf "1111", bitsOf "110", bitsOf "100"] && t.regs.maxLen == 4) =
      true := by decide +kernel

/-- V-GEN-8: two leaves with one symbol. -/
theorem test_genCodes_dupSymbol :
    endsWith (exec .genCodes (after .readHeader (withIn (bitsOf "010010000011001000001") base)))
      (fun t => t.status.errCode == .dupSymbol && !t.status.codeValid && t.codeInfoWord == 0) = true := by
  decide +kernel

/-- V-WH-1's header, of V-RH-1's tree. -/
theorem test_writeHeader_aab :
    endsWith (exec .writeHeader rh1) (fun t => t.out.bits == bitsOf "01001000001010010000101100000000") = true := by
  decide +kernel

/-- V-WH-9. -/
theorem test_writeHeader_closed :
    endsWith (exec .writeHeader (closed rh1)) (fun t => t.status.errCode == .outClosed && t.out.bits == []) = true := by
  decide +kernel

/-- V-RH-1. -/
theorem test_readHeader_aab :
    endsWith (exec .readHeader (withIn (bitsOf "01001000001010010000101100000000") base))
      (fun t => [0, 1, 2, 3, 4].map t.nodeAt ==
          [some (.internal 0 1 2), some (.leaf 0x41 0), some (.internal 0 3 4), some (.leaf 0x42 0), some (.leaf 256 0)] &&
        t.regs == { root := 0, nodeCount := 5, leafCount := 3, total := 0, maxLen := 0 } && t.inp.pos == 32) = true := by
  decide +kernel

/-- V-RH-5: END inside a symbol consumes what is left. -/
theorem test_readHeader_truncated :
    endsWith (exec .readHeader (withIn (bitsOf "01001") base))
      (fun t => t.status.errCode == .truncHeader && t.inp.pos == 5) = true := by decide +kernel

/-- V-ENC-1. -/
theorem test_encodeBody_aab :
    endsWith (exec .encodeBody (withBytes [0x41, 0x41, 0x42] gen1))
      (fun t => t.out.bits == bitsOf "001011" && t.inp.pos == 24) = true := by decide +kernel

/-- V-ENC-4: no code for the second byte. -/
theorem test_encodeBody_noCode :
    endsWith (exec .encodeBody (withBytes [0x41, 0x43] gen1))
      (fun t => t.out.bits == bitsOf "0" && t.inp.pos == 16 && t.status.errCode == .noCode) = true := by
  decide +kernel

/-- V-DEC-1. -/
theorem test_decodeBody_aab :
    endsWith (exec .decodeBody (withIn (bitsOf "00101100") rh1))
      (fun t => t.out.bits == bitsOfBytes [0x41, 0x41, 0x42] && t.inp.pos == 6 && t.status.decState == .done) = true := by
  decide +kernel

/-- V-DEC-4: END inside the sentinel's path keeps the bytes. -/
theorem test_decodeBody_truncated :
    endsWith (exec .decodeBody (withIn (bitsOf "00101") rh1))
      (fun t => t.out == { bits := bitsOfBytes [0x41, 0x41, 0x42], closed := false } && t.inp.pos == 5 &&
        t.status.errCode == .truncBody && t.status.decState == .error) = true := by decide +kernel

/-- V-MAG-1. -/
theorem test_writeMagic :
    endsWith (exec .writeMagic base) (fun t => t.out.bits == bitsOf "00010010001101000101011001111000") = true := by
  decide +kernel

/-- V-MAG-2 and V-MAG-3. -/
theorem test_checkMagic_mismatch :
    endsWith (exec .checkMagic (withBytes [0x12, 0x34, 0x56, 0x79, 0] base))
        (fun t => t.status.errCode == .badMagic && t.inp.pos == 32) = true ∧
      endsWith (exec .checkMagic (withBytes [0x12, 0x34, 0x56] base))
        (fun t => t.status.errCode == .badMagic && t.inp.pos == 24) = true := by decide +kernel

/-- V-MAG-4. -/
theorem test_checkMagic_match :
    endsWith (exec .checkMagic (withBytes [0x12, 0x34, 0x56, 0x78, 0] base))
      (fun t => t.status.done && t.inp.pos == 32) = true := by decide +kernel

/-- V-RW-1. -/
theorem test_rewindIn :
    endsWith (exec .rewindIn { base with inp := { data := bitsOfBytes [0x41, 0x41, 0x42], pos := 24 } })
      (fun t => t.inp == { data := bitsOfBytes [0x41, 0x41, 0x42], pos := 0 }) = true := by decide +kernel

/-- V-CL-1. -/
theorem test_closeOut_pads :
    endsWith (exec .closeOut { base with out := { bits := bitsOf "001011", closed := false } })
      (fun t => t.out == { bits := bitsOf "00101100", closed := true }) = true := by decide +kernel

/-- V-CL-2. -/
theorem test_closeOut_twice :
    endsWith (exec .closeOut { base with out := { bits := bitsOf "0", closed := true } })
      (fun t => t.out == { bits := bitsOf "0", closed := true } && t.status.done) = true := by decide +kernel

/-- V-CMP-1. -/
theorem test_compress_aab :
    endsWith (exec .compress (withBytes [0x41, 0x41, 0x42] base))
      (fun t => t.out ==
        { bits := bitsOfBytes [0x12, 0x34, 0x56, 0x78, 0x48, 0x29, 0x0B, 0x00, 0x2C], closed := true }) = true := by
  decide +kernel

/-- V-CMP-8. -/
theorem test_compress_closed :
    endsWith (exec .compress (closed (withBytes [0x41, 0x41, 0x42] base)))
      (fun t => t.status.err && t.status.errCode == .outClosed && t.status.treeValid && t.status.codeValid &&
        t.out.bits == []) = true := by decide +kernel

/-- V-DCM-1: STATUS and IN.pos as P4 gives them. -/
theorem test_decompress_aab :
    endsWith (exec .decompress (withBytes [0x12, 0x34, 0x56, 0x78, 0x48, 0x29, 0x0B, 0x00, 0x2C] base))
      (fun t => t.out == { bits := bitsOfBytes [0x41, 0x41, 0x42], closed := true } && t.inp.pos == 70 &&
        t.statusWord == 0x2052) = true := by decide +kernel

/-- V-DCM-3. -/
theorem test_decompress_cut :
    endsWith (exec .decompress (withBytes [0x12, 0x34, 0x56, 0x78, 0x48, 0x29, 0x0B, 0x00] base))
      (fun t => t.status.errCode == .truncBody && t.out == { bits := [], closed := false }) = true := by decide +kernel

/-! ### The step -/

/-- V-ILL-2: a set RSVD bit, and COUNT is not performed. -/
theorem test_illegal_word :
    endsWith (step (accepted 0x00000101 base)) (fun t => t.statusWord == 0xD84 && t.freqAt 256 == 0) = true := by
  decide +kernel

/-- V-REG-2's words of an internal node and of the sentinel's leaf. -/
theorem test_node_info :
    (Node.internal 2 1 2).infoWord = 0x00000801 ∧ (Node.leaf 256 1).infoWord = 0x90000000 := by decide

/-- V-REG-5: FREQ_IDX keeps bits [8:0]. -/
theorem test_freq_idx_width :
    endsWith (step { base with queue := [.host (.write 0x30 .word 0x241)] }) (fun t => t.idx.freqIdx == 0x41) = true := by
  decide +kernel

/-- V-REG-6: a write to CMD while a command is pending is dropped and sets OVR. -/
theorem test_busy_write_dropped :
    endsWith (step { base.accept 1 with queue := [.host (.write 0x08 .word 0)] })
      (fun t => t.pending == 1 && t.cmd == 1 && t.status.ovr && t.status.busy) = true := by decide +kernel

/-- V-REG-8: a sub-word write to CMD is a bus error. -/
theorem test_sub_word_write :
    endsWith (step { base with queue := [.host (.write 0x08 .byte 1)] })
      (fun t => t.response == some .busError && t.cmd == 0 && !t.status.busy && !t.status.ovr) = true := by decide +kernel

/-- Every row of the opcode table decodes, and the step after withFetchWord performs it. -/
theorem test_every_row_runs :
    [0, 1, 2, 3, 4, 5, 6, 7, 8, 9, 10, 11, 16, 17].all (fun w =>
      match decodeTableWord 32 w with
      | some i => encode i == BitVec.ofNat 32 w &&
          endsWith (step (State.reset.withFetchWord 32 w)) (fun t => !t.status.busy && t.cmd == encode i)
      | none => false) = true := by decide +kernel

/-! ### A state and operands that meet the hypotheses of each obligation -/

/-- The state after READ_HEADER of a header given as bits. -/
def holder (h : String) : State := after .readHeader (withIn (bitsOf h) base)

/-- Two leaves, 0x41 and the sentinel. -/
def duo : State := holder "010010000011100000000"
def duoTree : HTree := .node 0 (.leaf 0x41 0) (.leaf 256 0)
/-- Two leaves, both 0x41 (V-GEN-8). -/
def twin : State := holder "010010000011001000001"
def twinTree : HTree := .node 0 (.leaf 0x41 0) (.leaf 0x41 0)
/-- Two leaves, neither the sentinel (V-GEN-9). -/
def mute : State := holder "010010000011001000010"
def muteTree : HTree := .node 0 (.leaf 0x41 0) (.leaf 0x42 0)
/-- The sentinel alone (V-RH-2), and another symbol alone (V-RH-8). -/
def lone : State := holder "1100000000"
def loneOther : State := holder "1001000001"

theorem duo_holds : duo.HoldsTree duoTree :=
  ⟨⟨1, 2, by decide +kernel, by show duo.nodeAt 1 = _; decide +kernel, by show duo.nodeAt 2 = _; decide +kernel⟩,
    by decide +kernel, by decide +kernel, by decide, by unfold HTree.symbolsLegal; decide, by decide +kernel⟩

theorem twin_holds : twin.HoldsTree twinTree :=
  ⟨⟨1, 2, by decide +kernel, by show twin.nodeAt 1 = _; decide +kernel, by show twin.nodeAt 2 = _; decide +kernel⟩,
    by decide +kernel, by decide +kernel, by decide, by unfold HTree.symbolsLegal; decide, by decide +kernel⟩

theorem mute_holds : mute.HoldsTree muteTree :=
  ⟨⟨1, 2, by decide +kernel, by show mute.nodeAt 1 = _; decide +kernel, by show mute.nodeAt 2 = _; decide +kernel⟩,
    by decide +kernel, by decide +kernel, by decide, by unfold HTree.symbolsLegal; decide, by decide +kernel⟩

theorem duo_valid : duo.status.treeValid = true := by decide +kernel
theorem duo_open : duo.out.closed = false := by decide +kernel

/-- A turn of CORE that performs NOP. -/
theorem step_nop (s : State) : step (accepted 0 s) = .next ({ s.accept 0 with queue := [] } : State).completeOk := by
  have h : decode 0 = .ok .nop := by decide
  simp only [step, stepWith, coreTurnWith, performWith, accepted, State.accept, h, exec, execNop, finish, if_true]

theorem reset_treeOk : State.reset.TreeOk := ⟨fun h => (by cases h), fun _ => rfl⟩
theorem base_treeOk : base.TreeOk := ⟨fun h => (by cases h), fun _ => rfl⟩
theorem duo_treeOk : duo.TreeOk := ⟨fun _ => ⟨_, duo_holds⟩, fun h => absurd (duo_valid.symm.trans h) (by decide)⟩

/-- A chain of `n` internal nodes, with leaves `n - 1` down to 0 and the sentinel below them. -/
def chain : Nat → HTree
  | 0 => .leaf 256 0
  | n + 1 => .node 0 (.leaf (BitVec.ofNat 9 n) 0) (chain n)

theorem chain_size (n : Nat) : (chain n).size = 2 * n + 1 := by
  induction n with
  | zero => rfl
  | succ n ih => rw [chain, HTree.size, HTree.size, ih]; omega

theorem chain_legal (n : Nat) (h : n ≤ 257) : (chain n).symbolsLegal := by
  have hs : ∀ sym ∈ (chain n).symbols, sym.toNat ≤ 256 := by
    induction n with
    | zero => decide
    | succ n ih =>
      intro sym hm
      have hm : sym = BitVec.ofNat 9 n ∨ sym ∈ (chain n).symbols := by
        simpa [chain, HTree.symbols, HTree.paths, List.map_map, Function.comp_def] using hm
      rcases hm with rfl | hm
      · simp; omega
      · exact ih (by omega) sym hm
  exact hs

/-- The three cases of the turn: a legal word, an illegal word, no command; with a turn listed and without. -/
theorem witness_CoreTurnPerformsDecodedCommand :
    (∃ (s u : State) (rest : List Turn) (i : Instr), s.queue = .core :: rest ∧ u = { s with queue := rest } ∧
        s.status.busy = true ∧ decode s.pending = .ok i) ∧
      (∃ s u : State, (s.queue = [] ∧ u = s) ∧ s.status.busy = true ∧ ∀ i, decode s.pending ≠ .ok i) ∧
      ∃ s u : State, (s.queue = [] ∧ u = s) ∧ s.status.busy = false :=
  ⟨⟨accepted 1 base, _, [], .count, rfl, rfl, rfl, rfl⟩,
    ⟨base.accept 0x0C, _, ⟨rfl, rfl⟩, rfl, fun i => by cases i <;> decide⟩, ⟨base, _, ⟨rfl, rfl⟩, rfl⟩⟩

theorem witness_PerformedCommandEndsInOneOutcome :
    ∃ (i : Instr) (s t : State), exec i s = .next t :=
  ⟨.nop, base, _, rfl⟩

theorem witness_CommandRaisesOnlyItsErrors :
    ∃ (i : Instr) (s t : State), exec i s = .next t ∧ t.status.err = true :=
  ⟨.buildTree, base, of_endsWith (p := fun t => t.status.err) (by decide +kernel)⟩

theorem witness_EveryCommandCompletes : State.reset.TreeOk ∧ duo.TreeOk := ⟨reset_treeOk, duo_treeOk⟩

theorem witness_CloseOutPadsToAByte :
    (closed base).out.closed = true ∧ base.out.closed = false := ⟨rfl, rfl⟩

theorem witness_WriteMagicAppendsMagic :
    (closed base).out.closed = true ∧ base.out.closed = false := ⟨rfl, rfl⟩

/-- A word that is MAGIC, a word that is not, and one bit too few. -/
theorem witness_CheckMagicComparesMagic :
    (∃ (s : State) (m : Word) (x : Bits), s.unread = bin 32 m.toNat ++ x ∧ m = s.magic) ∧
      (∃ (s : State) (m : Word) (x : Bits), s.unread = bin 32 m.toNat ++ x ∧ m ≠ s.magic) ∧
      ∃ s : State, s.unread.length = 31 :=
  ⟨⟨withIn (bin 32 0x12345678) base, 0x12345678, [], by decide, rfl⟩,
    ⟨withIn (bin 32 0x12345679) base, 0x12345679, [], by decide, by decide⟩,
    ⟨withIn (List.replicate 31 true) base, by decide⟩⟩

/-- Seven trailing bits, and the longest input that is counted. -/
theorem witness_CountCountsEveryByte :
    (∃ (s : State) (bytes : List (BitVec 8)) (tail : Bits), s.unread = bitsOfBytes bytes ++ tail ∧ tail.length = 7 ∧
        bytes.length < 4294967295) ∧
      ∃ (s : State) (bytes : List (BitVec 8)) (tail : Bits), s.unread = bitsOfBytes bytes ++ tail ∧ tail.length < 8 ∧
        bytes.length = 4294967294 :=
  ⟨⟨withIn (bitsOfBytes [0x41, 0x42] ++ List.replicate 7 true) base, [0x41, 0x42], List.replicate 7 true, rfl, rfl,
      by decide⟩,
    ⟨withIn (bitsOfBytes (List.replicate 4294967294 0) ++ []) base, List.replicate 4294967294 0, [], rfl, by decide,
      List.length_replicate⟩⟩

theorem witness_CountOverflowsAtTheLimit :
    ∃ (s : State) (bytes : List (BitVec 8)) (b : BitVec 8) (x : Bits),
      s.unread = bitsOfBytes bytes ++ (bin 8 b.toNat ++ x) ∧ bytes.length = 4294967294 :=
  ⟨withIn (bitsOfBytes (List.replicate 4294967294 0) ++ (bin 8 (0 : BitVec 8).toNat ++ [])) base,
    List.replicate 4294967294 0, 0, [], rfl, List.length_replicate⟩

/-- No sentinel count, and a sum one over the limit. -/
theorem witness_BuildTreeRefusesBadCounts :
    base.freqAt 256 = 0 ∧ (counts [(0, 0xFFFFFFFF), (256, 1)] base).freqAt 256 ≠ 0 ∧
      (counts [(0, 0xFFFFFFFF), (256, 1)] base).freqSum = 4294967296 := by decide +kernel

/-- A sum at the limit, and the sentinel alone. -/
theorem witness_BuildTreeMergesLeastPairs :
    (∃ s : State, s.freqAt 256 ≠ 0 ∧ s.freqSum = 4294967295) ∧
      ∃ s : State, s.freqAt 256 ≠ 0 ∧ s.freqSum ≤ 4294967295 ∧ s.freqSum = 1 :=
  ⟨⟨counts [(0, 0xFFFFFFFE), (256, 1)] base, by decide +kernel⟩, ⟨counts [(256, 1)] base, by decide +kernel⟩⟩

theorem witness_BuiltTreeIsFullOverActiveSymbols :
    ∃ s t : State, exec .buildTree s = .next t ∧ t.status.done = true := by
  obtain ⟨node, tree, -, h⟩ := buildTreeBody_ok (s := counts [(0x41, 2), (256, 1)] base) (by decide +kernel)
    (by decide +kernel)
  exact ⟨_, _, by rw [exec_eq_finish, bodyOf, h, finish], rfl⟩

theorem witness_BuildTreeDependsOnCountsOnly :
    ∃ s s' t : State, s ≠ s' ∧ s.freq = s'.freq ∧ exec .buildTree s = .next t :=
  ⟨base, base.accept 2, _, fun h => absurd (congrArg State.pending h) (by decide), rfl,
    exec_after (by decide +kernel)⟩

/-- No tree, a tree with a symbol at two leaves, and a tree without. -/
theorem witness_GenCodesRecordsLeafPaths :
    base.status.treeValid = false ∧
      (∃ (s : State) (tree : HTree), s.status.treeValid = true ∧ s.HoldsTree tree ∧ ¬ tree.symbols.Nodup) ∧
      ∃ (s : State) (tree : HTree), s.status.treeValid = true ∧ s.HoldsTree tree ∧ tree.symbols.Nodup :=
  ⟨rfl, ⟨twin, twinTree, by decide +kernel, twin_holds, by decide⟩, ⟨duo, duoTree, duo_valid, duo_holds, by decide⟩⟩

theorem witness_CodeTableHoldsWholeCodes :
    ∃ (s : State) (tree : HTree), s.HoldsTree tree ∧ s.HoldsCodes tree ∧ ∃ p, p ∈ tree.paths := by
  obtain ⟨code, -, h⟩ := genCodesBody_ok duo_valid duo_holds (by decide)
  exact ⟨{ duo with code := code }, duoTree, duo_holds.congr rfl rfl rfl rfl, h, ((0x41 : Sym), [false]), by decide⟩

theorem witness_CodesArePrefixFreeAndComplete :
    ∃ (s t : State) (tree : HTree), s.status.treeValid = true ∧ s.HoldsTree tree ∧ 2 ≤ tree.leaves ∧
      exec .genCodes s = .next t ∧ t.status.done = true := by
  obtain ⟨t, ht, hd⟩ := of_endsWith (o := exec .genCodes duo) (p := fun t => t.status.done) (by decide +kernel)
  exact ⟨duo, t, duoTree, duo_valid, duo_holds, by decide, ht, hd⟩

theorem witness_WriteHeaderEmitsTheTree :
    base.status.treeValid = false ∧ ((closed duo).status.treeValid = true ∧ (closed duo).out.closed = true) ∧
      ∃ tree, duo.status.treeValid = true ∧ duo.out.closed = false ∧ duo.HoldsTree tree :=
  ⟨rfl, ⟨duo_valid, rfl⟩, ⟨duoTree, duo_valid, duo_open, duo_holds⟩⟩

/-- A tree of 513 nodes, the largest that fits. -/
theorem witness_ReadHeaderUndoesWriteHeader :
    ∃ (s : State) (tree : HTree) (x : Bits), s.unread = tree.header ++ x ∧ tree.size = 513 ∧ tree.symbolsLegal :=
  ⟨withIn ((chain 256).header ++ [true]) base, chain 256, [true], rfl, chain_size 256, chain_legal 256 (by decide)⟩

theorem witness_DecodedTreeIsInPreOrder :
    ∃ s t : State, exec .readHeader s = .next t ∧ t.status.done = true :=
  ⟨withIn (bitsOf "1100000000") base, of_endsWith (p := fun t => t.status.done) (by decide +kernel)⟩

theorem witness_ReadHeaderErrorLeavesNoTree :
    ∃ s t : State, exec .readHeader s = .next t ∧ t.status.err = true :=
  ⟨base, of_endsWith (p := fun t => t.status.err) (by decide +kernel)⟩

/-- V-RH-9 without its last tag: 513 nodes that do not complete a tree. -/
def openRecords : List HeaderRecord := List.replicate 257 .internal ++ List.replicate 256 (.leaf 0)

theorem openRecords_ok :
    openHeader 1 openRecords = true ∧ (∀ r ∈ openRecords, r.legal = true) ∧ openRecords.length = 513 := by decide +kernel

/-- A header cut before a tag, after no node and after 513; one cut in its last bit; the two ends of the illegal symbols, at a
first and at a later leaf; and V-RH-9. -/
theorem witness_ReadHeaderRejectsBadHeaders :
    (∃ (s : State) (rs : List HeaderRecord), (openHeader 1 rs = true ∧ (∀ r ∈ rs, r.legal = true) ∧ rs.length = 0) ∧
        s.unread = headerBits rs) ∧
      (∃ (s : State) (rs : List HeaderRecord), (openHeader 1 rs = true ∧ (∀ r ∈ rs, r.legal = true) ∧ rs.length = 513) ∧
        s.unread = headerBits rs) ∧
      (∃ (s : State) (rs : List HeaderRecord) (cut : Bits), openHeader 1 rs = true ∧ (∀ r ∈ rs, r.legal = true) ∧
        rs.length = 512 ∧ cut.length = 8 ∧ s.unread = headerBits rs ++ true :: cut) ∧
      (∃ (s : State) (rs : List HeaderRecord) (sym : Sym) (x : Bits), openHeader 1 rs = true ∧
        (∀ r ∈ rs, r.legal = true) ∧ rs.length = 0 ∧ sym.toNat = 257 ∧
        s.unread = headerBits rs ++ true :: (bin 9 sym.toNat ++ x)) ∧
      (∃ (s : State) (rs : List HeaderRecord) (sym : Sym) (x : Bits), openHeader 1 rs = true ∧
        (∀ r ∈ rs, r.legal = true) ∧ rs = [.internal, .leaf 256] ∧ sym.toNat = 511 ∧
        s.unread = headerBits rs ++ true :: (bin 9 sym.toNat ++ x)) ∧
      ∃ (s : State) (rs : List HeaderRecord) (tag : Bool) (x : Bits),
        (openHeader 1 rs = true ∧ (∀ r ∈ rs, r.legal = true) ∧ rs.length = 513) ∧
          s.unread = headerBits rs ++ tag :: x ∧ s.inp.pos + (headerBits rs).length + 1 = 2818 :=
  ⟨⟨base, [], by decide, rfl⟩,
    ⟨withIn (headerBits openRecords) base, openRecords, openRecords_ok, rfl⟩,
    ⟨withIn (headerBits (List.replicate 512 .internal) ++ true :: List.replicate 8 false) base,
      List.replicate 512 .internal, List.replicate 8 false, by decide +kernel, by decide +kernel,
      List.length_replicate, List.length_replicate, rfl⟩,
    ⟨withIn (true :: (bin 9 257 ++ [])) base, [], 257, [], rfl, by decide, rfl, rfl, rfl⟩,
    ⟨withIn (headerBits [.internal, .leaf 256] ++ true :: (bin 9 511 ++ [])) base, [.internal, .leaf 256], 511, [], rfl,
      by decide, rfl, rfl, rfl⟩,
    ⟨withIn (headerBits openRecords ++ true :: []) base, openRecords, true, [], openRecords_ok, rfl, by decide +kernel⟩⟩

/-- Every check of ENCODE_BODY, an input that is all encoded, and one with a byte that has no code. -/
theorem witness_EncodeBodyAppendsCodes :
    base.status.codeValid = false ∧
      (∃ s : State, s.status.codeValid = true ∧ s.out.closed = true) ∧
      (∃ s : State, s.status.codeValid = true ∧ s.out.closed = false ∧ (s.codeAt 256).present = false) ∧
      (∃ (s : State) (bytes : List (BitVec 8)) (tail : Bits), s.status.codeValid = true ∧ s.out.closed = false ∧
        (s.codeAt 256).present = true ∧ s.unread = bitsOfBytes bytes ++ tail ∧ tail.length = 7 ∧ bytes = [0x41] ∧
        ∀ b ∈ bytes, (s.codeAt b.toNat).present = true) ∧
      ∃ (s : State) (bytes : List (BitVec 8)) (b : BitVec 8) (x : Bits), s.status.codeValid = true ∧
        s.out.closed = false ∧ (s.codeAt 256).present = true ∧
        s.unread = bitsOfBytes bytes ++ (bin 8 b.toNat ++ x) ∧ bytes = [0x41] ∧
        (∀ c ∈ bytes, (s.codeAt c.toNat).present = true) ∧ (s.codeAt b.toNat).present = false :=
  ⟨rfl, ⟨closed (after .genCodes duo), by decide +kernel, rfl⟩,
    ⟨after .genCodes mute, by decide +kernel, by decide +kernel, by decide +kernel⟩,
    ⟨withIn (bitsOfBytes [0x41] ++ List.replicate 7 true) (after .genCodes duo), [0x41], List.replicate 7 true,
      by decide +kernel, by decide +kernel, by decide +kernel, rfl, rfl, rfl, by decide +kernel⟩,
    ⟨withIn (bitsOfBytes [0x41] ++ (bin 8 (0x43 : BitVec 8).toNat ++ [])) (after .genCodes duo), [0x41], 0x43, [],
      by decide +kernel, by decide +kernel, by decide +kernel, rfl, rfl, by decide +kernel, by decide +kernel⟩⟩

theorem witness_DecodeBodyRecoversTheBytes :
    ∃ (s : State) (tree : HTree) (bytes : List (BitVec 8)) (c p x : Bits), s.status.treeValid = true ∧
      s.out.closed = false ∧ s.HoldsTree tree ∧ tree.Encodes bytes c ∧ bytes = [0x41] ∧ (256, p) ∈ tree.paths ∧
      s.unread = c ++ (p ++ x) :=
  ⟨withIn [false, true, false] duo, duoTree, [0x41], [false], [true], [false], duo_valid, duo_open,
    duo_holds.congr rfl rfl rfl rfl, ⟨[false], [], by decide, rfl, rfl⟩, rfl, by decide, rfl⟩

theorem witness_DecodeBodyOnALeafReadsNothing :
    (∃ (s : State) (sym : Sym) (w : Word), s.status.treeValid = true ∧ s.out.closed = false ∧
        s.nodeAt s.regs.root = some (.leaf sym w) ∧ sym = 256) ∧
      ∃ (s : State) (sym : Sym) (w : Word), s.status.treeValid = true ∧ s.out.closed = false ∧
        s.nodeAt s.regs.root = some (.leaf sym w) ∧ sym ≠ 256 :=
  ⟨⟨lone, 256, 0, by decide +kernel⟩, ⟨loneOther, 0x41, 0, by decide +kernel⟩⟩

/-- No tree, a closed OUT, and an input that ends before the sentinel's path. -/
theorem witness_DecodeBodyReportsTruncation :
    base.status.treeValid = false ∧ ((closed duo).status.treeValid = true ∧ (closed duo).out.closed = true) ∧
      ∃ (s : State) (tree : HTree) (bytes : List (BitVec 8)) (c q y : Bits) (sym : Sym), s.status.treeValid = true ∧
        s.out.closed = false ∧ s.HoldsTree tree ∧ tree.Encodes bytes c ∧ bytes = [0x41] ∧ (sym, q ++ y) ∈ tree.paths ∧
        y ≠ [] ∧ s.unread = c ++ q :=
  ⟨rfl, ⟨duo_valid, rfl⟩,
    ⟨withIn [false] duo, duoTree, [0x41], [false], [], [true], 256, duo_valid, duo_open,
      duo_holds.congr rfl rfl rfl rfl, ⟨[false], [], by decide, rfl, rfl⟩, rfl, by decide, by decide, rfl⟩⟩

theorem witness_NoSentinelNeverDecodes :
    ∃ (s : State) (tree : HTree), s.status.treeValid = true ∧ s.out.closed = false ∧ s.HoldsTree tree ∧
      256 ∉ tree.symbols :=
  ⟨mute, muteTree, by decide +kernel, by decide +kernel, mute_holds, by decide⟩

/-- The longest input that is counted, and seven trailing bits. -/
theorem witness_CompressWritesTheContainer :
    ∃ (s : State) (bytes : List (BitVec 8)) (tail : Bits), s.inp = { data := bitsOfBytes bytes ++ tail, pos := 0 } ∧
      tail.length = 7 ∧ s.out.closed = false ∧ bytes.length = 4294967294 :=
  ⟨withIn (bitsOfBytes (List.replicate 4294967294 0) ++ List.replicate 7 true) base, List.replicate 4294967294 0,
    List.replicate 7 true, rfl, by decide, rfl, List.length_replicate⟩

theorem witness_CompressOfEmptyInput :
    (∃ s : State, s.inp = { data := [], pos := 0 } ∧ s.out = { bits := [], closed := false }) ∧
      ∃ (s u : State) (d : Bits), u.inp = { data := d, pos := 0 } ∧ u.magic = s.magic ∧
        u.out = { bits := [], closed := false } :=
  ⟨⟨base, rfl, rfl⟩, ⟨base, withIn [true] base, [true], rfl, rfl, rfl⟩⟩

theorem witness_DecompressUndoesCompress :
    ∃ (s : State) (bytes : List (BitVec 8)), bytes.length = 4294967294 ∧
      s.inp = { data := bitsOfBytes bytes, pos := 0 } ∧ s.out = { bits := [], closed := false } ∧
      ∀ d : Bits, ∃ u : State, u.inp = { data := d, pos := 0 } ∧ u.out = { bits := [], closed := false } ∧
        u.magic = s.magic :=
  ⟨withBytes (List.replicate 4294967294 0) base, _, List.length_replicate, rfl, rfl,
    fun d => ⟨withIn d base, rfl, rfl, rfl⟩⟩

/-- V-CMP-1 cut before its last byte, and cut to nothing. -/
theorem witness_TruncatedContainerIsDetected :
    ∃ (s : State) (bytes : List (BitVec 8)) (t u : State) (k : Nat), bytes.length < 4294967295 ∧
      s.inp = { data := bitsOfBytes bytes, pos := 0 } ∧ s.out = { bits := [], closed := false } ∧
      exec .compress s = .next t ∧ 8 * (k + 1) = t.out.bits.length ∧ u.inp = { data := t.out.bits.take (8 * k), pos := 0 } ∧
      u.out.closed = false ∧ u.magic = s.magic := by
  obtain ⟨t, ht, hl⟩ := of_endsWith test_compress_aab
  have hl : t.out.bits.length = 72 := by rw [beq_iff_eq.1 hl]; decide
  exact ⟨_, [0x41, 0x41, 0x42], t, withIn (t.out.bits.take (8 * 8)) base, 8, by decide, rfl, rfl, ht, hl.symm, rfl, rfl, rfl⟩

theorem witness_FailedMacroDoesNotCloseOut :
    (∃ (s : State) (bytes : List (BitVec 8)) (tail : Bits), s.unread = bitsOfBytes bytes ++ tail ∧ s.inp.pos = 0 ∧
        tail.length = 7 ∧ bytes.length < 4294967295 ∧ s.out.closed = true) ∧
      (∃ s t : State, exec .compress s = .next t ∧ (t.status.err && t.status.errCode == .outClosed && t.status.treeValid &&
        t.status.codeValid && t.out.bits == []) = true) ∧
      ∃ s t : State, exec .decompress s = .next t ∧ (t.status.err && (t.status.errCode == .badMagic)) = true :=
  ⟨⟨closed (withIn (bitsOfBytes [0x41] ++ List.replicate 7 true) base), [0x41], List.replicate 7 true, rfl, rfl, rfl,
      by decide, rfl⟩,
    ⟨_, of_endsWith test_compress_closed⟩,
    ⟨base, of_endsWith (p := fun t => t.status.err && (t.status.errCode == .badMagic)) (by decide +kernel)⟩⟩

theorem witness_CommandsLeaveHostRegisters : ∃ (i : Instr) (s t : State), exec i s = .next t := ⟨.nop, base, _, rfl⟩

theorem witness_CommandsWriteOnlyTheirState :
    ∃ (i : Instr) (s t : State), exec i s = .next t ∧ i ∉ [Instr.count, .compress] := ⟨.nop, base, _, rfl, by decide⟩

theorem witness_PlainRegistersRead :
    base.status.busy = false ∧ 0x54 ≤ 0x7C ∧ 0x54 % 4 = 0 ∧ 0x7C % 4 = 0 := by decide

theorem witness_StatusAndCfgReadTheirFields : base.status.busy = false := rfl

/-- FREQ_IDX at 256, the last entry, and at 257. -/
theorem witness_FreqDataWindow :
    (∃ s : State, s.status.busy = false ∧ s.idx.freqIdx.toNat = 256) ∧
      ∃ s : State, s.status.busy = false ∧ s.idx.freqIdx.toNat = 257 :=
  ⟨⟨{ base with idx := { base.idx with freqIdx := 256 } }, by decide⟩,
    ⟨{ base with idx := { base.idx with freqIdx := 257 } }, by decide⟩⟩

/-- No tree; NODE_IDX at NODE_COUNT; a leaf, the last entry; an internal node. -/
theorem witness_NodeWindows :
    (∃ s : State, s.status.busy = false ∧ s.status.treeValid = false) ∧
      (∃ s : State, s.status.busy = false ∧ s.status.treeValid = true ∧ s.regs.nodeCount = s.idx.nodeIdx) ∧
      (∃ (s : State) (sym : Sym) (w : Word), s.status.busy = false ∧ s.status.treeValid = true ∧
        s.idx.nodeIdx < s.regs.nodeCount ∧ s.nodeAt s.idx.nodeIdx = some (.leaf sym w)) ∧
      ∃ (s : State) (w : Word) (l r : NodeIdx), s.status.busy = false ∧ s.status.treeValid = true ∧
        s.idx.nodeIdx < s.regs.nodeCount ∧ s.nodeAt s.idx.nodeIdx = some (.internal w l r) :=
  ⟨⟨base, rfl, rfl⟩, ⟨{ duo with idx := { duo.idx with nodeIdx := 3 } }, by decide +kernel⟩,
    ⟨{ duo with idx := { duo.idx with nodeIdx := 2 } }, 256, 0, by decide +kernel⟩,
    ⟨duo, 0, 1, 2, by decide +kernel⟩⟩

/-- No codes; CODE_IDX at 257 and at 256. -/
theorem witness_CodeWindows :
    (∃ s : State, s.status.busy = false ∧ s.status.codeValid = false) ∧
      (∃ s : State, s.status.busy = false ∧ s.idx.codeIdx.toNat = 257) ∧
      ∃ s : State, s.status.busy = false ∧ s.status.codeValid = true ∧ s.idx.codeIdx.toNat = 256 :=
  ⟨⟨base, rfl, rfl⟩, ⟨{ base with idx := { base.idx with codeIdx := 257 } }, by decide⟩,
    ⟨{ after .genCodes duo with idx := { base.idx with codeIdx := 256 } }, by decide +kernel⟩⟩

theorem witness_PlainRegistersWrite :
    ∃ (s : State) (v : Word), s.status.busy = false ∧ v.getLsbD 0 = false := ⟨base, 2, rfl, by decide⟩

theorem witness_CommandAcceptance : base.status.busy = false := rfl

/-- Two offsets at the ends of the window, and a write of 0 to SRST. -/
theorem witness_BusyWritesAreDropped :
    ∃ (s : State) (v : Word), s.status.busy = true ∧ v.getLsbD 0 = false ∧ (0x00 < 0x80 ∧ 0x00 % 4 = 0) ∧
      (0x7C < 0x80 ∧ 0x7C % 4 = 0) := ⟨base.accept 1, 0, rfl, by decide⟩

theorem witness_BusyReads : (base.accept 1).status.busy = true ∧ 0x7C < 0x80 ∧ 0x7C % 4 = 0 := by decide

theorem witness_BusErrorChangesNothing :
    (∃ (off : Nat) (width : AccessWidth), off < 0x80 ∧ off % 4 ≠ 0 ∧ width = .word) ∧
      ∃ (off : Nat) (width : AccessWidth), off < 0x80 ∧ off % 4 = 0 ∧ width ≠ .word :=
  ⟨⟨0x7F, .word, by decide⟩, ⟨0x08, .half, by decide⟩⟩

theorem witness_ResetWhileIdle : ∃ (s : State) (v : Word), s.status.busy = false ∧ v.getLsbD 0 = true :=
  ⟨base, 1, rfl, by decide⟩

/-- A pending command that does not rewind IN, one that does, and a pending word that selects no command; with CTRL's SRST
set. -/
theorem witness_ResetWhileBusyIsBounded :
    (∃ (s p : State) (i : Instr) (rest : List Turn), s.status.busy = true ∧ s.StreamsOk ∧ decode s.pending = .ok i ∧
        exec i { s with queue := rest } = .next p ∧ i ∉ [Instr.rewindIn, .compress]) ∧
      (∃ (s p : State) (i : Instr) (rest : List Turn), s.status.busy = true ∧ s.StreamsOk ∧ decode s.pending = .ok i ∧
        exec i { s with queue := rest } = .next p ∧ i ∈ [Instr.rewindIn, .compress]) ∧
      (∃ s : State, s.status.busy = true ∧ ∀ i, decode s.pending ≠ .ok i) ∧ ∃ v : Word, v.getLsbD 0 = true :=
  ⟨⟨base.accept 8, _, .writeMagic, [], rfl, Nat.le_refl _, rfl, exec_after (by decide +kernel), by decide⟩,
    ⟨base.accept 0x0A, _, .rewindIn, [], rfl, Nat.le_refl _, rfl, exec_after (by decide +kernel), by decide⟩,
    ⟨base.accept 0x0C, rfl, fun i => by cases i <;> decide⟩, 1, by decide⟩

theorem witness_StreamActions : base.status.busy = false ∧ (base.accept 1).status.busy = true := ⟨rfl, rfl⟩

/-- One completion bit is set, and the write clears that one. -/
theorem witness_IrqSignalsCompletion :
    (∃ (i : Instr) (s t : State), exec i s = .next t) ∧
      ∃ (s : State) (v : Word), s.status.busy = false ∧ (s.status.done = true → v.getLsbD 1 = true) ∧
        (s.status.err = true → v.getLsbD 2 = true) ∧ v.getLsbD 0 = false ∧ s.status.done = true :=
  ⟨⟨.nop, base, _, rfl⟩, ⟨{ base with status := { base.status with done := true } }, 2, by decide⟩⟩

theorem witness_AcceptedCommandIsNotLeftPending :
    ∃ s : State, s.TreeOk ∧ s.status.busy = true ∧ s.queue.length = 1 :=
  ⟨accepted 1 base, ⟨fun h => (by cases h), fun _ => rfl⟩, rfl, rfl⟩

theorem witness_StepKeepsStreamsAndStatus :
    ∃ s t : State, step s = .next t ∧ s.StreamsOk ∧ s.StatusOk :=
  ⟨accepted 0 base, _, step_nop base, Nat.le_refl _,
    ⟨rfl, fun h => (by cases h.1), fun _ => ⟨rfl, rfl⟩, fun h => (by cases h), fun h => (by cases h)⟩⟩

theorem witness_StepKeepsTreeValid : ∃ s t : State, s.TreeOk ∧ s.status.treeValid = true ∧ step s = .next t :=
  ⟨accepted 0 duo, _, ⟨fun _ => ⟨_, duo_holds.congr (s' := accepted 0 duo) rfl rfl rfl rfl⟩,
    fun h => absurd (duo_valid.symm.trans h) (by decide)⟩, duo_valid, step_nop duo⟩

/-- Codes of a tree, and a step that keeps them. -/
theorem witness_StepKeepsCodesCurrent :
    ∃ s t : State, s.TreeOk ∧ s.CodesOk ∧ s.status.codeValid = true ∧ step s = .next t := by
  obtain ⟨code, -, h⟩ := genCodesBody_ok duo_valid duo_holds (by decide)
  refine ⟨accepted 0
      { duo with
        code := code, status := { duo.status with codeValid := true }
        regs := { duo.regs with maxLen := 1 } }, _,
    ⟨fun _ => ⟨_, duo_holds.congr rfl rfl rfl rfl⟩, fun h => ?_⟩,
    fun _ => ⟨duo_valid, duoTree, (duo_holds.congr rfl rfl rfl rfl).spells, by decide, h, rfl⟩, rfl, step_nop _⟩
  exact absurd (duo_valid.symm.trans h) (by decide)

/-- The two ways a host stops the model. -/
theorem witness_OnlyHostMisuseStopsTheModel :
    ∃ s : State, s.TreeOk ∧ step s = .fault .streamMoveWhileBusy :=
  ⟨{ base.accept 1 with queue := [.host .openOut] }, ⟨fun h => (by cases h), fun _ => rfl⟩, rfl⟩

end Sys2Proof.Tests
end

/-! PROOFS. Which part of the state each command writes (10_state.md R50, 20_memory.md R82): every part is written by a few
kinds of primitive operation, and `effectsOf` says which kinds each command uses. -/

namespace Sys2Proof.Machine

/-- The operations of the kind `e` relate the state before and the state after by `R`. -/
def Effect.Within (R : State → State → Prop) : Effect → Prop
  | .read => ∀ s p, R s (s.seek p)
  | .rewind => ∀ s, R s s.rewind
  | .write => ∀ s bs, R s (s.writeStr bs)
  | .close => ∀ s, R s s.close
  | .dec => ∀ s d, R s (s.setDec d)
  | .freq => (∀ s, R s s.clearFreq) ∧ ∀ s i w, R s (s.setFreq i w)
  | .tree => (∀ s, R s s.dropTree) ∧ (∀ s i x, R s (s.setNode i x)) ∧ ∀ s a b c w, R s (s.publishTree a b c w)
  | .codes => (∀ s, R s s.dropCodes) ∧ (∀ s i e, R s (s.setCode i e)) ∧ ∀ s, R s s.publishCodes

/-- A chaining relation that the effects in `es` stay within is kept by their operations. -/
theorem Chains.keeps {R : State → State → Prop} (hc : Chains R) {es : List Effect} (h : ∀ e ∈ es, e.Within R) :
    Keeps es R where
  toChains := hc
  read m s _ := h _ m s _
  toEnd m s := h _ m s _
  rewind m := h _ m
  write m := h _ m
  close m := h _ m
  dec m := h _ m
  clearFreq m := (h _ m).1
  freq m := (h _ m).2
  dropTree m := (h _ m).1
  node m := (h _ m).2.1
  publishTree m := (h _ m).2.2
  dropCodes m := (h _ m).1
  code m := (h _ m).2.1
  publishCodes m := (h _ m).2.2

theorem chains_sameValue {α : Type} (f : State → α) : Chains fun s t => f t = f s :=
  ⟨fun _ => rfl, fun h1 h2 => h2.trans h1⟩

/-- The part `f` of the state is written by no effect outside `es`, and not by completion (R232). -/
structure WrittenOnlyBy {α : Type} (es : List Effect) (f : State → α) : Prop where
  effect : ∀ e, e ∉ es → e.Within fun s t => f t = f s
  completeOk : ∀ s, f s.completeOk = f s
  completeErr : ∀ s c, f (s.completeErr c) = f s

namespace WrittenOnlyBy

variable {α : Type} {es : List Effect} {f : State → α} {i : Instr}

theorem keeps (h : WrittenOnlyBy es f) (hi : ∀ e ∈ effectsOf i, e ∉ es) :
    Keeps (effectsOf i) fun s t => f t = f s :=
  (chains_sameValue f).keeps fun e he => h.effect e (hi e he)

/-- A command without an effect in `es` leaves `f`. -/
theorem exec (h : WrittenOnlyBy es f) {s t : State} (he : Machine.exec i s = .next t)
    (hi : ∀ e ∈ effectsOf i, e ∉ es) : f t = f s :=
  exec_state (h.keeps hi) h.completeOk h.completeErr he

/-- The body of such a command leaves `f`, however it ends. -/
theorem body (h : WrittenOnlyBy es f) (hi : ∀ e ∈ effectsOf i, e ∉ es) (s : State) : f (bodyOf i s).state = f s :=
  (h.keeps hi).body s

end WrittenOnlyBy

/-! ### The parts of the state -/

/-- What no command writes: the fields that HOST alone writes, OVR, the data of IN and the model's own fields. -/
def State.hostPart (s : State) :
    Word × Word × Cfg × Word × IndexRegs × Bool × Bits × List Turn × Option Response × Nat :=
  (s.cmd, s.pending, s.cfg, s.magic, s.idx, s.status.ovr, s.inp.data, s.queue, s.response, s.draws)

/-- NODE and what describes the tree in it: TREE_VALID and the result registers but MAX_LEN. -/
def State.treePart (s : State) : Vector (Option Node) 513 × Bool × TreeRegs :=
  (s.node, s.status.treeValid, { s.regs with maxLen := 0 })

/-- What says which codes are current: CODE_VALID and MAX_LEN. -/
def State.codeMark (s : State) : Bool × CodeLen := (s.status.codeValid, s.regs.maxLen)

/-- The tree and the codes: the arena, the code table, the result registers and the two flags. -/
def State.trees (s : State) : Vector (Option Node) 513 × Vector CodeEntry 257 × TreeRegs × Bool × Bool :=
  (s.node, s.code, s.regs, s.status.treeValid, s.status.codeValid)

theorem writtenOnlyBy_hostPart : WrittenOnlyBy [] State.hostPart where
  effect e _ := by cases e <;> simp [Effect.Within, State.hostPart, State.rewind]
  completeOk _ := rfl
  completeErr _ _ := rfl

theorem writtenOnlyBy_freq : WrittenOnlyBy [.freq] State.freq where
  effect e h := by cases e <;> simp [Effect.Within, State.rewind] at h ⊢
  completeOk _ := rfl
  completeErr _ _ := rfl

theorem writtenOnlyBy_treePart : WrittenOnlyBy [.tree] State.treePart where
  effect e h := by cases e <;> simp [Effect.Within, State.treePart, State.rewind] at h ⊢
  completeOk _ := rfl
  completeErr _ _ := rfl

theorem writtenOnlyBy_code : WrittenOnlyBy [.codes] State.code where
  effect e h := by cases e <;> simp [Effect.Within, State.rewind] at h ⊢
  completeOk _ := rfl
  completeErr _ _ := rfl

theorem writtenOnlyBy_codeMark : WrittenOnlyBy [.tree, .codes] State.codeMark where
  effect e h := by cases e <;> simp [Effect.Within, State.codeMark, State.rewind] at h ⊢
  completeOk _ := rfl
  completeErr _ _ := rfl

theorem writtenOnlyBy_trees : WrittenOnlyBy [.tree, .codes] State.trees where
  effect e h := by cases e <;> simp [Effect.Within, State.trees, State.rewind] at h ⊢
  completeOk _ := rfl
  completeErr _ _ := rfl

theorem writtenOnlyBy_decState : WrittenOnlyBy [.dec] fun s => s.status.decState where
  effect e h := by cases e <;> simp [Effect.Within, State.rewind] at h ⊢
  completeOk _ := rfl
  completeErr _ _ := rfl

theorem writtenOnlyBy_inp : WrittenOnlyBy [.read, .rewind] State.inp where
  effect e h := by cases e <;> simp [Effect.Within] at h ⊢
  completeOk _ := rfl
  completeErr _ _ := rfl

theorem writtenOnlyBy_out : WrittenOnlyBy [.write, .close] State.out where
  effect e h := by cases e <;> simp [Effect.Within, State.rewind] at h ⊢
  completeOk _ := rfl
  completeErr _ _ := rfl

theorem writtenOnlyBy_outClosed : WrittenOnlyBy [.close] fun s => s.out.closed where
  effect e h := by cases e <;> simp [Effect.Within, State.rewind] at h ⊢
  completeOk _ := rfl
  completeErr _ _ := rfl

/-! ### OUT only grows -/

/-- R74: Close only appends. -/
theorem OutStream.bits_prefix_close (o : OutStream) : o.bits <+: o.close.bits := by
  rw [OutStream.close]
  split
  · exact List.prefix_rfl
  · exact List.prefix_append ..

theorem chains_outGrows : Chains fun s t => s.out.bits <+: t.out.bits :=
  ⟨fun _ => List.prefix_rfl, List.IsPrefix.trans⟩

theorem within_outGrows (e : Effect) : e.Within fun s t => s.out.bits <+: t.out.bits := by
  cases e with
  | close => exact fun s => s.out.bits_prefix_close
  | _ => simp [Effect.Within, State.rewind]

theorem exec_out_grows {i : Instr} {s t : State} (h : exec i s = .next t) : s.out.bits <+: t.out.bits :=
  exec_state (chains_outGrows.keeps fun e _ => within_outGrows e) (fun _ => List.prefix_rfl)
    (fun _ _ => List.prefix_rfl) h

/-! ### The obligations -/

/-- Settles O37: no effect of a command writes the host's part of the state, and each lets OUT only grow. -/
theorem commandsLeaveHostRegisters : Obligations.CommandsLeaveHostRegisters := by
  intro i s t h
  have hp : t.hostPart = s.hostPart := writtenOnlyBy_hostPart.exec h fun _ _ => List.not_mem_nil
  simp only [State.hostPart, Prod.mk.injEq] at hp
  obtain ⟨hcmd, hpend, hcfg, hmagic, hidx, hovr, hdata, hqueue, hresp, hdraws⟩ := hp
  exact ⟨hcmd, hpend, hcfg, hmagic, hidx, hovr, hdata, exec_out_grows h, hqueue, hresp, hdraws⟩

/-- Settles O38: each part of the state is left by the commands that have none of the effects writing it. -/
theorem commandsWriteOnlyTheirState : Obligations.CommandsWriteOnlyTheirState := by
  intro i s t h
  refine ⟨fun hi => writtenOnlyBy_freq.exec h ?_, fun hi => ?_, fun hi => writtenOnlyBy_code.exec h ?_, fun hi => ?_,
    fun hi => writtenOnlyBy_decState.exec h ?_, fun hi => writtenOnlyBy_inp.exec h ?_,
    fun hi => writtenOnlyBy_out.exec h ?_, fun hi => writtenOnlyBy_outClosed.exec h ?_⟩
  case refine_2 =>
    have ht : t.treePart = s.treePart := writtenOnlyBy_treePart.exec h (by revert hi; cases i <;> decide)
    simpa only [State.treePart, Prod.mk.injEq] using ht
  case refine_4 =>
    have hc : t.codeMark = s.codeMark := writtenOnlyBy_codeMark.exec h (by revert hi; cases i <;> decide)
    simpa only [State.codeMark, Prod.mk.injEq] using hc
  -- which commands have an effect that writes the part: read off `effectsOf`
  all_goals revert hi; cases i <;> decide

end Sys2Proof.Machine

/-! PROOFS. The invariants of the tree and of the codes (10_state.md R41, R45, R50): TREE_VALID is true to the arena, and
CODE_VALID to the code table. A step reaches them only through the bodies of BUILD_TREE, GEN_CODES and READ_HEADER. -/

namespace Sys2Proof.Machine

/-! ### Predicates that read the tree and the codes alone -/

/-- A predicate that is passed on can be chained. -/
theorem chains_preserved (P : State → Prop) : Chains fun s t => P s → P t :=
  ⟨fun _ h => h, fun h1 h2 h => h2 (h1 h)⟩

theorem trees_eq_iff {s t : State} : t.trees = s.trees ↔
    t.node = s.node ∧ t.code = s.code ∧ t.regs = s.regs ∧ t.status.treeValid = s.status.treeValid ∧
      t.status.codeValid = s.status.codeValid := by
  simp [State.trees]

/-- A predicate that reads nothing but the tree and the codes, holds after reset, and is kept by the bodies of the three
commands that write them. -/
structure TreeInvariant (P : State → Prop) : Prop where
  congr : ∀ {s t : State}, P s → t.trees = s.trees → P t
  reset : P State.reset
  buildTree : ∀ s, P s → P (buildTreeBody s).state
  genCodes : ∀ s, P s → P (genCodesBody s).state
  readHeader : ∀ s, P s → P (readHeaderBody s).state

namespace TreeInvariant

variable {P : State → Prop}

theorem body_of_no_write (h : TreeInvariant P) {i : Instr} (hi : ∀ e ∈ effectsOf i, e ∉ [.tree, .codes]) (s : State)
    (hs : P s) : P (bodyOf i s).state :=
  h.congr hs (writtenOnlyBy_trees.body hi s)

/-- R212: the steps of COMPRESS keep it one after the other. -/
theorem compress (h : TreeInvariant P) (s : State) : P s → P (compressBody s).state := by
  have hc := chains_preserved P
  have same : ∀ {i : Instr}, (∀ e ∈ effectsOf i, e ∉ [.tree, .codes]) → ∀ s, P s → P (bodyOf i s).state :=
    h.body_of_no_write
  exact hc.andThen (same (i := .count) (by decide) s) fun s1 _ =>
    hc.andThen (same (i := .rewindIn) (by decide) s1) fun s2 _ =>
      hc.andThen (h.buildTree s2) fun s3 _ => hc.andThen (h.genCodes s3) fun s4 _ =>
        hc.andThen (same (i := .writeMagic) (by decide) s4) fun s5 _ =>
          hc.andThen (same (i := .writeHeader) (by decide) s5) fun s6 _ =>
            hc.andThen (same (i := .encodeBody) (by decide) s6) fun s7 _ =>
              same (i := .closeOut) (by decide) s7

/-- R216: the steps of DECOMPRESS keep it one after the other. -/
theorem decompress (h : TreeInvariant P) (s : State) : P s → P (decompressBody s).state := by
  have hc := chains_preserved P
  exact hc.andThen (h.body_of_no_write (i := .checkMagic) (by decide) s) fun s1 _ =>
    hc.andThen (h.readHeader s1) fun s2 _ =>
      hc.andThen (h.body_of_no_write (i := .decodeBody) (by decide) s2) fun s3 _ =>
        h.body_of_no_write (i := .closeOut) (by decide) s3

theorem body (h : TreeInvariant P) (i : Instr) (s : State) : P s → P (bodyOf i s).state := by
  cases i with
  | buildTree => exact h.buildTree s
  | genCodes => exact h.genCodes s
  | readHeader => exact h.readHeader s
  | compress => exact h.compress s
  | decompress => exact h.decompress s
  | nop | count | writeHeader | encodeBody | decodeBody | writeMagic | checkMagic | rewindIn | closeOut =>
    exact h.body_of_no_write (by decide) s

/-- R232: the completion changes nothing that the invariant reads. -/
theorem exec (h : TreeInvariant P) {i : Instr} {s t : State} (hs : P s) (he : Machine.exec i s = .next t) : P t := by
  have hb := h.body i s hs
  rcases next_cases he with ⟨u, hu, rfl⟩ | ⟨c, u, hu, rfl, -⟩ <;> rw [hu] at hb
  · exact h.congr hb rfl
  · exact h.congr hb rfl

theorem resetHtb (h : TreeInvariant P) (s post : State) : P (s.resetHtb post) := by
  rw [State.resetHtb]
  split <;> exact h.congr h.reset rfl

theorem popped (h : TreeInvariant P) {s u : State} (hu : Popped s u) (hs : P s) : P u := by
  rcases hu with rfl | ⟨rest, rfl⟩
  · exact hs
  · exact h.congr hs rfl

/-- Every step keeps it. -/
theorem step (h : TreeInvariant P) {s t : State} (hs : P s) (ht : Machine.step s = .next t) : P t := by
  cases step_cases ht with
  | performed hu _ _ he => exact h.exec (h.popped hu hs) he
  | illegal hu => exact h.congr (h.popped hu hs) rfl
  | idle hu => exact h.popped hu hs
  | answered | accepted | cleared | dropped | configured | moved => exact h.congr hs rfl
  | reset => exact h.congr (h.resetHtb _ _) rfl

end TreeInvariant

/-! ### What the three commands leave -/

theorem treeOk_congr {s t : State} (hs : s.TreeOk) (h : t.trees = s.trees) : t.TreeOk := by
  obtain ⟨hn, -, hr, hv, -⟩ := trees_eq_iff.1 h
  refine ⟨fun ht => ?_, fun ht => hr.trans (hs.2 (hv ▸ ht))⟩
  obtain ⟨tree, hh⟩ := hs.1 (hv ▸ ht)
  exact ⟨tree, hh.congr hn.symm (by rw [hr]) (by rw [hr]) (by rw [hr])⟩

theorem codesOk_congr {s t : State} (hs : s.CodesOk) (h : t.trees = s.trees) : t.CodesOk := by
  obtain ⟨hn, hc, hr, hv, hcv⟩ := trees_eq_iff.1 h
  have hcode : t.codeAt = s.codeAt := by
    funext k
    rw [State.codeAt, State.codeAt, hc]
  intro ht
  obtain ⟨htv, tree, hsp, hnd, hhc, hml⟩ := hs (hcv ▸ ht)
  refine ⟨hv.trans htv, tree, ?_, hnd, ?_, by rw [hr]; exact hml⟩
  · rw [hr]
    exact (State.spells_congr hn.symm tree _).1 hsp
  · rw [State.HoldsCodes, hcode]
    exact hhc

/-- Without a tree and with zero result registers the tree's invariant holds. -/
theorem treeOk_of_dropped {s : State} (hv : s.status.treeValid = false)
    (hr : s.regs = { root := 0, nodeCount := 0, leafCount := 0, total := 0, maxLen := 0 }) : s.TreeOk :=
  ⟨fun h => absurd (hv.symm.trans h) Bool.false_ne_true, fun _ => hr⟩

theorem treeOk_of_holdsTree {s : State} {tree : HTree} (hv : s.status.treeValid = true) (h : s.HoldsTree tree) :
    s.TreeOk :=
  ⟨fun _ => ⟨tree, h⟩, fun hf => absurd (hf.symm.trans hv) Bool.false_ne_true⟩

theorem codesOk_of_codeValid_false {s : State} (h : s.status.codeValid = false) : s.CodesOk := fun ht =>
  absurd (h.symm.trans ht) Bool.false_ne_true

/-- R134: BUILD_TREE leaves a tree or none, and no codes. -/
theorem buildTreeBody_leaves (s : State) :
    (buildTreeBody s).state.TreeOk ∧ (buildTreeBody s).state.status.codeValid = false := by
  have hdrop : s.dropTree.TreeOk := treeOk_of_dropped rfl rfl
  by_cases h256 : s.freqAt 256 = 0
  · rw [buildTreeBody_noSentinel h256]
    exact ⟨hdrop, rfl⟩
  · by_cases hsum : s.freqSum ≤ 4294967295
    · obtain ⟨node, tree, hb, he⟩ := buildTreeBody_ok h256 hsum
      have hpos : 0 < s.activeSymbols.length :=
        List.length_pos_of_mem (State.mem_activeSymbols.2 ⟨Nat.le_refl _, h256⟩)
      rw [he]
      exact ⟨treeOk_of_holdsTree rfl (hb.holdsTree hpos _), rfl⟩
    · rw [buildTreeBody_overflow h256 (by omega)]
      exact ⟨hdrop, rfl⟩

/-- R166: READ_HEADER leaves a tree or none, and no codes. -/
theorem readHeaderBody_leaves (s : State) :
    (readHeaderBody s).state.TreeOk ∧ (readHeaderBody s).state.status.codeValid = false := by
  cases hr : readHeaderBody s with
  | ok u =>
    obtain ⟨tree, x, -, hl, hn, rfl⟩ := readHeaderBody_ok_inv hr
    refine ⟨treeOk_of_holdsTree rfl (holdsTree_place hn hl _), ?_⟩
    rw [State.place_eq]
    rfl
  | raised c u =>
    obtain ⟨node, pos, rfl, -⟩ := readHeaderBody_raised hr
    exact ⟨treeOk_of_dropped rfl rfl, rfl⟩
  | stuck f u => exact absurd hr (readHeaderBody_ne_stuck s u f)

/-- R150: GEN_CODES leaves the tree as it is, and the codes of that tree or none. -/
theorem genCodesBody_leaves {s : State} (h : s.TreeOk) :
    (genCodesBody s).state.TreeOk ∧ (genCodesBody s).state.CodesOk := by
  cases hv : s.status.treeValid with
  | false =>
    rw [genCodesBody_noTree hv]
    refine ⟨treeOk_of_dropped hv ?_, codesOk_of_codeValid_false rfl⟩
    show ({ s.regs with maxLen := 0 } : TreeRegs) = _
    rw [h.2 hv]
  | true =>
    obtain ⟨tree, ht⟩ := h.1 hv
    by_cases hnd : tree.symbols.Nodup
    · obtain ⟨code, he, hc⟩ := genCodesBody_ok hv ht hnd
      have hd : tree.depth < 2 ^ 9 := by
        have := tree.depth_lt_leaves
        have := ht.leaves_le
        omega
      rw [he]
      refine ⟨treeOk_of_holdsTree hv (ht.congr rfl rfl rfl rfl), fun _ => ⟨hv, tree, ?_, hnd, hc, ?_⟩⟩
      · exact (State.spells_congr (by rfl) tree _).1 ht.spells
      · exact (BitVec.toNat_ofNat ..).trans (Nat.mod_eq_of_lt hd)
    · obtain ⟨code, he⟩ := genCodesBody_dup hv ht hnd
      rw [he]
      exact ⟨treeOk_of_holdsTree hv (ht.congr rfl rfl rfl rfl), codesOk_of_codeValid_false rfl⟩

theorem treeOk_reset : State.reset.TreeOk := treeOk_of_dropped rfl rfl

theorem codesOk_reset : State.reset.CodesOk := codesOk_of_codeValid_false rfl

theorem treeInvariant_treeOk : TreeInvariant State.TreeOk where
  congr := treeOk_congr
  reset := treeOk_reset
  buildTree s _ := (buildTreeBody_leaves s).1
  genCodes _ h := (genCodesBody_leaves h).1
  readHeader s _ := (readHeaderBody_leaves s).1

/-- GEN_CODES needs a true TREE_VALID, so the invariant of the codes is kept together with that of the tree. -/
theorem treeInvariant_treeOk_and_codesOk : TreeInvariant fun s => s.TreeOk ∧ s.CodesOk where
  congr h he := ⟨treeOk_congr h.1 he, codesOk_congr h.2 he⟩
  reset := ⟨treeOk_reset, codesOk_reset⟩
  buildTree s _ := (buildTreeBody_leaves s).imp_right codesOk_of_codeValid_false
  genCodes _ h := genCodesBody_leaves h.1
  readHeader s _ := (readHeaderBody_leaves s).imp_right codesOk_of_codeValid_false

/-! ### The obligations -/

/-- Settles O56: the streams are empty, no outcome is set, and there are no tree and no codes. -/
theorem invariantsHoldAtReset : Obligations.InvariantsHoldAtReset := by
  refine ⟨Nat.le_refl _, ?_, treeOk_reset, codesOk_reset⟩
  exact ⟨rfl, fun h => Bool.false_ne_true h.1, fun _ => ⟨rfl, rfl⟩, fun _ => rfl, fun h => absurd h Bool.false_ne_true⟩

/-- Settles O58: TREE_VALID stays true to the arena, by the ways a step can go. -/
theorem stepKeepsTreeValid : Obligations.StepKeepsTreeValid := fun _ _ hs h => treeInvariant_treeOk.step hs h

/-- Settles O59: CODE_VALID stays true to the code table, by the ways a step can go. -/
theorem stepKeepsCodesCurrent : Obligations.StepKeepsCodesCurrent := fun _ _ ht hc h =>
  (treeInvariant_treeOk_and_codesOk.step ⟨ht, hc⟩ h).2

end Sys2Proof.Machine

/-! PROOFS. The code table of a tree that fits the arena (10_state.md R45, 41_code_table.md R155). -/

namespace Sys2Proof.Machine

theorem CodeEntry.ofPath_len_toNat {c : Bits} (h : c.length ≤ 256) : (CodeEntry.ofPath c).len.toNat = c.length := by
  rw [CodeEntry.ofPath, BitVec.toNat_ofNat, Nat.mod_eq_of_lt (by omega)]

theorem CodeEntry.ofPath_bits_toNat {c : Bits} (h : c.length ≤ 256) : (CodeEntry.ofPath c).bits.toNat = val c := by
  rw [CodeEntry.ofPath, BitVec.toNat_ofNat]
  exact Nat.mod_eq_of_lt (lt_of_lt_of_le (val_lt c) (Nat.pow_le_pow_right (by omega) h))

/-- R155: a path of a tree that fits the arena has at most 256 bits. -/
theorem State.HoldsTree.path_length_le {s : State} {tree : HTree} (h : s.HoldsTree tree) {p : Sym × Bits}
    (hp : p ∈ tree.paths) : p.2.length ≤ 256 := by
  have := HTree.path_length_le hp
  have := tree.depth_lt_leaves
  have := h.leaves_le
  omega

/-- Settles O19: the table's entry is made from the leaf's path, which is short enough to be stored whole. -/
theorem codeTableHoldsWholeCodes : Obligations.CodeTableHoldsWholeCodes := by
  intro s tree ht hc p hp
  have hlen := ht.path_length_le hp
  rw [State.codeString, hc.1 p hp]
  exact ⟨rfl, CodeEntry.ofPath_len_toNat hlen, hlen, CodeEntry.ofPath_bits_toNat hlen, codeString_ofPath hlen⟩

end Sys2Proof.Machine

/-! PROOFS. The turns of CORE and the host register window (10_state.md R22 to R58, 70_reset_and_hazards.md R260 to R262). -/

namespace Sys2Proof.Machine

/-! ### The turns of CORE -/

/-- CORE has the turn, which is taken from the queue where it is listed. -/
theorem step_of_core_turn {s u : State}
    (h : (s.queue = [] ∧ u = s) ∨ ∃ rest, s.queue = .core :: rest ∧ u = { s with queue := rest }) :
    step s = coreTurnWith exec u ∧ u.status = s.status ∧ u.pending = s.pending := by
  rcases h with ⟨hq, rfl⟩ | ⟨rest, hq, rfl⟩
  · exact ⟨by simp only [step, stepWith, hq], rfl, rfl⟩
  · exact ⟨by simp only [step, stepWith, hq], rfl, rfl⟩

theorem coreTurn_of_idle {u : State} (hb : u.status.busy = false) : coreTurnWith exec u = .next u := by
  simp [coreTurnWith, hb]

theorem coreTurn_of_busy {u : State} (hb : u.status.busy = true) : coreTurnWith exec u = performWith exec u :=
  if_pos hb

theorem perform_of_decode {u : State} {i : Instr} (h : decode u.pending = .ok i) : performWith exec u = exec i u := by
  simp only [performWith, h]

/-- R236. -/
theorem perform_of_illegal {u : State} (h : ∀ i, decode u.pending ≠ .ok i) :
    performWith exec u = .next (u.completeErr .illegalCmd) := by
  cases hd : decode u.pending with
  | ok i => exact absurd hd (h i)
  | error e => simp only [performWith, hd, execIllegal, finish_raised]

/-- Settles O3, by what BUSY and PENDING are. -/
theorem coreTurnPerformsDecodedCommand : Obligations.CoreTurnPerformsDecodedCommand := by
  intro s u h
  obtain ⟨hstep, hst, hp⟩ := step_of_core_turn h
  rw [hstep]
  refine ⟨fun hb i hi => ?_, fun hb hno => ?_, fun hb => coreTurn_of_idle (hst ▸ hb)⟩
  · rw [coreTurn_of_busy (hst ▸ hb), perform_of_decode (hp ▸ hi)]
  · rw [coreTurn_of_busy (hst ▸ hb), perform_of_illegal (hp ▸ hno), State.completeErr, hst]

/-! ### Accesses to the window -/

/-- A write to any register but CTRL leaves the turns to come, and does not depend on what the pending command would do. -/
theorem writeReg_with_queue (s post : State) (v : Word) (rest : List Turn) {r : HostReg} (hr : r ≠ .ctrl) :
    ({ s with queue := rest } : State).writeReg v post r = { s.writeReg v s r with queue := rest } := by
  cases r with
  | ctrl => exact absurd rfl hr
  | _ => rfl

/-- A write while BUSY = 0 to any register but CTRL. -/
theorem hostWrites_idle {s : State} (hb : s.status.busy = false) (v : Word) {off : Nat} (h : off < 0x80)
    (h4 : off % 4 = 0) (hr : regAt (BitVec.ofNat 7 off) ≠ .ctrl) :
    s.HostWrites off v (s.writeReg v s (regAt (BitVec.ofNat 7 off))) := by
  intro rest
  rw [step_write_idle hb h h4, writeReg_with_queue s _ v rest hr]
  rfl

/-- R52: a write while BUSY = 1 to any register but CTRL and STATUS. -/
theorem hostWrites_dropped {s : State} (hb : s.status.busy = true) (v : Word) {off : Nat} (h : off < 0x80)
    (h4 : off % 4 = 0) (hr : (regAt (BitVec.ofNat 7 off)).writableBusy = false) : s.HostWrites off v s.dropWrite := by
  intro rest
  rw [step_write h h4, hostWrite, if_pos (by simp [hb, hr])]
  rfl

/-- A write to CTRL or STATUS, busy or not. -/
theorem step_write_writableBusy {s : State} (v : Word) {off : Nat} (h : off < 0x80) (h4 : off % 4 = 0)
    (hr : (regAt (BitVec.ofNat 7 off)).writableBusy = true) (rest : List Turn) :
    step { s with queue := .host (.write off .word v) :: rest } =
      .next ((({ s with queue := rest } : State).writeReg v (postWith exec { s with queue := rest })
        (regAt (BitVec.ofNat 7 off))).respond .written) := by
  rw [step_write h h4, hostWrite, if_neg (by simp [hr])]

/-- R29. -/
theorem hostWrites_status (s : State) (v : Word) : s.HostWrites 0x0C v (s.clearStatus v) :=
  step_write_writableBusy v (by decide) (by decide) rfl

theorem regAt_ctrl : regAt (BitVec.ofNat 7 0x04) = .ctrl := rfl

theorem writeReg_ctrl_of_clear (s post : State) {v : Word} (hv : v.getLsbD 0 = false) : s.writeReg v post .ctrl = s :=
  if_neg (ne_true_of_eq_false hv)

theorem writeReg_ctrl_of_set (s post : State) {v : Word} (hv : v.getLsbD 0 = true) :
    s.writeReg v post .ctrl = s.resetHtb post :=
  if_pos hv

/-- R24: a write to CTRL that does not set SRST. -/
theorem hostWrites_ctrl_zero (s : State) {v : Word} (hv : v.getLsbD 0 = false) : s.HostWrites 0x04 v s := by
  intro rest
  rw [step_write_writableBusy v (by decide) (by decide) rfl, regAt_ctrl, writeReg_ctrl_of_clear _ _ hv]
  rfl

/-- R51: a read while BUSY = 1. -/
theorem step_read_busy {s : State} (hb : s.status.busy = true) {off : Nat} (h : off < 0x80) (h4 : off % 4 = 0)
    (rest : List Turn) :
    step { s with queue := .host (.read off .word) :: rest } =
      .next { s with
        queue := rest, response := some (.value (s.readRegBusy (regAt (BitVec.ofNat 7 off)))), draws := s.draws + 1 } := by
  rw [step_read h h4, hostRead, if_pos hb]
  generalize regAt (BitVec.ofNat 7 off) = r
  cases r <;> rfl

/-! ### What the registers read, and what a write does -/

/-- Settles O39: each field of the reset state by its definition. -/
theorem resetGivesTheListedValues : Obligations.ResetGivesTheListedValues := by
  have hcode : ∀ i, State.reset.codeAt i = CodeEntry.empty := fun i => by
    simp only [State.codeAt, State.reset, Vector.getElem?_replicate]
    split <;> rfl
  have hfreq : ∀ i, State.reset.freqAt i = 0 := fun i => by
    simp only [State.freqAt, State.reset, Vector.getElem?_replicate]
    split <;> rfl
  have hnode : ∀ i, State.reset.nodeAt i = none := fun i => by
    simp only [State.nodeAt, State.reset, Vector.getElem?_replicate]
    split <;> rfl
  exact ⟨rfl, rfl, rfl, rfl, rfl, rfl, rfl, rfl, hfreq, hcode, hnode, rfl, rfl, rfl⟩

/-- R22: a reserved offset at the end of the window reads 0. -/
theorem hostReads_reserved {s : State} (hb : s.status.busy = false) {off : Nat} (h1 : 0x54 ≤ off) (h2 : off ≤ 0x7C)
    (h4 : off % 4 = 0) : s.HostReads off 0 := by
  have h := hostReads_eq hb (off := off) (by omega) h4
  rwa [regAt_reserved h1 h2] at h

/-- Settles O40: each offset's register by the decoder of the window. -/
theorem plainRegistersRead : Obligations.PlainRegistersRead := by
  intro s hb
  have read : ∀ off < 0x80, off % 4 = 0 → s.HostReads off (s.readReg (regAt (BitVec.ofNat 7 off))) :=
    fun off h h4 => hostReads_eq hb h h4
  exact ⟨read 0x00 (by decide) rfl, read 0x04 (by decide) rfl, read 0x08 (by decide) rfl, read 0x14 (by decide) rfl,
    read 0x18 (by decide) rfl, read 0x1C (by decide) rfl, read 0x20 (by decide) rfl, read 0x24 (by decide) rfl,
    read 0x28 (by decide) rfl, read 0x2C (by decide) rfl, read 0x30 (by decide) rfl, read 0x38 (by decide) rfl,
    read 0x44 (by decide) rfl, read 0x4C (by decide) rfl, fun off h1 h2 h4 => hostReads_reserved hb h1 h2 h4⟩

/-- Settles O41: the packed words by where their fields stand. -/
theorem statusAndCfgReadTheirFields : Obligations.StatusAndCfgReadTheirFields := by
  refine ⟨rfl, fun s hb => ⟨s.statusWord, s.cfg.word, ?_, ?_, ?_⟩⟩
  · exact hostReads_eq hb (off := 0x0C) (by decide) rfl
  · exact hostReads_eq hb (off := 0x10) (by decide) rfl
  · obtain ⟨h0, h1, h2, h3, h4, h5, h6, h7, h8, h12, h14⟩ :=
      s.status.word_fields s.out.closed s.inEnd s.status.decState.toBits
    exact ⟨h0.trans hb, h1, h2, h3, h4, h5, h6, h7, h8, h12, h14, s.cfg.word_fields⟩

/-- An index above 256 selects no count. -/
theorem State.freqAt_of_gt (s : State) {i : Nat} (h : 256 < i) : s.freqAt i = 0 := by
  rw [State.freqAt, Vector.getElem?_eq_none (by omega)]
  rfl

theorem State.setFreq_of_gt (s : State) {i : Nat} (w : Word) (h : 256 < i) : s.setFreq i w = s := by
  rw [State.setFreq, Vector.setIfInBounds_eq_of_size_le (by omega)]

/-- Settles O42, by whether FREQ_IDX selects an entry. -/
theorem freqDataWindow : Obligations.FreqDataWindow := by
  intro s v hb
  have hread : s.HostReads 0x34 (s.freqAt s.idx.freqIdx.toNat) := hostReads_eq hb (off := 0x34) (by decide) rfl
  have hwrite : s.HostWrites 0x34 v (s.setFreq s.idx.freqIdx.toNat v) :=
    hostWrites_idle hb v (off := 0x34) (by decide) rfl (by decide)
  refine ⟨fun hi => ⟨hread, (s.setFreq s.idx.freqIdx.toNat v).freq, hwrite, fun k _ => ?_⟩, fun hi => ?_⟩
  · show (s.setFreq s.idx.freqIdx.toNat v).freqAt k = _
    rw [State.freqAt_setFreq]
    simp only [eq_comm (a := k), show s.idx.freqIdx.toNat < 257 by omega, and_true]
  · rw [s.freqAt_of_gt hi] at hread
    rw [s.setFreq_of_gt v hi] at hwrite
    exact ⟨hread, hwrite⟩

/-- R43: without a tree, or at and above NODE_COUNT, the windows show no entry. -/
theorem shownNode_eq_none {s : State} (h : s.status.treeValid = false ∨ s.regs.nodeCount ≤ s.idx.nodeIdx) :
    s.shownNode = none := by
  refine if_neg fun hc => ?_
  obtain ⟨hv, hlt⟩ := Bool.and_eq_true_iff.1 hc
  rcases h with h | h
  · exact Bool.false_ne_true (h.symm.trans hv)
  · exact absurd (of_decide_eq_true hlt) (BitVec.not_lt.2 h)

theorem shownNode_eq_nodeAt {s : State} (hv : s.status.treeValid = true) (h : s.idx.nodeIdx < s.regs.nodeCount) :
    s.shownNode = s.nodeAt s.idx.nodeIdx :=
  if_pos (by simp [hv, h])

/-- Both windows show the entry that `shownNode` selects. -/
theorem hostReads_node {s : State} (hb : s.status.busy = false) {n : Node} (h : s.shownNode = some n) :
    s.HostReads 0x3C n.weight ∧ s.HostReads 0x40 n.infoWord := by
  have hw : s.nodeWeightWord = n.weight := by rw [State.nodeWeightWord, h]
  have hi : s.nodeInfoWord = n.infoWord := by rw [State.nodeInfoWord, h]
  exact ⟨hw ▸ hostReads_eq hb (off := 0x3C) (by decide) rfl, hi ▸ hostReads_eq hb (off := 0x40) (by decide) rfl⟩

theorem hostReads_node_zero {s : State} (hb : s.status.busy = false) (h : s.shownNode = none) :
    s.HostReads 0x3C 0 ∧ s.HostReads 0x40 0 := by
  have hw : s.nodeWeightWord = 0 := by rw [State.nodeWeightWord, h]
  have hi : s.nodeInfoWord = 0 := by rw [State.nodeInfoWord, h]
  exact ⟨hw ▸ hostReads_eq hb (off := 0x3C) (by decide) rfl, hi ▸ hostReads_eq hb (off := 0x40) (by decide) rfl⟩

/-- Settles O43, by which entry the windows show. -/
theorem nodeWindows : Obligations.NodeWindows := by
  intro s hb
  refine ⟨fun h => hostReads_node_zero hb (shownNode_eq_none h), fun hv hlt => ⟨fun sym w hn => ?_, fun w l r hn => ?_⟩⟩
  · obtain ⟨hw, hi⟩ := hostReads_node hb ((shownNode_eq_nodeAt hv hlt).trans hn)
    exact ⟨hw, _, hi, Node.infoWord_leaf sym w⟩
  · obtain ⟨hw, hi⟩ := hostReads_node hb ((shownNode_eq_nodeAt hv hlt).trans hn)
    exact ⟨hw, _, hi, Node.infoWord_internal w l r⟩

/-- An index above 256 selects no code entry. -/
theorem State.codeAt_of_gt (s : State) {i : Nat} (h : 256 < i) : s.codeAt i = CodeEntry.empty := by
  rw [State.codeAt, Vector.getElem?_eq_none (by omega)]
  rfl

/-- R47: without codes, or above 256, the windows show the entry of no symbol. -/
theorem shownCode_eq_empty {s : State} (h : s.status.codeValid = false ∨ 256 < s.idx.codeIdx.toNat) :
    s.shownCode = CodeEntry.empty := by
  rw [State.shownCode]
  rcases h with h | h
  · rw [if_neg (by simp [h])]
  · rw [s.codeAt_of_gt h, ite_self]

/-- R47: where the fields of CODE_INFO stand. -/
theorem codeInfoWord_fields (s : State) :
    s.codeInfoWord.extractLsb' 0 9 = s.shownCode.len ∧ s.codeInfoWord.extractLsb' 9 22 = 0 ∧
      s.codeInfoWord.getLsbD 31 = s.shownCode.present := by
  refine ⟨?_, ?_, ?_⟩ <;>
    (simp (disch := omega) only [State.codeInfoWord, getLsbD_append_hi, BitVec.extractLsb'_append_eq_of_le,
      BitVec.extractLsb'_append_eq_of_add_le]
     simp)

/-- Settles O44, by which entry the windows show. -/
theorem codeWindows : Obligations.CodeWindows := by
  intro s hb
  have hinfo : s.HostReads 0x48 s.codeInfoWord := hostReads_eq hb (off := 0x48) (by decide) rfl
  have hword : s.HostReads 0x50 s.codeWordWord := hostReads_eq hb (off := 0x50) (by decide) rfl
  refine ⟨fun h => ?_, fun hv _ => ?_⟩
  · have hi : s.codeInfoWord = 0 := by
      rw [State.codeInfoWord, shownCode_eq_empty h]
      rfl
    have hw : s.codeWordWord = 0 := by
      rw [State.codeWordWord, shownCode_eq_empty h]
      exact BitVec.extractLsb'_zero ..
    exact ⟨hi ▸ hinfo, hw ▸ hword⟩
  · have hs : s.shownCode = s.codeAt s.idx.codeIdx.toNat := if_pos hv
    rw [State.codeWordWord, hs] at hword
    exact ⟨⟨_, hinfo, hs ▸ codeInfoWord_fields s⟩, hword⟩

/-- Settles O45: each offset's register by the decoder of the window. -/
theorem plainRegistersWrite : Obligations.PlainRegistersWrite := by
  intro s v hb
  have write : ∀ off < 0x80, off % 4 = 0 → regAt (BitVec.ofNat 7 off) ≠ .ctrl →
      s.HostWrites off v (s.writeReg v s (regAt (BitVec.ofNat 7 off))) := fun off h h4 hr => hostWrites_idle hb v h h4 hr
  refine ⟨fun hv => hostWrites_ctrl_zero s hv, write 0x10 (by decide) rfl (by decide),
    write 0x14 (by decide) rfl (by decide), write 0x30 (by decide) rfl (by decide),
    write 0x38 (by decide) rfl (by decide), write 0x44 (by decide) rfl (by decide),
    write 0x4C (by decide) rfl (by decide), ?_, fun off h1 h2 h4 => ?_⟩
  · simp only [List.forall_mem_cons, List.not_mem_nil, false_implies, implies_true, and_true]
    exact ⟨write 0x00 (by decide) rfl (by decide), write 0x18 (by decide) rfl (by decide),
      write 0x1C (by decide) rfl (by decide), write 0x20 (by decide) rfl (by decide),
      write 0x24 (by decide) rfl (by decide), write 0x28 (by decide) rfl (by decide),
      write 0x2C (by decide) rfl (by decide), write 0x3C (by decide) rfl (by decide),
      write 0x40 (by decide) rfl (by decide), write 0x48 (by decide) rfl (by decide),
      write 0x50 (by decide) rfl (by decide)⟩
  · have hr := regAt_reserved h1 h2
    have h := write off (by omega) h4 (by rw [hr]; decide)
    rwa [hr] at h

/-- Settles O46: the write reaches CMD, which accepts every word. -/
theorem commandAcceptance : Obligations.CommandAcceptance := fun _ v hb =>
  hostWrites_idle hb v (off := 0x08) (by decide) rfl (by decide)

/-- R29: a W1C flag is left where it was set and is not cleared. -/
theorem clearStatus_flags (s : State) (v : Word) :
    ((s.clearStatus v).status.done = true ↔ s.status.done = true ∧ v.getLsbD 1 = false) ∧
      ((s.clearStatus v).status.err = true ↔ s.status.err = true ∧ v.getLsbD 2 = false) ∧
      ((s.clearStatus v).status.ovr = true ↔ s.status.ovr = true ∧ v.getLsbD 3 = false) := by
  simp only [State.clearStatus, Bool.and_eq_true, Bool.not_eq_true', and_self]

/-- Settles O47: the write reaches STATUS whether BUSY is 0 or 1. -/
theorem statusWriteClears : Obligations.StatusWriteClears := fun s v =>
  ⟨s.clearStatus v, hostWrites_status s v, rfl, clearStatus_flags s v⟩

/-- Settles O48, by which registers take a write while BUSY = 1. -/
theorem busyWritesAreDropped : Obligations.BusyWritesAreDropped := fun s v hb =>
  ⟨fun _ h h4 h1 h2 => hostWrites_dropped hb v h h4 (regAt_busy h h1 h2), fun hv => hostWrites_ctrl_zero s hv⟩

/-- Settles O49: what is not drawn is read as while BUSY = 0, and STATUS by where its fields stand. -/
theorem busyReads : Obligations.BusyReads := by
  intro s rest hb
  refine fun off h h4 => ⟨s.readRegBusy (regAt (BitVec.ofNat 7 off)), step_read_busy hb h h4 rest, ?_⟩
  refine ⟨?_, ?_, ?_, ?_, ?_, ?_, ?_, ?_, ?_, ?_, ?_⟩
  · rintro rfl; rfl
  · rintro rfl; rfl
  · rintro rfl; rfl
  · rintro rfl; rfl
  · rintro rfl; exact s.cfg.word_fields
  · rintro rfl; rfl
  · rintro rfl; rfl
  · rintro rfl; rfl
  · rintro rfl; rfl
  · rintro (rfl | h54)
    · rfl
    · rw [regAt_reserved h54 (by omega)]
      rfl
  · rintro rfl
    obtain ⟨h0, h1, h2, h3, h4, h5, -, -, h8, -, h14⟩ := s.status.word_fields (Config.freeOutClosed s.draws)
      (Config.freeInEnd s.draws) (Config.freeDecState s.draws)
    exact ⟨h0.trans hb, h1, h2, h3, h4, h5, h8, h14⟩

/-- R261: with no command pending a reset leaves the streams and draws nothing. -/
theorem resetHtb_of_idle {s : State} (hb : s.status.busy = false) (post : State) : s.resetHtb post = s.resetCore :=
  if_neg (by simp [hb])

/-- Settles O51: either reset is `resetCore`, for no command is pending. -/
theorem resetWhileIdle : Obligations.ResetWhileIdle := by
  intro s rest v hb hv
  have reset : ∀ rest post, ({ s with queue := rest } : State).resetHtb post =
      ({ s with queue := rest } : State).resetCore := fun rest post =>
    resetHtb_of_idle (s := { s with queue := rest }) hb post
  refine ⟨?_, fun rest => ?_, rfl, rfl⟩
  · show Host.Outcome.next ((State.resetHtb { s with queue := rest } _).respond .acted) = _
    rw [reset]
    rfl
  · rw [step_write_writableBusy v (by decide) (by decide) rfl, regAt_ctrl, writeReg_ctrl_of_set _ _ hv, reset]
    rfl

end Sys2Proof.Machine

/-! PROOFS. The stream actions of HOST (20_memory.md R77, R270), and the invariants of the streams and of the command outcome
(10_state.md R25, R27, R53, 20_memory.md R70, 60_exceptions.md R232). -/

namespace Sys2Proof.Machine

/-! ### Stream actions -/

theorem streamAction_of_idle {s : State} (hb : s.status.busy = false) (t : State) :
    streamAction s t = .next (t.respond .acted) :=
  if_neg (ne_true_of_eq_false hb)

theorem streamAction_of_busy {s : State} (hb : s.status.busy = true) (t : State) :
    streamAction s t = .fault .streamMoveWhileBusy :=
  if_pos hb

/-- Settles O53: AttachIn and OpenOut go by BUSY, which taking the turn from the queue leaves; TakeOut only answers. -/
theorem streamActions : Obligations.StreamActions := by
  intro s rest d
  have idle : s.status.busy = false → ∀ t, streamAction { s with queue := rest } t = .next (t.respond .acted) :=
    fun hb => streamAction_of_idle hb
  have busy : s.status.busy = true → ∀ t, streamAction { s with queue := rest } t = .fault .streamMoveWhileBusy :=
    fun hb => streamAction_of_busy hb
  exact ⟨fun hb => ⟨idle hb _, idle hb _⟩, rfl, fun hb => ⟨busy hb _, busy hb _⟩⟩

/-! ### The bounds of IN -/

/-- R71: a read moves IN.pos no further than the end of IN. -/
theorem InStream.read_pos_le (i : InStream) (n : Nat) : (i.read n).2 ≤ i.data.length := by
  rw [InStream.read]
  split
  · assumption
  · exact Nat.le_refl _

/-- R70: only reads and Rewind move IN.pos, and they move it within IN. -/
theorem keeps_streamsOk (es : List Effect) : Keeps es fun s t => s.StreamsOk → t.StreamsOk where
  toChains := chains_preserved State.StreamsOk
  read _ s n _ := s.inp.read_pos_le n
  toEnd _ _ _ := Nat.le_refl _
  rewind _ _ _ := Nat.zero_le _
  write _ _ _ h := h
  close _ _ h := h
  dec _ _ _ h := h
  clearFreq _ _ h := h
  freq _ _ _ _ h := h
  dropTree _ _ h := h
  node _ _ _ _ h := h
  publishTree _ _ _ _ _ _ h := h
  dropCodes _ _ h := h
  code _ _ _ _ h := h
  publishCodes _ _ h := h

theorem exec_streamsOk {i : Instr} {s t : State} (h : exec i s = .next t) : s.StreamsOk → t.StreamsOk :=
  exec_state (keeps_streamsOk _) (fun _ hs => hs) (fun _ _ hs => hs) h

/-- R263: the state that a reset compares with is left by a command, by the illegal word, or is the state itself. -/
theorem postWith_cases (s : State) :
    (∃ i, exec i s = .next (postWith exec s)) ∨ postWith exec s = s.completeErr .illegalCmd ∨ postWith exec s = s := by
  cases hd : decode s.pending with
  | error e => exact .inr (.inl (postWith_illegal (by simp [hd])))
  | ok i =>
    rw [postWith, perform_of_decode hd]
    cases he : exec i s with
    | next t => exact .inl ⟨i, he⟩
    | fault f => exact .inr (.inr rfl)
    | refused r => exact .inr (.inr rfl)

/-- No command moves IN.pos out of IN, whose data it leaves. -/
theorem postWith_pos_le {s : State} (hs : s.StreamsOk) : (postWith exec s).inp.pos ≤ s.inp.data.length := by
  rcases postWith_cases s with ⟨i, he⟩ | h | h
  · obtain ⟨-, -, -, -, -, -, hdata, -⟩ := commandsLeaveHostRegisters i s _ he
    exact hdata ▸ exec_streamsOk he hs
  · rw [h]
    exact hs
  · rw [h]
    exact hs

/-- R263: an abandoned command leaves IN.pos within IN. -/
theorem abandonedPos_le {s : State} {pos1 : Nat} (hs : s.StreamsOk) (h1 : pos1 ≤ s.inp.data.length) :
    s.abandonedPos pos1 ≤ s.inp.data.length := by
  rw [State.abandonedPos]
  split
  · exact Nat.le_of_lt_succ (Nat.mod_lt _ (Nat.succ_pos _))
  · have hmove : Config.freePos s.draws % (pos1 - s.inp.pos + 1) < pos1 - s.inp.pos + 1 := Nat.mod_lt _ (Nat.succ_pos _)
    rw [State.StreamsOk] at hs
    omega

theorem resetHtb_streamsOk {s post : State} (hs : s.StreamsOk) (hp : post.inp.pos ≤ s.inp.data.length) :
    (s.resetHtb post).StreamsOk := by
  rw [State.resetHtb]
  split
  · exact abandonedPos_le hs hp
  · exact hs

theorem popped_inp {s u : State} (h : Popped s u) : u.inp = s.inp := by
  rcases h with rfl | ⟨rest, rfl⟩ <;> rfl

theorem streamsOk_congr {s t : State} (hs : s.StreamsOk) (h : t.inp = s.inp) : t.StreamsOk := by
  rw [State.StreamsOk, h]
  exact hs

/-- R70: every way a step can go keeps IN.pos within IN. -/
theorem step_streamsOk {s t : State} (h : step s = .next t) (hs : s.StreamsOk) : t.StreamsOk := by
  have popped : ∀ {u}, Popped s u → u.StreamsOk := fun hu => streamsOk_congr hs (popped_inp hu)
  cases step_cases h with
  | performed hu _ _ he => exact exec_streamsOk he (popped hu)
  | illegal hu => exact streamsOk_congr (popped hu) rfl
  | idle hu => exact popped hu
  | moved rest inp out _ hi =>
    rcases hi with rfl | h0
    · exact hs
    · exact h0.trans_le (Nat.zero_le _)
  | reset rest resp => exact resetHtb_streamsOk (s := { s with queue := rest }) hs (postWith_pos_le hs)
  | answered | accepted | cleared | dropped | configured => exact hs

/-! ### The command word and the outcome flags -/

/-- What the agreement of the command word and the outcome flags reads: CMD, PENDING, BUSY, DONE, ERR and ERRCODE. -/
def State.outcomePart (s : State) : Word × Word × Bool × Bool × Bool × ErrCode :=
  (s.cmd, s.pending, s.status.busy, s.status.done, s.status.err, s.status.errCode)

theorem statusOk_congr {s t : State} (hs : s.StatusOk) (h : t.outcomePart = s.outcomePart) : t.StatusOk := by
  simp only [State.outcomePart, Prod.mk.injEq] at h
  obtain ⟨hcmd, hpend, hbusy, hdone, herr, hcode⟩ := h
  constructor
  · rw [hpend, hcmd]
    exact hs.captured
  · rw [hdone, herr]
    exact hs.oneOutcome
  · rw [hbusy, hdone, herr]
    exact hs.busyNoOutcome
  · rw [hdone, hcode]
    exact hs.doneNoCode
  · rw [herr, hcode]
    exact hs.errHasCode

/-- R232: a completion sets the outcome flags anew, whatever they were. -/
theorem completeOk_statusOk {u : State} (h : u.pending = u.cmd) : u.completeOk.StatusOk where
  captured := h
  oneOutcome hc := Bool.false_ne_true hc.2
  busyNoOutcome hb := absurd hb Bool.false_ne_true
  doneNoCode _ := rfl
  errHasCode he := absurd he Bool.false_ne_true

theorem completeErr_statusOk {u : State} {c : ErrCode} (h : u.pending = u.cmd) (hc : c ≠ .none) :
    (u.completeErr c).StatusOk where
  captured := h
  oneOutcome ho := Bool.false_ne_true ho.1
  busyNoOutcome hb := absurd hb Bool.false_ne_true
  doneNoCode hd := absurd hd Bool.false_ne_true
  errHasCode _ := hc

/-- R230: NONE is no command's error. -/
theorem none_notMem_errorsOf (i : Instr) : ErrCode.none ∉ errorsOf i := by cases i <;> decide

/-- A body leaves the command word. -/
theorem body_command (i : Instr) (s : State) :
    (bodyOf i s).state.cmd = s.cmd ∧ (bodyOf i s).state.pending = s.pending := by
  have hp := writtenOnlyBy_hostPart.body (i := i) (fun _ _ => List.not_mem_nil) s
  simp only [State.hostPart, Prod.mk.injEq] at hp
  obtain ⟨hcmd, hpend, -⟩ := hp
  exact ⟨hcmd, hpend⟩

theorem exec_statusOk {i : Instr} {s t : State} (hs : s.pending = s.cmd) (h : exec i s = .next t) : t.StatusOk := by
  obtain ⟨hcmd, hpend⟩ := body_command i s
  have hcap : (bodyOf i s).state.pending = (bodyOf i s).state.cmd := hpend.trans (hs.trans hcmd.symm)
  rcases next_cases h with ⟨u, hu, rfl⟩ | ⟨c, u, hu, rfl, hc⟩ <;> rw [hu] at hcap
  · exact completeOk_statusOk hcap
  · exact completeErr_statusOk hcap (ne_of_mem_of_not_mem hc (none_notMem_errorsOf i))

/-- R27: acceptance captures the word and takes the outcome away. -/
theorem accept_statusOk (s : State) (v : Word) : (s.accept v).StatusOk where
  captured := rfl
  oneOutcome h := Bool.false_ne_true h.1
  busyNoOutcome _ := ⟨rfl, rfl⟩
  doneNoCode h := absurd h Bool.false_ne_true
  errHasCode h := absurd h Bool.false_ne_true

/-- R29: clearing W1C flags sets none of them, and leaves BUSY and ERRCODE. -/
theorem clearStatus_statusOk {s : State} (hs : s.StatusOk) (v : Word) : (s.clearStatus v).StatusOk := by
  obtain ⟨hdone, herr, -⟩ := clearStatus_flags s v
  constructor
  · exact hs.captured
  · exact fun h => hs.oneOutcome ⟨(hdone.1 h.1).1, (herr.1 h.2).1⟩
  · intro hb
    obtain ⟨hd, he⟩ := hs.busyNoOutcome hb
    simp only [State.clearStatus, hd, he, Bool.false_and, and_self]
  · exact fun h => hs.doneNoCode (hdone.1 h).1
  · exact fun h => hs.errHasCode (herr.1 h).1

theorem resetHtb_statusOk (s post : State) : (s.resetHtb post).StatusOk := by
  obtain ⟨-, hreset, -, -⟩ := invariantsHoldAtReset
  rw [State.resetHtb]
  split <;> exact statusOk_congr hreset rfl

theorem popped_outcomePart {s u : State} (h : Popped s u) : u.outcomePart = s.outcomePart := by
  rcases h with rfl | ⟨rest, rfl⟩ <;> rfl

/-- R25, R27, R53, R232: every way a step can go keeps the command word and the outcome flags in agreement. -/
theorem step_statusOk {s t : State} (h : step s = .next t) (hs : s.StatusOk) : t.StatusOk := by
  have popped : ∀ {u}, Popped s u → u.StatusOk := fun hu => statusOk_congr hs (popped_outcomePart hu)
  cases step_cases h with
  | performed hu _ _ he => exact exec_statusOk (popped hu).captured he
  | illegal hu => exact completeErr_statusOk (popped hu).captured (by decide)
  | idle hu => exact popped hu
  | accepted rest v => exact statusOk_congr (accept_statusOk s v) rfl
  | cleared rest v => exact statusOk_congr (clearStatus_statusOk hs v) rfl
  | reset => exact statusOk_congr (resetHtb_statusOk _ _) rfl
  | answered | dropped | configured | moved => exact statusOk_congr hs rfl

/-- Settles O57: both invariants are kept by each way a step can go. -/
theorem stepKeepsStreamsAndStatus : Obligations.StepKeepsStreamsAndStatus := fun _ _ h =>
  ⟨step_streamsOk h, step_statusOk h⟩

end Sys2Proof.Machine

/-! PROOFS. The opcode map (30_encoding.md R100 to R103): decoding and encoding agree on it, and the words outside it are the
reserved ones. -/

namespace Sys2Proof

/-- R101, R102: decoding undoes encoding, by the family of `Laws.DecodeEncode`. -/
theorem decode_encode (i : Instr) : decode (encode i) = .ok i := by
  have h : Laws.DecodeEncode.Statement i := by
    cases i with
    | nop => exact Laws.DecodeEncode.nop
    | count => exact Laws.DecodeEncode.count
    | buildTree => exact Laws.DecodeEncode.buildTree
    | genCodes => exact Laws.DecodeEncode.genCodes
    | writeHeader => exact Laws.DecodeEncode.writeHeader
    | readHeader => exact Laws.DecodeEncode.readHeader
    | encodeBody => exact Laws.DecodeEncode.encodeBody
    | decodeBody => exact Laws.DecodeEncode.decodeBody
    | writeMagic => exact Laws.DecodeEncode.writeMagic
    | checkMagic => exact Laws.DecodeEncode.checkMagic
    | rewindIn => exact Laws.DecodeEncode.rewindIn
    | closeOut => exact Laws.DecodeEncode.closeOut
    | compress => exact Laws.DecodeEncode.compress
    | decompress => exact Laws.DecodeEncode.decompress
  exact h.1

/-- R102: a command's word is its opcode, zero-extended. -/
theorem encode_of_mem_opcodeMap : ∀ row ∈ opcodeMap, encode row.2 = row.1.setWidth 32 := by decide

/-- R100: a word whose RSVD is 0 is its OPCODE, zero-extended. -/
theorem eq_setWidth_opcodeField {w : Word} (h : rsvdField w = 0) : w = (opcodeField w).setWidth 32 := by
  calc w = rsvdField w ++ opcodeField w := (BitVec.extractLsb'_append_extractLsb' (w := 24) (len := 8) (x := w)).symm
    _ = 0#24 ++ opcodeField w := by rw [h]; rfl
    _ = (opcodeField w).setWidth 32 := (BitVec.setWidth_eq_append (by decide)).symm

theorem eq_encode_of_mem_opcodeMap {w : Word} {i : Instr} (h : rsvdField w = 0)
    (hm : (opcodeField w, i) ∈ opcodeMap) : w = encode i :=
  (eq_setWidth_opcodeField h).trans (encode_of_mem_opcodeMap _ hm).symm

theorem mem_opcodeMap_of_decode {w : Word} {i : Instr} (h : decode w = .ok i) :
    rsvdField w = 0 ∧ (opcodeField w, i) ∈ opcodeMap := by
  unfold decode at h
  split at h
  case isTrue => cases h
  case isFalse hr =>
    split at h
    next row hf =>
      cases h
      have hop := List.find?_some hf
      exact ⟨not_not.1 hr, beq_iff_eq.1 hop ▸ List.mem_of_find?_eq_some hf⟩
    next => cases h

/-- R101: a word selects a command exactly when its RSVD is 0 and the opcode map has its OPCODE. -/
theorem decode_eq_ok_iff_mem {w : Word} {i : Instr} :
    decode w = .ok i ↔ rsvdField w = 0 ∧ (opcodeField w, i) ∈ opcodeMap :=
  ⟨mem_opcodeMap_of_decode, fun ⟨hr, hm⟩ => eq_encode_of_mem_opcodeMap hr hm ▸ decode_encode i⟩

theorem decode_eq_ok_iff_eq_encode {w : Word} {i : Instr} : decode w = .ok i ↔ w = encode i := by
  constructor
  · intro h
    obtain ⟨hr, hm⟩ := mem_opcodeMap_of_decode h
    exact eq_encode_of_mem_opcodeMap hr hm
  · rintro rfl
    exact decode_encode i

/-- R103: the opcodes that stand in no row of the opcode map. -/
theorem notMem_opcodeMap_iff_reserved (op : BitVec 8) :
    (∀ i, (op, i) ∉ opcodeMap) ↔ (0x0C ≤ op ∧ op ≤ 0x0F) ∨ 0x12 ≤ op := by
  have hmem : (∀ i, (op, i) ∉ opcodeMap) ↔ op ∉ opcodeMap.map Prod.fst := by
    simp only [List.mem_map, Prod.exists, exists_and_right, exists_eq_right, not_exists]
  rw [hmem]
  simp only [opcodeMap, List.map_cons, List.map_nil, List.mem_cons, List.not_mem_nil, or_false, not_or]
  bv_omega

/-- Settles O1: a word's two fields decide what it selects, and the map's rows are the words of `encode`. -/
theorem decodeSelectsExactlyTheMappedCommand : Obligations.DecodeSelectsExactlyTheMappedCommand := by
  refine ⟨fun w i => decode_eq_ok_iff_eq_encode, fun w => ?_⟩
  calc (∀ i, decode w ≠ .ok i)
      ↔ rsvdField w ≠ 0 ∨ ∀ i, (opcodeField w, i) ∉ opcodeMap := by
        simp only [ne_eq, decode_eq_ok_iff_mem, not_and_or, forall_or_left]
    _ ↔ _ := or_congr_right (notMem_opcodeMap_iff_reserved _)

/-- Settles O2: each of the words is the one that `encode` gives its command. -/
theorem specWordsDecode : Obligations.SpecWordsDecode :=
  ⟨decode_encode .nop, decode_encode .count, decode_encode .buildTree, decode_encode .genCodes,
    decode_encode .writeHeader, decode_encode .readHeader, decode_encode .encodeBody, decode_encode .decodeBody,
    decode_encode .writeMagic, decode_encode .checkMagic, decode_encode .rewindIn, decode_encode .closeOut,
    decode_encode .compress, decode_encode .decompress⟩

end Sys2Proof

/-! PROOFS. COUNT and BUILD_TREE (40_count_and_tree.md R130 to R139). COUNT's statements are read off its bodies' lemmas; the
statements about BUILD_TREE off `BuiltTree`, which also determines the arena that was built. -/

namespace Sys2Proof.Machine

/-! ### COUNT -/

/-- A count of bytes below 2^32 is stored whole. -/
theorem toNat_ofNat_count {bytes : List (BitVec 8)} (hn : bytes.length < 2 ^ 32) (b : BitVec 8) :
    (BitVec.ofNat 32 ((bytes.map BitVec.toNat).count b.toNat)).toNat = bytes.count b := by
  rw [count_map_toNat, BitVec.toNat_ofNat]
  exact Nat.mod_eq_of_lt (lt_of_le_of_lt List.count_le_length hn)

theorem freqAt_counted_sentinel (s : State) (bytes : List (BitVec 8)) : (s.counted bytes).freqAt 256 = 1 :=
  freqAt_counted s bytes 256

theorem freqAt_counted_byte (s : State) {bytes : List (BitVec 8)} (hn : bytes.length < 2 ^ 32) (b : BitVec 8) :
    ((s.counted bytes).freqAt b.toNat).toNat = bytes.count b := by
  have hb : b.toNat ≠ 256 := by have := b.isLt; omega
  rw [State.counted, freqAt_counted, if_neg hb, toNat_ofNat_count hn]

/-- Counting from cleared counts changes FREQ alone. -/
theorem State.clearFreq_tally_eq (s : State) (bytes : List (BitVec 8)) :
    s.clearFreq.tally bytes = { s with freq := (s.clearFreq.tally bytes).freq } :=
  State.tally_eq s.clearFreq bytes

theorem freqAt_clearFreq_tally (s : State) (bytes : List (BitVec 8)) (i : Nat) :
    (s.clearFreq.tally bytes).freqAt i = BitVec.ofNat 32 ((bytes.map BitVec.toNat).count i) := by
  simp [State.freqAt_tally]

/-- No byte is the sentinel. -/
theorem sentinel_notMem_bytes (bytes : List (BitVec 8)) : 256 ∉ bytes.map BitVec.toNat := by
  intro hm
  obtain ⟨b, -, hb⟩ := List.mem_map.1 hm
  have := b.isLt
  omega

/-- Settles O12: the loop counts every whole byte, and the trailing bits are consumed by the read that finds END. -/
theorem countCountsEveryByte : Obligations.CountCountsEveryByte := by
  intro s bytes tail h ht hn
  have hbody : bodyOf .count s = .ok (s.counted bytes) := countBody_ok h ht hn
  refine ⟨(s.counted bytes).freq, ?_, freqAt_counted_sentinel s bytes, freqAt_counted_byte s (by omega)⟩
  rw [exec_eq_finish, hbody, finish_ok, State.counted_eq]
  rfl

/-- Settles O13: the loop counts up to the limit and raises at the byte after it. -/
theorem countOverflowsAtTheLimit : Obligations.CountOverflowsAtTheLimit := by
  intro s bytes b x h hn
  have hbody : bodyOf .count s =
      .raised .overflow ((s.clearFreq.tally bytes).seek (s.inp.pos + 8 * (bytes.length + 1))) :=
    countBody_overflow h hn
  refine ⟨(s.clearFreq.tally bytes).freq, ?_, ?_, fun c => ?_⟩
  · rw [exec_eq_finish, hbody, finish_raised, hn, ← State.clearFreq_tally_eq]
  · rw [← State.clearFreq_tally_eq, freqAt_clearFreq_tally, List.count_eq_zero_of_not_mem (sentinel_notMem_bytes bytes)]
    rfl
  · rw [← State.clearFreq_tally_eq, freqAt_clearFreq_tally, toNat_ofNat_count (by omega)]

/-! ### The three ways BUILD_TREE goes -/

theorem exec_buildTree_noSentinel {s : State} (h : s.freqAt 256 = 0) :
    exec .buildTree s = .next (s.dropTree.completeErr .noSentinel) := by
  rw [exec_eq_finish, bodyOf, buildTreeBody_noSentinel h, finish_raised]

theorem exec_buildTree_overflow {s : State} (h : s.freqAt 256 ≠ 0) (ho : 4294967295 < s.freqSum) :
    exec .buildTree s = .next (s.dropTree.completeErr .overflow) := by
  rw [exec_eq_finish, bodyOf, buildTreeBody_overflow h ho, finish_raised]

theorem exec_buildTree_ok {s : State} (h : s.freqAt 256 ≠ 0) (ho : s.freqSum ≤ 4294967295) :
    ∃ node tree, BuiltTree s { s.dropTree with node := node } tree ∧ tree.weight = BitVec.ofNat 32 s.freqSum ∧
      exec .buildTree s = .next (({ s.dropTree with node := node } : State).publishTree
        (2 * s.activeSymbols.length - 2) (2 * s.activeSymbols.length - 1) s.activeSymbols.length
        (BitVec.ofNat 32 s.freqSum)).completeOk := by
  obtain ⟨node, tree, hb, he⟩ := buildTreeBody_ok h ho
  have hw : tree.weight = BitVec.ofNat 32 s.freqSum := by rw [← hb.weight, BitVec.ofNat_toNat, BitVec.setWidth_eq]
  exact ⟨node, tree, hb, hw, by rw [exec_eq_finish, bodyOf, he, finish_ok, hw]⟩

theorem activeSymbols_pos {s : State} (h : s.freqAt 256 ≠ 0) : 0 < s.activeSymbols.length :=
  List.length_pos_of_mem (State.mem_activeSymbols.2 ⟨Nat.le_refl _, h⟩)

/-- BUILD_TREE ends with DONE only past both of its checks (R134, R232). -/
theorem counts_of_exec_buildTree_done {s t : State} (he : exec .buildTree s = .next t) (hd : t.status.done = true) :
    s.freqAt 256 ≠ 0 ∧ s.freqSum ≤ 4294967295 := by
  by_cases h : s.freqAt 256 = 0
  · cases (exec_buildTree_noSentinel h).symm.trans he
    cases hd
  · by_cases ho : s.freqSum ≤ 4294967295
    · exact ⟨h, ho⟩
    · cases (exec_buildTree_overflow h (by omega)).symm.trans he
      cases hd

/-- Settles O14: each check that fails ends the body with the flags and the registers cleared on entry. -/
theorem buildTreeRefusesBadCounts : Obligations.BuildTreeRefusesBadCounts :=
  fun _ => ⟨exec_buildTree_noSentinel, exec_buildTree_overflow⟩

/-- Settles O15, by the invariant of the merge loop. -/
theorem buildTreeMergesLeastPairs : Obligations.BuildTreeMergesLeastPairs := by
  intro s h ho
  obtain ⟨node, tree, hb, -, he⟩ := exec_buildTree_ok h ho
  exact ⟨node, he, hb.leaves, hb.merges⟩

/-- Settles O16: BUILD_TREE ends with DONE only past its checks, and then leaves the tree of the merge loop. -/
theorem builtTreeIsFullOverActiveSymbols : Obligations.BuiltTreeIsFullOverActiveSymbols := by
  intro s t he hd
  obtain ⟨h, ho⟩ := counts_of_exec_buildTree_done he hd
  obtain ⟨node, tree, hb, hw, hok⟩ := exec_buildTree_ok h ho
  cases hok.symm.trans he
  have hleaves : tree.leaves = s.activeSymbols.length := by
    rw [← tree.symbols_length, hb.symbols.length_eq, List.length_map]
  have hdepth := tree.depth_lt_leaves
  exact ⟨tree, (hb.holdsTree (activeSymbols_pos h) _).congr rfl rfl rfl rfl, hleaves, by omega, hb.symbols, hb.weight,
    hw.symm⟩

/-! ### The built arena is determined by the counts (R139) -/

/-- The order of the keys (weight, index) is antisymmetric. -/
theorem State.KeyLe.antisymm {s : State} {i j : Nat} (hij : s.KeyLe i j) (hji : s.KeyLe j i) : i = j := by
  unfold State.KeyLe at hij hji
  omega

theorem SameBelow.keyLe {n i j : Nat} {s s' : State} (h : SameBelow n s s') (hi : i < n) (hj : j < n) :
    s.KeyLe i j ↔ s'.KeyLe i j := by
  rw [State.KeyLe, State.KeyLe, h.weightAt hi, h.weightAt hj]

/-- A merge of the two least is determined by the entries before it: the least key is one entry's, and so is the second. -/
theorem SameBelow.nodeAt_eq_of_mergesLeastTwo {k : Nat} {s s' : State} (h : SameBelow k s s')
    (hm : s.MergesLeastTwo k) (hm' : s'.MergesLeastTwo k) :
    s.nodeAt (BitVec.ofNat 10 k) = s'.nodeAt (BitVec.ofNat 10 k) := by
  obtain ⟨w, l, r, hn, hw, hl, hr, hlr, hleast, hsecond⟩ := hm
  obtain ⟨w', l', r', hn', hw', hl', hr', hlr', hleast', hsecond'⟩ := hm'
  have hlive : ∀ {j}, s'.LiveBefore k j → s.LiveBefore k j := (h.liveBefore (Nat.le_refl k)).2
  have hlive' : ∀ {j}, s.LiveBefore k j → s'.LiveBefore k j := (h.liveBefore (Nat.le_refl k)).1
  obtain rfl : l = l' := by
    refine BitVec.eq_of_toNat_eq ((hleast _ (hlive hl')).antisymm ?_)
    exact (h.keyLe hl'.1 hl.1).2 (hleast' _ (hlive' hl))
  obtain rfl : r = r' := by
    have hrl : r.toNat ≠ l.toNat := fun e => hlr (BitVec.eq_of_toNat_eq e.symm)
    have hrl' : r'.toNat ≠ l.toNat := fun e => hlr' (BitVec.eq_of_toNat_eq e.symm)
    refine BitVec.eq_of_toNat_eq ((hsecond _ (hlive hr') hrl').antisymm ?_)
    exact (h.keyLe hr'.1 hr.1).2 (hsecond' _ (hlive' hr) hrl)
  obtain rfl : w = w' := BitVec.eq_of_toNat_eq (by rw [hw, hw', h.weightAt hl.1, h.weightAt hr.1])
  rw [hn, hn']

theorem SameBelow.succ {n : Nat} {s s' : State} (h : SameBelow n s s')
    (hn : s.nodeAt (BitVec.ofNat 10 n) = s'.nodeAt (BitVec.ofNat 10 n)) : SameBelow (n + 1) s s' := by
  intro k hk
  rcases Nat.lt_succ_iff_lt_or_eq.1 hk with hlt | rfl
  · exact h k hlt
  · simpa using hn

/-- R139: the trees built from the same counts fill their arenas alike: the leaves are given, and each merge follows from the
entries before it. -/
theorem BuiltTree.sameBelow {s t s' t' : State} {tree tree' : HTree} (h : BuiltTree s t tree)
    (h' : BuiltTree s' t' tree') (hf : s.freqAt = s'.freqAt) : SameBelow (2 * s.activeSymbols.length - 1) t t' := by
  have hact : s'.activeSymbols = s.activeSymbols := by rw [State.activeSymbols, State.activeSymbols, hf]
  have hsame : ∀ n ≤ 2 * s.activeSymbols.length - 1, SameBelow n t t' := by
    intro n
    induction n with
    | zero => exact fun _ _ hk => absurd hk (Nat.not_lt_zero _)
    | succ n ih =>
      intro hn
      have hbelow := ih (by omega)
      refine hbelow.succ ?_
      by_cases hleaf : n < s.activeSymbols.length
      · rw [h.leaves n hleaf, h'.leaves n (hact ▸ hleaf)]
        simp only [hact, hf]
      · exact hbelow.nodeAt_eq_of_mergesLeastTwo (h.merges n (by omega) (by omega))
          (h'.merges n (by rw [hact]; omega) (by rw [hact]; omega))
  exact hsame _ (Nat.le_refl _)

/-- Settles O17: FREQ decides the checks, and the merge loop's tree is determined by it. -/
theorem buildTreeDependsOnCountsOnly : Obligations.BuildTreeDependsOnCountsOnly := by
  intro s s' t hfreq he
  have hf : s.freqAt = s'.freqAt := by funext i; rw [State.freqAt, State.freqAt, hfreq]
  have hsum : s.freqSum = s'.freqSum := by rw [State.freqSum, State.freqSum, hfreq]
  have hact : s.activeSymbols = s'.activeSymbols := by rw [State.activeSymbols, State.activeSymbols, hf]
  by_cases h : s.freqAt 256 = 0
  · cases (exec_buildTree_noSentinel h).symm.trans he
    exact ⟨_, exec_buildTree_noSentinel (hf ▸ h), rfl, rfl, rfl, rfl, rfl, fun k hk => absurd hk BitVec.not_lt_zero⟩
  by_cases ho : s.freqSum ≤ 4294967295
  · obtain ⟨node, tree, hb, -, hok⟩ := exec_buildTree_ok h ho
    obtain ⟨node', tree', hb', -, hok'⟩ := exec_buildTree_ok (s := s') (hf ▸ h) (hsum ▸ ho)
    cases hok.symm.trans he
    refine ⟨_, hok', by rw [hact, hsum]; rfl, rfl, rfl, rfl, rfl, fun k hk => (hb.sameBelow hb' hf k ?_).symm⟩
    have hlen := s.activeSymbols_length
    have hcount : k.toNat < (BitVec.ofNat 10 (2 * s.activeSymbols.length - 1)).toNat := hk
    rwa [toNat_ofNat_idx (by omega)] at hcount
  · have ho : 4294967295 < s.freqSum := by omega
    cases (exec_buildTree_overflow h ho).symm.trans he
    exact ⟨_, exec_buildTree_overflow (hf ▸ h) (hsum ▸ ho), rfl, rfl, rfl, rfl, rfl,
      fun k hk => absurd hk BitVec.not_lt_zero⟩

end Sys2Proof.Machine

/-! PROOFS. GEN_CODES (41_code_table.md R150 to R153): what a command leaves is read off its body's lemmas; that the codes
are prefix-free and complete is a fact about the paths of a tree, carried over to the table that holds them. -/

namespace Sys2Proof.Machine

/-! ### The three ways GEN_CODES goes -/

theorem exec_genCodes_noTree {s : State} (h : s.status.treeValid = false) :
    exec .genCodes s = .next (s.dropCodes.completeErr .noTree) := by
  rw [exec_eq_finish, bodyOf, genCodesBody_noTree h, finish_raised]

theorem exec_genCodes_dup {s : State} {tree : HTree} (hv : s.status.treeValid = true) (h : s.HoldsTree tree)
    (hd : ¬ tree.symbols.Nodup) :
    ∃ code, exec .genCodes s = .next (({ s.dropCodes with code := code } : State).completeErr .dupSymbol) := by
  obtain ⟨code, he⟩ := genCodesBody_dup hv h hd
  exact ⟨code, by rw [exec_eq_finish, bodyOf, he, finish_raised]⟩

theorem exec_genCodes_ok {s : State} {tree : HTree} (hv : s.status.treeValid = true) (h : s.HoldsTree tree)
    (hd : tree.symbols.Nodup) :
    ∃ code, exec .genCodes s =
        .next ({ s with
          code := code
          status := { s.status with codeValid := true }
          regs := { s.regs with maxLen := BitVec.ofNat 9 tree.depth } } : State).completeOk ∧
      ({ s with code := code } : State).HoldsCodes tree := by
  obtain ⟨code, he, hc⟩ := genCodesBody_ok hv h hd
  exact ⟨code, by rw [exec_eq_finish, bodyOf, he, finish_ok], hc⟩

/-- Settles O18, by what the body does: it raises NO_TREE, or assigns the leaves' paths until a symbol comes again. -/
theorem genCodesRecordsLeafPaths : Obligations.GenCodesRecordsLeafPaths :=
  fun _ => ⟨fun h => ⟨_, exec_genCodes_noTree h⟩, fun _ hv h => ⟨exec_genCodes_dup hv h, exec_genCodes_ok hv h⟩⟩

/-- GEN_CODES on a held tree ends with DONE only when each symbol is at one leaf, and then leaves the tree and its codes. -/
theorem holdsCodes_of_exec_genCodes_done {s t : State} {tree : HTree} (hv : s.status.treeValid = true)
    (h : s.HoldsTree tree) (he : exec .genCodes s = .next t) (hd : t.status.done = true) :
    tree.symbols.Nodup ∧ t.HoldsTree tree ∧ t.HoldsCodes tree := by
  by_cases hnd : tree.symbols.Nodup
  · obtain ⟨code, hok, hc⟩ := exec_genCodes_ok hv h hnd
    cases hok.symm.trans he
    exact ⟨hnd, h.congr rfl rfl rfl rfl, hc⟩
  · obtain ⟨code, herr⟩ := exec_genCodes_dup hv h hnd
    cases herr.symm.trans he
    cases hd

/-! ### The paths of a tree -/

/-- R153: the path of a leaf is a prefix of no other leaf's path. -/
theorem HTree.eq_of_path_prefix {t : HTree} {p q : Sym × Bits} (hp : p ∈ t.paths) (hq : q ∈ t.paths)
    (h : p.2 <+: q.2) : p = q := by
  induction t generalizing p q with
  | leaf sym w =>
    rw [HTree.paths, List.mem_singleton] at hp hq
    rw [hp, hq]
  | node w l r ihl ihr =>
    simp only [HTree.paths, List.mem_append, List.mem_map] at hp hq
    -- the first step of both paths leads to the same child
    rcases hp with ⟨p, hp, rfl⟩ | ⟨p, hp, rfl⟩ <;> rcases hq with ⟨q, hq, rfl⟩ | ⟨q, hq, rfl⟩ <;>
      obtain ⟨hb, h⟩ := List.cons_prefix_cons.1 h
    · rw [ihl hp hq h]
    · cases hb
    · cases hb
    · rw [ihr hp hq h]

/-- R153: the Kraft equality of a full binary tree. -/
theorem HTree.kraft {t : HTree} {n : Nat} (h : t.depth ≤ n) : (t.paths.map fun p => 2 ^ (n - p.2.length)).sum = 2 ^ n := by
  induction t generalizing n with
  | leaf sym w => simp [HTree.paths]
  | node w l r ihl ihr =>
    rw [HTree.depth] at h
    obtain ⟨m, rfl⟩ : ∃ m, n = m + 1 := ⟨n - 1, by omega⟩
    have hl := ihl (n := m) (by omega)
    have hr := ihr (n := m) (by omega)
    simp [HTree.paths, Function.comp_def, hl, hr, Nat.pow_succ, Nat.mul_two]

/-! ### The table that holds them -/

/-- R45: a present entry is the code of some leaf. -/
theorem State.HoldsCodes.exists_path_of_present {s : State} {tree : HTree} (hc : s.HoldsCodes tree) {i : Nat}
    (hi : (s.codeAt i).present = true) : ∃ p ∈ tree.paths, p.1.toNat = i := by
  by_contra hne
  rw [hc.2 i (by simpa [HTree.symbols] using hne)] at hi
  cases hi

/-- R153: where each symbol is at one leaf, a sum over the present entries of the table is a sum over the leaves. -/
theorem State.HoldsCodes.sum_present {s : State} {tree : HTree} (hc : s.HoldsCodes tree) (ht : s.HoldsTree tree)
    (hnd : tree.symbols.Nodup) (f : Nat → Nat) :
    ((List.range 257).map fun i => if (s.codeAt i).present then f (s.codeAt i).len.toNat else 0).sum =
      (tree.paths.map fun p => f p.2.length).sum := by
  have hkeys : (tree.symbols.map BitVec.toNat).Nodup := hnd.map fun _ _ => BitVec.eq_of_toNat_eq
  have hsub : (tree.symbols.map BitVec.toNat).toFinset ⊆ (List.range 257).toFinset := by
    intro i hi
    obtain ⟨sym, hsym, rfl⟩ := List.mem_map.1 (List.mem_toFinset.1 hi)
    exact List.mem_toFinset.2 (List.mem_range.2 (Nat.lt_succ_of_le (ht.legal sym hsym)))
  have hzero : ∀ i ∈ (List.range 257).toFinset, i ∉ (tree.symbols.map BitVec.toNat).toFinset →
      (if (s.codeAt i).present then f (s.codeAt i).len.toNat else 0) = 0 := by
    intro i _ hi
    rw [hc.2 i (hi ∘ List.mem_toFinset.2)]
    rfl
  rw [← List.sum_toFinset _ List.nodup_range, ← Finset.sum_subset hsub hzero, List.sum_toFinset _ hkeys, HTree.symbols,
    List.map_map, List.map_map]
  refine congrArg List.sum (List.map_congr_left fun p hp => ?_)
  obtain ⟨hpr, hlen, -⟩ := codeTableHoldsWholeCodes s tree ht hc p hp
  simp [hpr, hlen]

/-- Settles O20: the table holds the paths of the tree, which are prefix-free and fill the Kraft sum. -/
theorem codesArePrefixFreeAndComplete : Obligations.CodesArePrefixFreeAndComplete := by
  intro s t tree hv h _ he hd
  obtain ⟨hnd, ht, hc⟩ := holdsCodes_of_exec_genCodes_done hv h he hd
  refine ⟨fun i j hij hi hj hpre => hij ?_, ?_⟩
  · obtain ⟨p, hp, rfl⟩ := hc.exists_path_of_present hi
    obtain ⟨q, hq, rfl⟩ := hc.exists_path_of_present hj
    obtain ⟨-, -, -, -, hps⟩ := codeTableHoldsWholeCodes t tree ht hc p hp
    obtain ⟨-, -, -, -, hqs⟩ := codeTableHoldsWholeCodes t tree ht hc q hq
    rw [hps, hqs] at hpre
    rw [HTree.eq_of_path_prefix hp hq hpre]
  · have hdepth := tree.depth_lt_leaves
    have hleaves := ht.leaves_le
    rw [hc.sum_present ht hnd fun n => 2 ^ (256 - n), HTree.kraft (by omega)]

end Sys2Proof.Machine

/-! PROOFS. WRITE_HEADER and READ_HEADER (42_header.md R160 to R171). WRITE_HEADER's statement is read off its body's lemmas;
READ_HEADER ends in one of two ways, with the tree whose header stood in IN or without a tree, and its other statements
follow from these two. -/

namespace Sys2Proof.Machine

/-! ### The three ways WRITE_HEADER goes -/

theorem exec_writeHeader_noTree {s : State} (hv : s.status.treeValid = false) :
    exec .writeHeader s = .next (s.completeErr .noTree) := by
  rw [exec_eq_finish, bodyOf, writeHeaderBody, hv, State.require_false, Run.raised_andThen, finish_raised]

theorem exec_writeHeader_outClosed {s : State} (hv : s.status.treeValid = true) (ho : s.out.closed = true) :
    exec .writeHeader s = .next (s.completeErr .outClosed) := by
  rw [exec_eq_finish, bodyOf, writeHeaderBody, hv, State.require_true, Run.ok_andThen, ho, Bool.not_true,
    State.require_false, Run.raised_andThen, finish_raised]

theorem exec_writeHeader_ok {s : State} {tree : HTree} (hv : s.status.treeValid = true) (ho : s.out.closed = false)
    (h : s.HoldsTree tree) : exec .writeHeader s = .next (s.writeStr tree.header).completeOk := by
  rw [exec_eq_finish, bodyOf, writeHeaderBody_ok hv ho h, finish_ok]

/-- Settles O21: the body's two checks, and the header of the held tree, with at most 257 leaves of 11 bits each but one. -/
theorem writeHeaderEmitsTheTree : Obligations.WriteHeaderEmitsTheTree := by
  intro s
  refine ⟨exec_writeHeader_noTree, exec_writeHeader_outClosed, fun tree hv ho h => ⟨exec_writeHeader_ok hv ho h, ?_⟩⟩
  have hlen := tree.header_length
  have hleaves := h.leaves_le
  have hcount := h.leafCount
  omega

/-! ### The two ways READ_HEADER ends -/

/-- R166, R168: what READ_HEADER leaves when the header of `tree` stands in IN. -/
def State.headerRead (s : State) (tree : HTree) : State :=
  ((State.place tree 0 s.dropTree).seek (s.inp.pos + tree.header.length)).publishTree 0 tree.size tree.leaves 0

/-- It differs from the state before in NODE, IN.pos, the two valid flags and the result registers. -/
theorem State.headerRead_eq (s : State) (tree : HTree) :
    s.headerRead tree =
      { (s.seek (s.inp.pos + tree.header.length)) with
        node := (State.place tree 0 s.dropTree).node
        status := { s.status with treeValid := true, codeValid := false }
        regs :=
          { root := 0, nodeCount := BitVec.ofNat 10 tree.size, leafCount := BitVec.ofNat 10 tree.leaves, total := 0,
            maxLen := 0 } } := by
  rw [State.headerRead, State.place_eq]
  rfl

theorem exec_readHeader_ok {s : State} {tree : HTree} {x : Bits} (h : s.unread = tree.header ++ x)
    (hn : tree.size ≤ 513) (hl : tree.symbolsLegal) : exec .readHeader s = .next (s.headerRead tree).completeOk := by
  rw [exec_eq_finish, bodyOf, readHeaderBody_ok h hn hl, finish_ok, State.headerRead]

/-- READ_HEADER always completes: it has read the header of a tree that fits, or it has raised an error and left no tree. -/
theorem exec_readHeader_cases (s : State) :
    (∃ tree : HTree, tree.symbolsLegal ∧ tree.size ≤ 513 ∧ exec .readHeader s = .next (s.headerRead tree).completeOk) ∨
      ∃ node pos c,
        exec .readHeader s = .next ((({ s.dropTree with node := node } : State).seek pos).completeErr c) := by
  rw [exec_eq_finish, bodyOf]
  cases hr : readHeaderBody s with
  | ok u =>
    obtain ⟨tree, x, -, hl, hn, rfl⟩ := readHeaderBody_ok_inv hr
    exact .inl ⟨tree, hl, hn, rfl⟩
  | raised c u =>
    obtain ⟨node, pos, rfl, -⟩ := readHeaderBody_raised hr
    exact .inr ⟨node, pos, c, rfl⟩
  | stuck f u => exact absurd hr (readHeaderBody_ne_stuck s u f)

/-- Settles O22: Parse places the tree whose header it reads, and the registers describe that tree without its weights. -/
theorem readHeaderUndoesWriteHeader : Obligations.ReadHeaderUndoesWriteHeader := by
  intro s tree x h hn hl
  refine ⟨(State.place tree 0 s.dropTree).node, ?_⟩
  rw [← State.headerRead_eq]
  exact ⟨exec_readHeader_ok h hn hl, holdsTree_place hn hl _⟩

/-- Settles O23: a READ_HEADER that ends with DONE has placed a tree, entry by entry in pre-order from entry 0. -/
theorem decodedTreeIsInPreOrder : Obligations.DecodedTreeIsInPreOrder := by
  intro s t he hd
  rcases exec_readHeader_cases s with ⟨tree, hl, hn, hok⟩ | ⟨node, pos, c, herr⟩
  · cases hok.symm.trans he
    have hsize := tree.size_eq
    have hcount : (BitVec.ofNat 10 tree.size).toNat = tree.size := toNat_ofNat_idx (by omega)
    have hleaves : (BitVec.ofNat 10 tree.leaves).toNat = tree.leaves := toNat_ofNat_idx (by omega)
    have hheld : (s.headerRead tree).HoldsTree tree.unweighted := holdsTree_place hn hl _
    refine ⟨rfl, rfl, ⟨tree.unweighted, hheld.congr rfl rfl rfl rfl⟩, ?_, ?_, fun k hk => ?_⟩
    · show (BitVec.ofNat 10 tree.size).toNat = 2 * (BitVec.ofNat 10 tree.leaves).toNat - 1
      omega
    · show (BitVec.ofNat 10 tree.size).toNat ≤ 513
      omega
    · have hk : k < (BitVec.ofNat 10 tree.size).toNat := hk
      have hentry := State.nodeAt_place_inside (t := tree) (n := 0) (s := s.dropTree)
        (s' := (s.headerRead tree).completeOk) (by omega) (fun _ _ _ => rfl) (Nat.zero_le k) (by omega)
      rw [Nat.zero_add, ← hcount] at hentry
      exact hentry
  · cases herr.symm.trans he
    cases hd

/-- Settles O24: both ways READ_HEADER ends change only the parts listed, and an error leaves what was dropped on entry. -/
theorem readHeaderErrorLeavesNoTree : Obligations.ReadHeaderErrorLeavesNoTree := by
  intro s
  rcases exec_readHeader_cases s with ⟨tree, -, -, hok⟩ | ⟨node, pos, c, herr⟩
  · refine ⟨_, hok, fun h => absurd h Bool.false_ne_true, ?_⟩
    rw [State.headerRead_eq]
    rfl
  · exact ⟨_, herr, fun _ => ⟨rfl, rfl⟩, rfl⟩

/-! ### What Parse meets after the records of an incomplete tree -/

/-- R170: the end of IN at a tag. -/
theorem parse_of_unread_nil {depth n leaves : Nat} {s : State} (hd : 0 < depth) (hu : s.unread = []) :
    parse depth n leaves s = .raised .truncHeader s.inToEnd := by
  obtain ⟨depth, rfl⟩ := Nat.exists_eq_succ_of_ne_zero hd.ne'
  rw [parse, State.readBit, State.readBits_end (by rw [hu]; exact Nat.one_pos)]

/-- R166: a tag when NODE is full. -/
theorem parse_of_full {depth leaves : Nat} {s : State} {tag : Bool} {x : Bits} (hd : 0 < depth)
    (hu : s.unread = tag :: x) : parse depth 513 leaves s = .raised .headerTooLarge (s.seek (s.inp.pos + 1)) := by
  obtain ⟨depth, rfl⟩ := Nat.exists_eq_succ_of_ne_zero hd.ne'
  rw [parse, State.readBit_of_unread hu]
  rfl

/-- R166: a leaf's tag when NODE has room. -/
theorem parse_of_leafTag {depth n leaves : Nat} {s : State} {x : Bits} (hd : 0 < depth) (hn : n < 513)
    (hu : s.unread = true :: x) : parse depth n leaves s = parseLeaf n leaves (s.seek (s.inp.pos + 1)) := by
  obtain ⟨depth, rfl⟩ := Nat.exists_eq_succ_of_ne_zero hd.ne'
  rw [parse, State.readBit_of_unread hu]
  exact if_neg hn.ne

theorem State.unread_after_tag {s : State} {tag : Bool} {x : Bits} (hu : s.unread = tag :: x) :
    (s.seek (s.inp.pos + 1)).unread = x := by
  rw [State.unread_seek_add, hu, List.drop_one, List.tail_cons]

/-- R170: the end of IN inside a leaf's symbol. -/
theorem parseLeaf_of_cut {n leaves : Nat} {s : State} (hu : s.unread.length < 9) :
    parseLeaf n leaves s = .raised .truncHeader s.inToEnd := by
  rw [parseLeaf, State.readSym, State.readBits_end hu]

/-- R110: a leaf's symbol above 256. -/
theorem parseLeaf_of_badSymbol {n leaves : Nat} {s : State} {sym : Sym} {x : Bits} (hsym : 256 < sym.toNat)
    (hu : s.unread = bin 9 sym.toNat ++ x) :
    parseLeaf n leaves s = .raised .badSymbol (s.seek (s.inp.pos + 9)) := by
  have hwf : symWf sym.toNat = false := decide_eq_false (Nat.not_le.2 hsym)
  rw [parseLeaf, State.readSym_of_unread hu]
  simp only [hwf, Bool.false_eq_true, if_false]

/-- R166: what Parse meets after the records of an incomplete tree is what READ_HEADER ends with. -/
theorem exec_readHeader_open {rs : List HeaderRecord} {s : State} {x : Bits} {c : ErrCode} {p : Nat}
    (ho : openHeader 1 rs = true) (hl : ∀ r ∈ rs, r.legal = true) (hn : rs.length ≤ 513)
    (hu : s.unread = headerBits rs ++ x)
    (hx : ∀ (depth leaves : Nat) (u : State), 0 < depth → u.unread = x → u.inp.data = s.inp.data →
      u.inp.pos = s.inp.pos + (headerBits rs).length → parse depth rs.length leaves u = .raised c (u.seek p)) :
    ∃ node, exec .readHeader s = .next ((({ s.dropTree with node := node } : State).seek p).completeErr c) := by
  obtain ⟨node, hr⟩ := readHeaderBody_open ho hl hn hu fun depth leaves u hd hux hinp =>
    ⟨u.node, hx depth leaves u (by omega) hux (by rw [hinp]) (by rw [hinp])⟩
  exact ⟨node, by rw [exec_eq_finish, bodyOf, hr, finish_raised]⟩

/-- Settles O25: after the records Parse is called once more, and that call raises the error. -/
theorem readHeaderRejectsBadHeaders : Obligations.ReadHeaderRejectsBadHeaders := by
  intro s rs ho hl hn
  refine ⟨fun hu => ?_, fun hlt cut hcut hu => ?_, fun hlt sym x hsym hu => ?_, fun heq tag x hu => ?_⟩
  case refine_1 =>
    refine exec_readHeader_open ho hl hn (x := []) (by rw [hu, List.append_nil]) fun depth leaves u hd hux hdata _ => ?_
    rw [parse_of_unread_nil hd hux, State.inToEnd, hdata]
  case refine_2 =>
    refine exec_readHeader_open ho hl hn hu fun depth leaves u hd hux hdata _ => ?_
    rw [parse_of_leafTag hd hlt hux, parseLeaf_of_cut (by rwa [State.unread_after_tag hux]), State.inToEnd, ← hdata]
    rfl
  case refine_3 =>
    refine exec_readHeader_open ho hl hn hu fun depth leaves u hd hux _ hpos => ?_
    rw [parse_of_leafTag hd hlt hux, parseLeaf_of_badSymbol hsym (State.unread_after_tag hux), ← hpos]
    rfl
  case refine_4 =>
    refine exec_readHeader_open ho hl hn hu fun depth leaves u hd hux _ hpos => ?_
    rw [heq, parse_of_full hd hux, ← hpos]

end Sys2Proof.Machine

/-! PROOFS. ENCODE_BODY and DECODE_BODY (43_body.md R180 to R192). Each statement is read off the body's lemmas, once per
way the command goes; a walk over whole codes is cut after the bytes, where what stands next in IN decides how it ends. -/

namespace Sys2Proof.Machine

/-! ### The ways ENCODE_BODY goes -/

theorem exec_encodeBody_noCodes {s : State} (hv : s.status.codeValid = false) :
    exec .encodeBody s = .next (s.completeErr .noCodes) := by
  rw [exec_eq_finish, bodyOf, encodeBodyBody, hv, State.require_false, Run.raised_andThen, finish_raised]

theorem exec_encodeBody_outClosed {s : State} (hv : s.status.codeValid = true) (ho : s.out.closed = true) :
    exec .encodeBody s = .next (s.completeErr .outClosed) := by
  rw [exec_eq_finish, bodyOf, encodeBodyBody, hv, State.require_true, Run.ok_andThen, ho, Bool.not_true,
    State.require_false, Run.raised_andThen, finish_raised]

theorem exec_encodeBody_sentinelNoCode {s : State} (hv : s.status.codeValid = true) (ho : s.out.closed = false)
    (hs : (s.codeAt 256).present = false) : exec .encodeBody s = .next (s.completeErr .noCode) := by
  rw [exec_eq_finish, bodyOf, encodeBodyBody, hv, State.require_true, Run.ok_andThen, ho, Bool.not_false,
    State.require_true, Run.ok_andThen, hs, State.require_false, Run.raised_andThen, finish_raised]

theorem exec_encodeBody_ok {s : State} {bytes : List (BitVec 8)} {tail : Bits} (hv : s.status.codeValid = true)
    (ho : s.out.closed = false) (hs : (s.codeAt 256).present = true) (hu : s.unread = bitsOfBytes bytes ++ tail)
    (ht : tail.length < 8) (hp : ∀ b ∈ bytes, (s.codeAt b.toNat).present = true) :
    exec .encodeBody s =
      .next ((s.writeStr (s.codesOf bytes ++ s.codeString 256)).seek s.inp.data.length).completeOk := by
  rw [exec_eq_finish, bodyOf, encodeBodyBody_ok hv ho hs hu ht hp, finish_ok]

theorem exec_encodeBody_byteNoCode {s : State} {bytes : List (BitVec 8)} {b : BitVec 8} {x : Bits}
    (hv : s.status.codeValid = true) (ho : s.out.closed = false) (hs : (s.codeAt 256).present = true)
    (hu : s.unread = bitsOfBytes bytes ++ (bin 8 b.toNat ++ x))
    (hp : ∀ c ∈ bytes, (s.codeAt c.toNat).present = true) (hb : (s.codeAt b.toNat).present = false) :
    exec .encodeBody s =
      .next (((s.writeStr (s.codesOf bytes)).seek (s.inp.pos + 8 * (bytes.length + 1))).completeErr .noCode) := by
  rw [exec_eq_finish, bodyOf, encodeBodyBody_eq hv ho hs, encodeLoop_noCode hu (Nat.le_refl _) hp hb,
    Run.raised_andThen, finish_raised]

/-- Settles O26: the checks in their order, and the loop, which ends at the end of IN or at a byte without a code. -/
theorem encodeBodyAppendsCodes : Obligations.EncodeBodyAppendsCodes := fun _ =>
  ⟨exec_encodeBody_noCodes, exec_encodeBody_outClosed, exec_encodeBody_sentinelNoCode, fun hv ho hs =>
    ⟨fun _ _ => exec_encodeBody_ok hv ho hs, fun _ _ _ => exec_encodeBody_byteNoCode hv ho hs⟩⟩

/-! ### DECODE_BODY without a walk -/

theorem exec_decodeBody_noTree {s : State} (hv : s.status.treeValid = false) :
    exec .decodeBody s = .next ((s.setDec .error).completeErr .noTree) := by
  rw [exec_eq_finish, bodyOf, decodeBodyBody, hv, State.require_false, Run.raised_andThen, Run.raised_decodeError,
    finish_raised]
  rfl

theorem exec_decodeBody_outClosed {s : State} (hv : s.status.treeValid = true) (ho : s.out.closed = true) :
    exec .decodeBody s = .next ((s.setDec .error).completeErr .outClosed) := by
  rw [exec_eq_finish, bodyOf, decodeBodyBody, hv, State.require_true, Run.ok_andThen, State.setDec_out, ho,
    Bool.not_true, State.require_false, Run.raised_andThen, Run.raised_decodeError, finish_raised]
  rfl

theorem exec_decodeBody_sentinelLeaf {s : State} {w : Word} (hv : s.status.treeValid = true)
    (ho : s.out.closed = false) (h : s.nodeAt s.regs.root = some (.leaf 256 w)) :
    exec .decodeBody s = .next (s.setDec .done).completeOk := by
  rw [exec_eq_finish, bodyOf, decodeBodyBody_leaf hv ho h, if_pos (show (256 : Sym).toNat = 256 from rfl), finish_ok]

theorem exec_decodeBody_byteLeaf {s : State} {sym : Sym} {w : Word} (hv : s.status.treeValid = true)
    (ho : s.out.closed = false) (h : s.nodeAt s.regs.root = some (.leaf sym w)) (hsym : sym ≠ 256) :
    exec .decodeBody s = .next ((s.setDec .error).completeErr .truncBody) := by
  have hne : ¬ sym.toNat = 256 := fun he => hsym (BitVec.eq_of_toNat_eq he)
  rw [exec_eq_finish, bodyOf, decodeBodyBody_leaf hv ho h, if_neg hne, finish_raised]

/-- Settles O28: the root is looked at before a bit is read. -/
theorem decodeBodyOnALeafReadsNothing : Obligations.DecodeBodyOnALeafReadsNothing :=
  fun _ _ _ hv ho h => ⟨fun he => exec_decodeBody_sentinelLeaf hv ho (he ▸ h), exec_decodeBody_byteLeaf hv ho h⟩

/-! ### DECODE_BODY on a tree that is no single leaf -/

theorem HTree.path_ne_nil_of_node {w : Word} {tl tr : HTree} {p : Sym × Bits} (hp : p ∈ (HTree.node w tl tr).paths) :
    p.2 ≠ [] := by
  simp only [HTree.paths, List.mem_append, List.mem_map] at hp
  rcases hp with ⟨q, -, rfl⟩ | ⟨q, -, rfl⟩
  · exact List.cons_ne_nil _ _
  · exact List.cons_ne_nil _ _

/-- R186: the state of the walk at the root, when it has taken `n` bits of IN and written the bytes `bytes`. -/
def State.walked (s : State) (bytes : List (BitVec 8)) (n : Nat) : State :=
  ((s.setDec .walking).writeStr (bitsOfBytes bytes)).seek (s.inp.pos + n)

theorem State.walked_spells {s : State} {tree : HTree} (h : s.Spells tree s.regs.root) (bytes : List (BitVec 8))
    (n : Nat) : (s.walked bytes n).Spells tree s.regs.root :=
  (State.spells_congr (s := s) (s' := s.walked bytes n) rfl tree _).1 h

theorem State.walked_unread {s : State} {c x : Bits} (hu : s.unread = c ++ x) (bytes : List (BitVec 8)) :
    (s.walked bytes c.length).unread = x := by
  calc (s.walked bytes c.length).unread = (s.seek (s.inp.pos + c.length)).unread := rfl
    _ = x := by rw [State.unread_seek_add, hu, List.drop_left]

/-- R192: past the codes of `bytes` the walk is at the root again, with the rest of IN to come. -/
theorem exec_decodeBody_walked {s : State} {w : Word} {tl tr : HTree} {bytes : List (BitVec 8)} {c x : Bits}
    (hv : s.status.treeValid = true) (ho : s.out.closed = false) (h : s.Spells (.node w tl tr) s.regs.root)
    (hc : (HTree.node w tl tr).Encodes bytes c) (hu : s.unread = c ++ x) :
    exec .decodeBody s = finish (decodeLoop x.length s.regs.root (s.walked bytes c.length)).decodeError := by
  have hfuel : s.bitsLeft = x.length + c.length := by rw [State.bitsLeft_eq, hu, List.length_append, Nat.add_comm]
  have hw : (s.setDec .walking).Spells (.node w tl tr) (s.setDec .walking).regs.root :=
    (State.spells_congr (s := s) (s' := s.setDec .walking) rfl _ _).1 h
  have hloop : decodeLoop (x.length + c.length) s.regs.root (s.setDec .walking) =
      decodeLoop x.length s.regs.root (s.walked bytes c.length) := decodeLoop_bytes hw hc hu
  rw [exec_eq_finish, bodyOf, decodeBodyBody_node hv ho h, hfuel, hloop]

/-- R186: the walk ends at the sentinel's leaf. -/
theorem atLeaf_sentinel (fuel : Nat) (s : State) : atLeaf fuel 256 s = .ok (s.setDec .done) :=
  if_pos rfl

/-- R192: the sentinel's path after the bytes' codes. -/
theorem exec_decodeBody_node_ok {s : State} {w : Word} {tl tr : HTree} {bytes : List (BitVec 8)} {c p x : Bits}
    (hv : s.status.treeValid = true) (ho : s.out.closed = false) (h : s.Spells (.node w tl tr) s.regs.root)
    (hc : (HTree.node w tl tr).Encodes bytes c) (hp : (256, p) ∈ (HTree.node w tl tr).paths)
    (hu : s.unread = c ++ (p ++ x)) :
    exec .decodeBody s =
      .next (((s.writeStr (bitsOfBytes bytes)).seek (s.inp.pos + (c.length + p.length))).setDec .done).completeOk := by
  have hlen : (p ++ x).length = x.length + p.length := by rw [List.length_append, Nat.add_comm]
  rw [exec_decodeBody_walked hv ho h hc hu, hlen, decodeLoop_path (State.walked_spells h bytes c.length) hp
      (HTree.path_ne_nil_of_node hp) (State.walked_unread hu bytes), atLeaf_sentinel, Run.ok_decodeError, finish_ok,
    ← Nat.add_assoc]
  rfl

/-- R189: the end of IN inside a path after the bytes' codes. -/
theorem exec_decodeBody_node_trunc {s : State} {w : Word} {tl tr : HTree} {bytes : List (BitVec 8)} {c q y : Bits}
    {sym : Sym} (hv : s.status.treeValid = true) (ho : s.out.closed = false)
    (h : s.Spells (.node w tl tr) s.regs.root) (hc : (HTree.node w tl tr).Encodes bytes c)
    (hp : (sym, q ++ y) ∈ (HTree.node w tl tr).paths) (hy : y ≠ []) (hu : s.unread = c ++ q) :
    exec .decodeBody s =
      .next (((s.writeStr (bitsOfBytes bytes)).seek s.inp.data.length |>.setDec .error).completeErr .truncBody) := by
  have huq := State.walked_unread hu bytes
  have hfuel : (s.walked bytes c.length).bitsLeft ≤ q.length := by rw [State.bitsLeft_eq, huq]
  rw [exec_decodeBody_walked hv ho h hc hu,
    decodeLoop_trunc (State.walked_spells h bytes c.length) hp hy (by rw [huq]) hfuel, Run.raised_decodeError,
    finish_raised]
  rfl

/-! ### DECODE_BODY on a held tree -/

/-- R6: a byte is not the sentinel. -/
theorem setWidth_byte_ne_sentinel (b : BitVec 8) : b.setWidth 9 ≠ (256 : Sym) := by
  bv_omega

/-- R187, R192: on the sentinel's leaf alone only the empty sequence of bytes has an encoding. -/
theorem HTree.encodes_sentinelLeaf {w : Word} {bytes : List (BitVec 8)} {c : Bits}
    (h : (HTree.leaf 256 w).Encodes bytes c) : bytes = [] ∧ c = [] := by
  cases bytes with
  | nil => exact ⟨rfl, h⟩
  | cons b bytes =>
    obtain ⟨p, rest, hp, -, -⟩ := h
    rw [HTree.paths, List.mem_singleton, Prod.mk.injEq] at hp
    exact absurd hp.1 (setWidth_byte_ne_sentinel b)

/-- Settles O27: the walk over the codes of the bytes ends at the root, and the sentinel's path from there ends it. -/
theorem decodeBodyRecoversTheBytes : Obligations.DecodeBodyRecoversTheBytes := by
  intro s tree bytes c p x hv ho h hc hp hu
  cases tree with
  | leaf sym w =>
    rw [HTree.paths, List.mem_singleton, Prod.mk.injEq] at hp
    obtain ⟨rfl, rfl⟩ := hp
    obtain ⟨rfl, rfl⟩ := HTree.encodes_sentinelLeaf hc
    rw [exec_decodeBody_sentinelLeaf hv ho h.spells, bitsOfBytes_nil, State.writeStr_nil]
    rfl
  | node w tl tr => exact exec_decodeBody_node_ok hv ho h.spells hc hp hu

/-- Settles O29: the two checks, and a walk that meets the end of IN below the root. -/
theorem decodeBodyReportsTruncation : Obligations.DecodeBodyReportsTruncation := by
  intro s
  refine ⟨exec_decodeBody_noTree, exec_decodeBody_outClosed, fun tree bytes c q y sym hv ho h hc hp hy hu => ?_⟩
  cases tree with
  | leaf sym' w =>
    rw [HTree.paths, List.mem_singleton, Prod.mk.injEq, List.append_eq_nil_iff] at hp
    exact absurd hp.2.2 hy
  | node w tl tr => exact exec_decodeBody_node_trunc hv ho h.spells hc hp hy hu

/-- Settles O30: a walk that ends in DONE has met a sentinel leaf, and its only error is TRUNC_BODY. -/
theorem noSentinelNeverDecodes : Obligations.NoSentinelNeverDecodes := by
  intro s tree hv ho h hne
  obtain ⟨bs, pos, ⟨-, hmem⟩ | herr⟩ := decodeBody_spells s tree hv ho h.spells
  · exact absurd hmem hne
  · exact ⟨_, by rw [exec_eq_finish, bodyOf, herr, finish_raised], rfl, rfl, rfl⟩

end Sys2Proof.Machine

/-! PROOFS. NOP, REWIND_IN, CLOSE_OUT, WRITE_MAGIC and CHECK_MAGIC (44_container_and_control.md R200 to R208). -/

namespace Sys2Proof.Machine

/-- Settles O7: the body of NOP changes nothing, so only the completion does. -/
theorem nopOnlyCompletes : Obligations.NopOnlyCompletes := ⟨rfl, fun _ => rfl⟩

/-- Settles O8: the body of REWIND_IN is Rewind. -/
theorem rewindInRestartsTheInput : Obligations.RewindInRestartsTheInput := ⟨rfl, fun _ => rfl⟩

/-! ### CLOSE_OUT -/

theorem OutStream.close_of_closed {o : OutStream} (h : o.closed = true) : o.close = o := if_pos h

theorem OutStream.close_of_open {o : OutStream} (h : o.closed = false) :
    o.close = { bits := o.bits ++ o.padding, closed := true } :=
  if_neg (ne_true_of_eq_false h)

/-- R74: an open OUT of a whole number of bytes gets no padding. -/
theorem OutStream.close_of_whole {o : OutStream} (h : o.closed = false) (hw : o.bits.length % 8 = 0) :
    o.close = { bits := o.bits, closed := true } := by
  rw [OutStream.close_of_open h, OutStream.padding, hw]
  exact congrArg (OutStream.mk · true) (List.append_nil o.bits)

theorem State.close_of_closed {s : State} (h : s.out.closed = true) : s.close = s := by
  rw [State.close, OutStream.close_of_closed h]

/-- R74: an open OUT gets fewer than eight zero bits, up to a byte boundary. -/
theorem OutStream.exists_padding (o : OutStream) :
    ∃ k < 8, (o.bits.length + k) % 8 = 0 ∧ o.padding = List.replicate k false :=
  ⟨(8 - o.bits.length % 8) % 8, Nat.mod_lt _ (by decide), by omega, rfl⟩

theorem exec_closeOut (s : State) : exec .closeOut s = .next s.close.completeOk := rfl

/-- Settles O9, by the two cases of Close. -/
theorem closeOutPadsToAByte : Obligations.CloseOutPadsToAByte := by
  refine ⟨rfl, fun s => ⟨fun h => ?_, fun h => ?_⟩⟩
  · rw [exec_closeOut, State.close_of_closed h]
  · obtain ⟨k, hk, hmod, hpad⟩ := s.out.exists_padding
    refine ⟨k, hk, hmod, ?_⟩
    rw [exec_closeOut, State.close, OutStream.close_of_open h, hpad]

/-! ### WRITE_MAGIC -/

/-- R12: the bits of `bin n v` are those of `v`, the most significant first. -/
theorem bin_getElem? {n k : Nat} (v : Nat) (hk : k < n) : (bin n v)[k]? = some (v.testBit (n - 1 - k)) := by
  induction n generalizing k with
  | zero => exact absurd hk (Nat.not_lt_zero k)
  | succ n ih =>
    cases k with
    | zero => rfl
    | succ k => rw [bin, List.getElem?_cons_succ, ih (by omega), show n + 1 - 1 - (k + 1) = n - 1 - k by omega]

theorem writeMagicBody_closed {s : State} (h : s.out.closed = true) : writeMagicBody s = .raised .outClosed s := by
  rw [writeMagicBody, h, Bool.not_true, State.require_false, Run.raised_andThen]

theorem writeMagicBody_open {s : State} (h : s.out.closed = false) :
    writeMagicBody s = .ok (s.writeStr (bin 32 s.magic.toNat)) := by
  rw [writeMagicBody, h, Bool.not_false, State.require_true, Run.ok_andThen]
  rfl

/-- Settles O10: the check of OUT, and the 32 bits of MAGIC. -/
theorem writeMagicAppendsMagic : Obligations.WriteMagicAppendsMagic := by
  refine ⟨rfl, fun s => ⟨fun h => ?_, fun h => ⟨bin 32 s.magic.toNat, bin_length .., fun k hk => ?_, ?_⟩⟩⟩
  · rw [exec_eq_finish, bodyOf, writeMagicBody_closed h, finish_raised]
  · rw [bin_getElem? _ hk]
    rfl
  · rw [exec_eq_finish, bodyOf, writeMagicBody_open h, finish_ok]

/-! ### CHECK_MAGIC -/

theorem State.readMagic_of_unread {s : State} {m : Word} {x : Bits} (h : s.unread = bin 32 m.toNat ++ x) :
    s.readMagic = (some m.toNat, s.seek (s.inp.pos + 32)) := by
  rw [State.readMagic, State.readBits_of_unread h (bin_length ..) (by decide), val_bin, Nat.mod_eq_of_lt m.isLt]

theorem checkMagicBody_of_unread {s : State} {m : Word} {x : Bits} (h : s.unread = bin 32 m.toNat ++ x) :
    checkMagicBody s =
      if m = s.magic then .ok (s.seek (s.inp.pos + 32)) else .raised .badMagic (s.seek (s.inp.pos + 32)) := by
  rw [checkMagicBody, State.readMagic_of_unread h]
  exact if_congr BitVec.toNat_inj rfl rfl

theorem checkMagicBody_short {s : State} (h : s.unread.length < 32) :
    checkMagicBody s = .raised .badMagic (s.seek s.inp.data.length) := by
  rw [checkMagicBody, State.readMagic, State.readBits_end h]
  rfl

theorem exec_checkMagic_of_unread {s : State} {m : Word} {x : Bits} (h : s.unread = bin 32 m.toNat ++ x) :
    exec .checkMagic s =
      .next (if m = s.magic then (s.seek (s.inp.pos + 32)).completeOk
        else (s.seek (s.inp.pos + 32)).completeErr .badMagic) := by
  rw [exec_eq_finish, bodyOf, checkMagicBody_of_unread h]
  split
  · exact finish_ok _
  · exact finish_raised ..

theorem exec_checkMagic_short {s : State} (h : s.unread.length < 32) :
    exec .checkMagic s = .next ((s.seek s.inp.data.length).completeErr .badMagic) := by
  rw [exec_eq_finish, bodyOf, checkMagicBody_short h, finish_raised]

/-- Settles O11: the read of 32 bits, its comparison with MAGIC, and the read that answers END. -/
theorem checkMagicComparesMagic : Obligations.CheckMagicComparesMagic :=
  ⟨rfl, fun _ => ⟨fun _ _ => exec_checkMagic_of_unread, exec_checkMagic_short⟩⟩

end Sys2Proof.Machine

/-! PROOFS. COMPRESS and DECOMPRESS as lists of steps (44_container_and_control.md R210 to R218): they are
their steps up to the first error, and where they fail they do not reach their CLOSE_OUT. -/

namespace Sys2Proof.Machine

/-! ### The steps -/

theorem execUntilError_closeOut (s : State) : execUntilError [.closeOut] s.completeOk = finish (closeOutBody s) := rfl

/-- R212. -/
theorem exec_compress_eq_steps (s : State) :
    exec .compress s = execUntilError
      [.count, .rewindIn, .buildTree, .genCodes, .writeMagic, .writeHeader, .encodeBody, .closeOut] s := by
  refine (macro_step .count _ s _ fun s1 => ?_).symm
  refine macro_step_completed .rewindIn _ s1 _ (fun _ => rfl) fun s2 => ?_
  refine macro_step_completed .buildTree _ s2 _ buildTreeBody_completeOk fun s3 => ?_
  refine macro_step_completed .genCodes _ s3 _ genCodesBody_completeOk fun s4 => ?_
  refine macro_step_completed .writeMagic _ s4 _ writeMagicBody_completeOk fun s5 => ?_
  refine macro_step_completed .writeHeader _ s5 _ writeHeaderBody_completeOk fun s6 => ?_
  exact macro_step_completed .encodeBody _ s6 _ encodeBodyBody_completeOk execUntilError_closeOut

/-- R216. -/
theorem exec_decompress_eq_steps (s : State) :
    exec .decompress s = execUntilError [.checkMagic, .readHeader, .decodeBody, .closeOut] s := by
  refine (macro_step .checkMagic _ s _ fun s1 => ?_).symm
  refine macro_step_completed .readHeader _ s1 _ readHeaderBody_completeOk fun s2 => ?_
  exact macro_step_completed .decodeBody _ s2 _ decodeBodyBody_completeOk execUntilError_closeOut

/-- Settles O31: no step reads the outcome that the step before it left. -/
theorem macroEqualsItsSteps : Obligations.MacroEqualsItsSteps := fun s =>
  ⟨exec_compress_eq_steps s, exec_decompress_eq_steps s⟩

/-- A step that succeeds is followed by the rest. -/
theorem execUntilError_of_ok {i : Instr} {s t : State} (h : exec i s = .next t.completeOk) (rest : List Instr) :
    execUntilError (i :: rest) s = execUntilError rest t.completeOk := by
  rw [execUntilError, h]
  rfl

/-- A step that ends in an error is the last. -/
theorem execUntilError_of_err {i : Instr} {s t : State} {c : ErrCode} (h : exec i s = .next (t.completeErr c))
    (rest : List Instr) : execUntilError (i :: rest) s = .next (t.completeErr c) := by
  rw [execUntilError, h]
  rfl

/-- The first of several steps ended in an error, or it succeeded and the rest followed. -/
theorem execUntilError_cons_eq_next {i : Instr} {rest : List Instr} {s t : State}
    (h : execUntilError (i :: rest) s = .next t) :
    ∃ u, exec i s = .next u ∧
      (u.status.err = true ∧ t = u ∨ u.status.err = false ∧ execUntilError rest u = .next t) := by
  rw [execUntilError] at h
  split at h
  case h_1 u hu =>
    refine ⟨u, hu, ?_⟩
    split at h
    case isTrue he => exact .inl ⟨he, (Host.Outcome.next.inj h).symm⟩
    case isFalse he => exact .inr ⟨eq_false_of_ne_true he, h⟩
  case h_2 => cases h
  case h_3 => cases h

/-! ### Steps that fail -/

/-- A chaining relation that each step keeps is kept by the steps together. -/
theorem Chains.execUntilError {R : State → State → Prop} (hR : Chains R) {is : List Instr} {s t : State}
    (hi : ∀ i ∈ is, ∀ s t, exec i s = .next t → R s t) (h : Machine.execUntilError is s = .next t) : R s t := by
  induction is generalizing s with
  | nil =>
    cases h
    exact hR.refl _
  | cons i is ih =>
    obtain ⟨u, hu, ⟨-, rfl⟩ | ⟨-, hrest⟩⟩ := execUntilError_cons_eq_next h
    · exact hi i List.mem_cons_self s _ hu
    · exact hR.trans (hi i List.mem_cons_self s u hu) (ih (fun j hj => hi j (List.mem_cons_of_mem i hj)) hrest)

/-- Steps that end in an error end in one of their own errors (R230). -/
theorem errCode_mem_of_execUntilError {is : List Instr} {s t : State} (h : execUntilError is s = .next t)
    (hs : s.status.err = false) (ht : t.status.err = true) : ∃ i ∈ is, t.status.errCode ∈ errorsOf i := by
  induction is generalizing s with
  | nil =>
    cases h
    rw [hs] at ht
    cases ht
  | cons i is ih =>
    obtain ⟨u, hu, ⟨-, rfl⟩ | ⟨he, hrest⟩⟩ := execUntilError_cons_eq_next h
    · rcases next_cases hu with ⟨v, -, rfl⟩ | ⟨c, v, -, rfl, hc⟩
      · cases ht
      · exact ⟨i, List.mem_cons_self, hc⟩
    · obtain ⟨j, hj, hc⟩ := ih hrest he
      exact ⟨j, List.mem_cons_of_mem i hj, hc⟩

/-- CLOSE_OUT has no error, so steps that fail have failed before it. -/
theorem execUntilError_failed_before_closeOut {is : List Instr} {s t : State}
    (h : execUntilError (is ++ [.closeOut]) s = .next t) (ht : t.status.err = true) :
    execUntilError is s = .next t := by
  induction is generalizing s with
  | nil =>
    cases h
    cases ht
  | cons i is ih =>
    obtain ⟨u, hu, ⟨he, rfl⟩ | ⟨he, hrest⟩⟩ := execUntilError_cons_eq_next h
    · simp only [execUntilError, hu, he, if_true]
    · simp only [execUntilError, hu, he, Bool.false_eq_true, if_false, ih hrest]

/-- R212, R216: steps that fail before CLOSE_OUT leave OUT.closed. -/
theorem outClosed_of_steps_failed {is : List Instr} (hi : ∀ i ∈ is, i ∉ [.closeOut, .compress, .decompress])
    {s t : State} (h : execUntilError (is ++ [.closeOut]) s = .next t) (ht : t.status.err = true) :
    t.out.closed = s.out.closed := by
  refine (chains_sameValue fun s => s.out.closed).execUntilError (fun i him u v huv => ?_)
    (execUntilError_failed_before_closeOut h ht)
  obtain ⟨-, -, -, -, -, -, -, hclosed⟩ := commandsWriteOnlyTheirState i u v huv
  exact hclosed (hi i him)

/-- R218: BAD_MAGIC is an error of CHECK_MAGIC alone, which leaves OUT. -/
theorem out_of_decompress_badMagic {s t : State} (h : exec .decompress s = .next t) (ht : t.status.err = true)
    (hc : t.status.errCode = .badMagic) : t.out = s.out := by
  rw [exec_decompress_eq_steps] at h
  obtain ⟨u, hu, ⟨-, rfl⟩ | ⟨he, hrest⟩⟩ := execUntilError_cons_eq_next h
  · obtain ⟨-, -, -, -, -, -, hout, -⟩ := commandsWriteOnlyTheirState .checkMagic s _ hu
    exact hout (by decide)
  · obtain ⟨i, hi, hmem⟩ := errCode_mem_of_execUntilError hrest he ht
    rw [hc] at hmem
    exfalso
    revert i
    decide

end Sys2Proof.Machine

/-! PROOFS. The container (44_container_and_control.md R212 to R220): what COMPRESS writes, and that DECOMPRESS reads it
back. -/

namespace Sys2Proof.Machine

/-! ### The codes of a tree -/

/-- R192: which bits encode a sequence of bytes depends on the paths, and so not on the weights. -/
theorem HTree.encodes_unweighted {t : HTree} {bytes : List (BitVec 8)} {c : Bits} :
    t.unweighted.Encodes bytes c ↔ t.Encodes bytes c := by
  induction bytes generalizing c with
  | nil => exact Iff.rfl
  | cons b bytes ih => simp only [HTree.Encodes, HTree.unweighted_paths, ih]

/-- R151: a symbol of the tree has its leaf's path as its code. -/
theorem State.HoldsCodes.codeString_mem_paths {s : State} {tree : HTree} (hc : s.HoldsCodes tree)
    (ht : s.HoldsTree tree) {sym : Sym} (hs : sym ∈ tree.symbols) : (sym, s.codeString sym.toNat) ∈ tree.paths := by
  obtain ⟨p, hp, rfl⟩ := List.mem_map.1 hs
  obtain ⟨-, -, -, -, hcode⟩ := codeTableHoldsWholeCodes s tree ht hc p hp
  rwa [hcode]

theorem State.HoldsCodes.present_of_mem_symbols {s : State} {tree : HTree} (hc : s.HoldsCodes tree) {sym : Sym}
    (hs : sym ∈ tree.symbols) : (s.codeAt sym.toNat).present = true := by
  obtain ⟨p, hp, rfl⟩ := List.mem_map.1 hs
  rw [hc.1 p hp]
  rfl

theorem toNat_setWidth_byte (b : BitVec 8) : (b.setWidth 9).toNat = b.toNat :=
  BitVec.toNat_setWidth_of_le (by decide)

/-- R111: the codes of the bytes are an encoding of them. -/
theorem State.HoldsCodes.encodes {s : State} {tree : HTree} (hc : s.HoldsCodes tree) (ht : s.HoldsTree tree)
    {bytes : List (BitVec 8)} (hb : ∀ b ∈ bytes, b.setWidth 9 ∈ tree.symbols) :
    tree.Encodes bytes (s.codesOf bytes) := by
  induction bytes with
  | nil => rfl
  | cons b bytes ih =>
    have hpath := hc.codeString_mem_paths ht (hb b List.mem_cons_self)
    rw [toNat_setWidth_byte] at hpath
    exact ⟨_, _, hpath, ih fun c hm => hb c (List.mem_cons_of_mem b hm), rfl⟩

/-! ### COMPRESS -/

/-- R212: what COMPRESS has before it writes: a tree whose symbols are the bytes and the sentinel, each at one leaf, and
the codes of that tree. -/
structure State.CodedFor (s : State) (tree : HTree) (bytes : List (BitVec 8)) : Prop where
  treeValid : s.status.treeValid = true
  codeValid : s.status.codeValid = true
  holdsTree : s.HoldsTree tree
  holdsCodes : s.HoldsCodes tree
  nodup : tree.symbols.Nodup
  symbols : ∀ sym : Sym, sym ∈ tree.symbols ↔ sym = 256 ∨ ∃ b ∈ bytes, sym = b.setWidth 9

section

variable {s : State} {tree : HTree} {bytes : List (BitVec 8)}

theorem State.CodedFor.encodes (h : s.CodedFor tree bytes) : tree.Encodes bytes (s.codesOf bytes) :=
  h.holdsCodes.encodes h.holdsTree fun b hb => (h.symbols _).2 (.inr ⟨b, hb, rfl⟩)

theorem State.CodedFor.sentinel_mem_paths (h : s.CodedFor tree bytes) : (256, s.codeString 256) ∈ tree.paths :=
  h.holdsCodes.codeString_mem_paths h.holdsTree ((h.symbols 256).2 (.inl rfl))

theorem State.CodedFor.sentinel_present (h : s.CodedFor tree bytes) : (s.codeAt 256).present = true :=
  h.holdsCodes.present_of_mem_symbols ((h.symbols 256).2 (.inl rfl))

theorem State.CodedFor.byte_present (h : s.CodedFor tree bytes) {b : BitVec 8} (hb : b ∈ bytes) :
    (s.codeAt b.toNat).present = true := by
  rw [← toNat_setWidth_byte]
  exact h.holdsCodes.present_of_mem_symbols ((h.symbols _).2 (.inr ⟨b, hb, rfl⟩))

/-- It is about the tree and the codes alone. -/
theorem State.CodedFor.congr {t : State} (h : s.CodedFor tree bytes) (he : t.trees = s.trees) :
    t.CodedFor tree bytes := by
  obtain ⟨hn, hc, hr, hv, hcv⟩ := trees_eq_iff.1 he
  have hcode : t.codeAt = s.codeAt := by
    funext k
    rw [State.codeAt, State.codeAt, hc]
  refine ⟨hv.trans h.treeValid, hcv.trans h.codeValid, ?_, ?_, h.nodup, h.symbols⟩
  · exact h.holdsTree.congr hn.symm (by rw [hr]) (by rw [hr]) (by rw [hr])
  · rw [State.HoldsCodes, hcode]
    exact h.holdsCodes

end

/-- R112: the container without its padding. -/
def State.container (s : State) (tree : HTree) (bytes : List (BitVec 8)) : Bits :=
  bin 32 s.magic.toNat ++ (tree.header ++ (s.codesOf bytes ++ s.codeString 256))

/-- R212: the steps of COMPRESS from its first write on. -/
def writeSteps (s : State) : Run :=
  (writeMagicBody s).andThen fun s1 =>
    (writeHeaderBody s1).andThen fun s2 => (encodeBodyBody s2).andThen closeOutBody

/-- R206, R160, R180: the steps that write, into an open OUT. -/
theorem writeSteps_open {s : State} {tree : HTree} {bytes : List (BitVec 8)} {tail : Bits}
    (h : s.CodedFor tree bytes) (ho : s.out.closed = false) (hu : s.unread = bitsOfBytes bytes ++ tail)
    (ht : tail.length < 8) :
    writeSteps s = .ok ((s.writeStr (s.container tree bytes)).seek s.inp.data.length).close := by
  have hheader : writeHeaderBody (s.writeStr (bin 32 s.magic.toNat)) =
      .ok (s.writeStr (bin 32 s.magic.toNat ++ tree.header)) := by
    have hw := h.congr (t := s.writeStr (bin 32 s.magic.toNat)) rfl
    rw [writeHeaderBody_ok hw.treeValid ho hw.holdsTree, State.writeStr_writeStr]
  have hbody : encodeBodyBody (s.writeStr (bin 32 s.magic.toNat ++ tree.header)) =
      .ok ((s.writeStr (s.container tree bytes)).seek s.inp.data.length) := by
    have hw := h.congr (t := s.writeStr (bin 32 s.magic.toNat ++ tree.header)) rfl
    rw [encodeBodyBody_ok hw.codeValid ho hw.sentinel_present hu ht fun b hb => hw.byte_present hb,
      State.writeStr_writeStr, List.append_assoc]
    rfl
  rw [writeSteps, writeMagicBody_open ho, Run.ok_andThen, hheader, Run.ok_andThen, hbody, Run.ok_andThen, closeOutBody]

theorem writeSteps_closed {s : State} (ho : s.out.closed = true) : writeSteps s = .raised .outClosed s := by
  rw [writeSteps, writeMagicBody_closed ho, Run.raised_andThen]

/-- R212: COMPRESS of countable bytes comes to its writes with the tree and the codes of the bytes, and IN at
its start. -/
theorem compressBody_coded {s : State} {bytes : List (BitVec 8)} {tail : Bits}
    (h : s.unread = bitsOfBytes bytes ++ tail) (ht : tail.length < 8) (hn : bytes.length < 4294967295) :
    ∃ (u : State) (tree : HTree), u.CodedFor tree bytes ∧ u.inp = { data := s.inp.data, pos := 0 } ∧ u.out = s.out ∧
      u.magic = s.magic ∧ compressBody s = writeSteps u := by
  obtain ⟨u, tree, he, hst, hht, hnd, hhc, -, h256, hbytes, honly, hframe⟩ := compressBody_ready h ht hn
  refine ⟨u, tree, ⟨by rw [hst], by rw [hst], hht, hhc, hnd, fun sym => ⟨honly sym, ?_⟩⟩, ?_, ?_, ?_, he⟩
  · rintro (rfl | ⟨b, hb, rfl⟩)
    · exact h256
    · exact hbytes b hb
  all_goals
    rw [hframe]
    rfl

/-- R212, R214: COMPRESS of countable bytes into an open OUT. -/
theorem exec_compress_ok {s : State} {bytes : List (BitVec 8)} {tail : Bits}
    (hi : s.inp = { data := bitsOfBytes bytes ++ tail, pos := 0 }) (ht : tail.length < 8)
    (hn : bytes.length < 4294967295) (ho : s.out.closed = false) :
    ∃ (u : State) (tree : HTree), u.CodedFor tree bytes ∧ u.inp = s.inp ∧ u.out = s.out ∧ u.magic = s.magic ∧
      exec .compress s =
        .next ((u.writeStr (u.container tree bytes)).seek u.inp.data.length).close.completeOk := by
  have hu : s.unread = bitsOfBytes bytes ++ tail := by rw [State.unread, hi, List.drop_zero]
  obtain ⟨u, tree, hcoded, hinp, hout, hmagic, he⟩ := compressBody_coded hu ht hn
  have hinp : u.inp = s.inp := by rw [hinp, hi]
  have huu : u.unread = bitsOfBytes bytes ++ tail := by rw [State.unread, hinp, ← hu, State.unread]
  refine ⟨u, tree, hcoded, hinp, hout, hmagic, ?_⟩
  rw [exec_eq_finish, bodyOf, he, writeSteps_open hcoded (hout ▸ ho) huu ht, finish_ok]

/-- R204, R214: Close leaves the container, and fewer than eight zero bits up to a byte boundary, behind what stood
in OUT. -/
theorem State.container_close {s : State} (tree : HTree) (bytes : List (BitVec 8)) (ho : s.out.closed = false) :
    ∃ k < 8, (s.writeStr (s.container tree bytes)).out.close =
        { bits := s.out.bits ++ s.container tree bytes ++ List.replicate k false, closed := true } ∧
      (s.out.bits ++ s.container tree bytes ++ List.replicate k false).length % 8 = 0 := by
  obtain ⟨k, hk, hmod, hpad⟩ := (s.writeStr (s.container tree bytes)).out.exists_padding
  refine ⟨k, hk, ?_, ?_⟩
  · rw [OutStream.close_of_open (o := (s.writeStr _).out) ho, hpad, State.writeStr_out]
  · rwa [List.length_append, List.length_replicate]

/-- Settles O32: the container stands in OUT behind what was there, and Close pads it. -/
theorem compressWritesTheContainer : Obligations.CompressWritesTheContainer := by
  intro s bytes tail hi ht ho hn
  obtain ⟨u, tree, hcoded, hinp, hout, hmagic, he⟩ := exec_compress_ok hi ht hn ho
  obtain ⟨k, hk, hclose, hmod⟩ := u.container_close tree bytes (by rw [hout, ho])
  have hbits := congrArg OutStream.bits hclose
  refine ⟨_, tree, k, he, rfl, hcoded.treeValid, hcoded.codeValid, by rw [← hinp]; rfl,
    hcoded.holdsTree.congr rfl rfl rfl rfl, hcoded.holdsCodes, hcoded.symbols, hk, ?_, congrArg OutStream.closed hclose,
    ?_⟩
  · exact (congrArg (fun bits => bits.length % 8) hbits).trans hmod
  · refine hbits.trans ?_
    simp only [State.container, hout, hmagic, List.append_assoc]
    rfl

/-- R212, R218: COMPRESS of countable bytes into a closed OUT. -/
theorem exec_compress_outClosed {s : State} {bytes : List (BitVec 8)} {tail : Bits}
    (h : s.unread = bitsOfBytes bytes ++ tail) (ht : tail.length < 8) (hn : bytes.length < 4294967295)
    (ho : s.out.closed = true) :
    ∃ (u : State) (tree : HTree), u.CodedFor tree bytes ∧ u.out = s.out ∧
      exec .compress s = .next (u.completeErr .outClosed) := by
  obtain ⟨u, tree, hcoded, -, hout, -, he⟩ := compressBody_coded h ht hn
  refine ⟨u, tree, hcoded, hout, ?_⟩
  rw [exec_eq_finish, bodyOf, he, writeSteps_closed (hout ▸ ho), finish_raised]

/-- Settles O36: WRITE_MAGIC is the step that meets the closed OUT; steps that fail do so before CLOSE_OUT; and only
CHECK_MAGIC raises BAD_MAGIC. -/
theorem failedMacroDoesNotCloseOut : Obligations.FailedMacroDoesNotCloseOut := by
  refine ⟨fun s bytes tail hu _ ht hn ho => ?_, fun s t h hf => ?_, fun s t h hf => ⟨?_, exec_out_grows h, ?_⟩⟩
  · obtain ⟨u, tree, hcoded, hout, he⟩ := exec_compress_outClosed hu ht hn ho
    exact ⟨_, he, rfl, rfl, hout, hcoded.treeValid, hcoded.codeValid⟩
  · rw [exec_compress_eq_steps] at h
    exact outClosed_of_steps_failed
      (is := [.count, .rewindIn, .buildTree, .genCodes, .writeMagic, .writeHeader, .encodeBody]) (by decide) h hf
  · rw [exec_decompress_eq_steps] at h
    exact outClosed_of_steps_failed (is := [.checkMagic, .readHeader, .decodeBody]) (by decide) h hf
  · exact out_of_decompress_badMagic h hf

/-! ### DECOMPRESS, step by step -/

/-- R208: what CHECK_MAGIC leaves when the magic word stands in IN. -/
def State.magicChecked (s : State) : State := (s.seek (s.inp.pos + 32)).completeOk

/-- R216: what CHECK_MAGIC and READ_HEADER leave when the magic word and the header of `tree` stand in IN. -/
def State.treeRead (s : State) (tree : HTree) : State := (s.magicChecked.headerRead tree).completeOk

section

variable {s : State} {tree : HTree} {x : Bits}

theorem State.magicChecked_unread (hu : s.unread = bin 32 s.magic.toNat ++ x) : s.magicChecked.unread = x := by
  calc s.magicChecked.unread = (s.seek (s.inp.pos + 32)).unread := rfl
    _ = x := by rw [State.unread_seek_add, hu, List.drop_left' (bin_length ..)]

theorem exec_decompress_magicChecked (hu : s.unread = bin 32 s.magic.toNat ++ x) :
    exec .decompress s = execUntilError [.readHeader, .decodeBody, .closeOut] s.magicChecked := by
  have hcheck : exec .checkMagic s = .next s.magicChecked := by
    rw [exec_checkMagic_of_unread hu, if_pos rfl, State.magicChecked]
  rw [exec_decompress_eq_steps, execUntilError_of_ok hcheck, State.magicChecked]

theorem State.headerRead_unread (hu : s.unread = tree.header ++ x) : (s.headerRead tree).unread = x := by
  rw [State.headerRead_eq]
  calc _ = (s.seek (s.inp.pos + tree.header.length)).unread := rfl
    _ = x := by rw [State.unread_seek_add, hu, List.drop_left]

theorem State.treeRead_unread (hu : s.unread = bin 32 s.magic.toNat ++ (tree.header ++ x)) :
    (s.treeRead tree).unread = x :=
  State.headerRead_unread (State.magicChecked_unread hu)

theorem State.treeRead_treeValid (s : State) (tree : HTree) : (s.treeRead tree).status.treeValid = true := rfl

theorem State.treeRead_out (s : State) (tree : HTree) : (s.treeRead tree).out = s.out := by
  rw [State.treeRead, State.headerRead_eq]
  rfl

theorem State.treeRead_holdsTree (s : State) (hn : tree.size ≤ 513) (hl : tree.symbolsLegal) :
    (s.treeRead tree).HoldsTree tree.unweighted :=
  (holdsTree_place hn hl _).congr rfl rfl rfl rfl

theorem exec_decompress_treeRead (hu : s.unread = bin 32 s.magic.toNat ++ (tree.header ++ x)) (hn : tree.size ≤ 513)
    (hl : tree.symbolsLegal) :
    exec .decompress s = execUntilError [.decodeBody, .closeOut] (s.treeRead tree) := by
  have hread := exec_readHeader_ok (State.magicChecked_unread hu) hn hl
  rw [exec_decompress_magicChecked hu, execUntilError_of_ok hread, State.treeRead]

/-- R216: DECOMPRESS of a magic word, a header, the codes of bytes and the sentinel's code, into an open OUT. -/
theorem exec_decompress_ok {bytes : List (BitVec 8)} {c p : Bits} (ho : s.out.closed = false)
    (hu : s.unread = bin 32 s.magic.toNat ++ (tree.header ++ (c ++ (p ++ x)))) (hn : tree.size ≤ 513)
    (hl : tree.symbolsLegal) (hc : tree.Encodes bytes c) (hp : (256, p) ∈ tree.paths) :
    ∃ v, exec .decompress s = .next v ∧ v.status.done = true ∧ v.out = (s.writeStr (bitsOfBytes bytes)).out.close := by
  have hdecode := decodeBodyRecoversTheBytes (s.treeRead tree) tree.unweighted bytes c p x (s.treeRead_treeValid tree)
    (s.treeRead_out tree ▸ ho) (s.treeRead_holdsTree hn hl) (HTree.encodes_unweighted.2 hc)
    (tree.unweighted_paths ▸ hp) (State.treeRead_unread hu)
  rw [exec_decompress_treeRead hu hn hl, execUntilError_of_ok hdecode, execUntilError_closeOut]
  refine ⟨_, finish_ok _, rfl, ?_⟩
  rw [State.writeStr_out, ← s.treeRead_out tree]
  rfl

end

/-! ### The round trip -/

/-- R212, R214: COMPRESS of countable bytes into a fresh OUT leaves the container and its padding there. -/
theorem exec_compress_fresh {s : State} {bytes : List (BitVec 8)} (hn : bytes.length < 4294967295)
    (hi : s.inp = { data := bitsOfBytes bytes, pos := 0 }) (hout : s.out = { bits := [], closed := false }) :
    ∃ (u t : State) (tree : HTree) (k : Nat), u.CodedFor tree bytes ∧ u.magic = s.magic ∧
      exec .compress s = .next t ∧ t.status.done = true ∧ k < 8 ∧
      t.out = { bits := u.container tree bytes ++ List.replicate k false, closed := true } ∧
      (u.container tree bytes ++ List.replicate k false).length % 8 = 0 := by
  obtain ⟨u, tree, hcoded, -, huout, hmagic, he⟩ :=
    exec_compress_ok (tail := []) (by rw [hi, List.append_nil]) (by decide) hn (by rw [hout])
  obtain ⟨k, hk, hclose, hmod⟩ := u.container_close tree bytes (by rw [huout, hout])
  rw [huout, hout, List.nil_append] at hclose hmod
  exact ⟨u, _, tree, k, hcoded, hmagic, he, rfl, hk, hclose, hmod⟩

/-- Settles O34: the container is a magic word, a header, the bytes' codes and the sentinel; DECOMPRESS reads them. -/
theorem decompressUndoesCompress : Obligations.DecompressUndoesCompress := by
  intro s bytes hn hi hout
  obtain ⟨u, t, tree, k, hcoded, hmagic, he, hdone, -, htout, -⟩ := exec_compress_fresh hn hi hout
  refine ⟨t, he, hdone, fun r hri hro hrm => ?_⟩
  have hread : r.unread =
      bin 32 r.magic.toNat ++ (tree.header ++ (u.codesOf bytes ++ (u.codeString 256 ++ List.replicate k false))) := by
    rw [State.unread, hri, List.drop_zero, htout]
    simp only [State.container, hmagic, hrm, List.append_assoc]
  obtain ⟨v, hv, hvdone, hvout⟩ := exec_decompress_ok (by rw [hro]) hread hcoded.holdsTree.fits hcoded.holdsTree.legal
    hcoded.encodes hcoded.sentinel_mem_paths
  refine ⟨v, hv, hvdone, hvout.trans ?_⟩
  rw [State.writeStr_out, hro, List.nil_append]
  exact OutStream.close_of_whole rfl (by rw [bitsOfBytes_length, Nat.mul_mod_right])

end Sys2Proof.Machine

/-! PROOFS. Two containers (44_container_and_control.md R221, R222): that of the empty input, and one that was cut. -/

namespace Sys2Proof.Machine

/-! ### The empty input -/

/-- R136: a tree with the sentinel alone, at one leaf, is that leaf. -/
theorem HTree.eq_sentinelLeaf {t : HTree} (hnd : t.symbols.Nodup) (hs : ∀ sym ∈ t.symbols, sym = 256) :
    ∃ w, t = .leaf 256 w := by
  cases t with
  | leaf sym w =>
    rw [hs sym (List.mem_singleton.2 rfl)]
    exact ⟨w, rfl⟩
  | node w l r =>
    rw [List.eq_replicate_of_mem hs, List.nodup_replicate, HTree.symbols_length, HTree.leaves] at hnd
    have := l.leaves_pos
    have := r.leaves_pos
    omega

/-- R222: the container of the empty input, without its padding. -/
theorem State.CodedFor.container_nil {s : State} {tree : HTree} (h : s.CodedFor tree []) :
    s.container tree [] = bin 32 s.magic.toNat ++ true :: bin 9 256 := by
  obtain ⟨w, rfl⟩ := HTree.eq_sentinelLeaf h.nodup fun sym hs => by simpa using (h.symbols sym).1 hs
  have hp := h.sentinel_mem_paths
  rw [HTree.paths, List.mem_singleton, Prod.mk.injEq] at hp
  rw [State.container, hp.2, State.codesOf_nil, List.append_nil, List.append_nil]
  rfl

/-- Settles O33: the tree is the sentinel leaf, so the header has ten bits and the code none; 42 bits need six more. -/
theorem compressOfEmptyInput : Obligations.CompressOfEmptyInput := by
  intro s hi hout
  have hn : ([] : List (BitVec 8)).length < 4294967295 := by decide
  obtain ⟨u, t, tree, k, hcoded, hmagic, he, hdone, hk, htout, hmod⟩ := exec_compress_fresh hn hi hout
  rw [hcoded.container_nil] at htout hmod
  obtain rfl : k = 6 := by
    simp only [List.length_append, List.length_cons, bin_length, List.length_replicate] at hmod
    omega
  refine ⟨t, he, hdone, ?_, fun r hri hrm hro => ?_⟩
  · rw [htout, hmagic, List.append_assoc]
    rfl
  · obtain ⟨t', he', -, hround⟩ := decompressUndoesCompress s [] hn hi hout
    cases he.symm.trans he'
    exact hround r hri hro hrm

/-! ### Cuts -/

/-- A string that is cut before its end is cut in its first part, or after it in its second. -/
theorem cut_append {bits y a b : Bits} (h : bits ++ y = a ++ b) :
    (∃ z, z ≠ [] ∧ bits ++ z = a) ∨ ∃ bits', bits = a ++ bits' ∧ bits' ++ y = b := by
  rcases List.append_eq_append_iff.1 h with ⟨z, ha, hz⟩ | ⟨bits', hbits, hb⟩
  · by_cases hnil : z = []
    · subst hnil
      rw [List.append_nil] at ha
      exact .inr ⟨[], by rw [ha, List.append_nil], hz⟩
    · exact .inl ⟨z, hnil, ha.symm⟩
  · exact .inr ⟨bits', hbits, hb.symm⟩

/-- R107: `bits` are the records `rs`, or these and a part of a leaf's record. -/
def EndsInRecord (rs : List HeaderRecord) (bits : Bits) : Prop :=
  bits = headerBits rs ∨ ∃ cut : Bits, cut.length < 9 ∧ bits = headerBits rs ++ true :: cut

theorem EndsInRecord.append {rs : List HeaderRecord} {bits : Bits} (h : EndsInRecord rs bits)
    (rs' : List HeaderRecord) : EndsInRecord (rs' ++ rs) (headerBits rs' ++ bits) := by
  rcases h with rfl | ⟨cut, hcut, rfl⟩
  · exact .inl (headerBits_append rs' rs).symm
  · exact .inr ⟨cut, hcut, by rw [headerBits_append, List.append_assoc]⟩

theorem HTree.records_legal {t : HTree} (h : t.symbolsLegal) : ∀ r ∈ t.records, r.legal = true := by
  induction t with
  | leaf sym w =>
    intro r hr
    rw [List.mem_singleton.1 hr]
    exact decide_eq_true (h sym (List.mem_singleton.2 rfl))
  | node w tl tr ihl ihr =>
    obtain ⟨hl, hr⟩ := HTree.symbolsLegal_node.1 h
    rw [HTree.records, List.forall_mem_cons, List.forall_mem_append]
    exact ⟨rfl, ihl hl, ihr hr⟩

/-- R108: `bits` are some of the records of the header of `t`, which leave a subtree to come, and at most a part of a
leaf's record. -/
def HTree.CutAt (t : HTree) (bits : Bits) : Prop :=
  ∃ rs, openHeader 1 rs = true ∧ rs <+: t.records ∧ rs.length < t.size ∧ EndsInRecord rs bits

theorem HTree.cutAt_nil (t : HTree) : t.CutAt [] := ⟨[], rfl, List.nil_prefix, t.size_pos, .inl rfl⟩

theorem HTree.cutAt_leaf (sym : Sym) (w : Word) {cut : Bits} (h : cut.length < 9) :
    (HTree.leaf sym w).CutAt (true :: cut) :=
  ⟨[], rfl, List.nil_prefix, Nat.one_pos, .inr ⟨cut, h, rfl⟩⟩

theorem HTree.CutAt.left {l : HTree} {bits : Bits} (h : l.CutAt bits) (w : Word) (r : HTree) :
    (HTree.node w l r).CutAt (false :: bits) := by
  obtain ⟨rs, hopen, hpre, hlen, hends⟩ := h
  refine ⟨.internal :: rs, openHeader_mono (k := 2) hopen (by decide), ?_, ?_, hends.append [.internal]⟩
  · exact List.cons_prefix_cons.2 ⟨rfl, hpre.trans (List.prefix_append ..)⟩
  · rw [List.length_cons, HTree.size]
    omega

theorem HTree.CutAt.right {r : HTree} {bits : Bits} (h : r.CutAt bits) (w : Word) (l : HTree) :
    (HTree.node w l r).CutAt (false :: (l.header ++ bits)) := by
  obtain ⟨rs, hopen, hpre, hlen, hends⟩ := h
  refine ⟨.internal :: (l.records ++ rs), (openHeader_records l 1 rs).trans hopen, ?_, ?_, ?_⟩
  · exact List.cons_prefix_cons.2 ⟨rfl, (List.prefix_append_right_inj _).2 hpre⟩
  · rw [List.length_cons, List.length_append, HTree.records_length, HTree.size]
    omega
  · have := hends.append (.internal :: l.records)
    rwa [headerBits_cons, HTree.headerBits_records] at this

/-- R108: a header that ends before its last bit, by the part of the tree where it ends. -/
theorem HTree.cutAt_of_header {t : HTree} {bits y : Bits} (h : bits ++ y = t.header) (hy : y ≠ []) : t.CutAt bits := by
  induction t generalizing bits y with
  | leaf sym w =>
    cases bits with
    | nil => exact HTree.cutAt_nil _
    | cons tag cut =>
      obtain ⟨rfl, hcut⟩ := List.cons_eq_cons.1 h
      have hlen := congrArg List.length (show cut ++ y = bin 9 sym.toNat from hcut)
      have hpos := List.length_pos_iff.2 hy
      rw [List.length_append, bin_length] at hlen
      exact HTree.cutAt_leaf sym w (by omega)
  | node w l r ihl ihr =>
    cases bits with
    | nil => exact HTree.cutAt_nil _
    | cons tag bits =>
      obtain ⟨rfl, hbits⟩ := List.cons_eq_cons.1 h
      rcases cut_append hbits with ⟨z, hz, hl⟩ | ⟨bits', rfl, hr⟩
      · exact (ihl hl hz).left w r
      · exact (ihr hr hy).right w l

/-- R170: READ_HEADER of a header that was cut. -/
theorem exec_readHeader_cut {s : State} {tree : HTree} {y : Bits} (hu : s.unread ++ y = tree.header) (hy : y ≠ [])
    (hn : tree.size ≤ 513) (hl : tree.symbolsLegal) :
    ∃ t : State, exec .readHeader s = .next (t.completeErr .truncHeader) := by
  obtain ⟨rs, hopen, hpre, hlen, hends⟩ := HTree.cutAt_of_header hu hy
  obtain ⟨hwhole, hpart, -, -⟩ :=
    readHeaderRejectsBadHeaders s rs hopen (fun r hr => HTree.records_legal hl r (hpre.subset hr)) (by omega)
  rcases hends with hbits | ⟨cut, hcut, hbits⟩
  · obtain ⟨node, he⟩ := hwhole hbits
    exact ⟨_, he⟩
  · obtain ⟨node, he⟩ := hpart (by omega) cut hcut hbits
    exact ⟨_, he⟩

/-- R111: the codes of bytes and the sentinel's, cut before their end, are the codes of some of the bytes and a part of
one more. -/
theorem HTree.encodes_cut {t : HTree} {bytes : List (BitVec 8)} {c p bits y : Bits} (hc : t.Encodes bytes c)
    (hp : (256, p) ∈ t.paths) (h : bits ++ y = c ++ p) (hy : y ≠ []) :
    ∃ bytes' c' q z sym, t.Encodes bytes' c' ∧ (sym, q ++ z) ∈ t.paths ∧ z ≠ [] ∧ bits = c' ++ q := by
  induction bytes generalizing c bits with
  | nil =>
    obtain rfl : c = [] := hc
    exact ⟨[], [], bits, y, 256, rfl, by rwa [h], hy, rfl⟩
  | cons b bytes ih =>
    obtain ⟨path, rest, hpath, hrest, rfl⟩ := hc
    rw [List.append_assoc] at h
    rcases cut_append h with ⟨z, hz, rfl⟩ | ⟨bits', rfl, h'⟩
    · exact ⟨[], [], bits, z, _, rfl, hpath, hz, rfl⟩
    · obtain ⟨bytes', c', q, z, sym, hc', hq, hz, rfl⟩ := ih hrest h'
      exact ⟨b :: bytes', path ++ c', q, z, sym, ⟨path, c', hpath, hc', rfl⟩, hq, hz, (List.append_assoc ..).symm⟩

/-- R189: DECODE_BODY of codes that were cut. -/
theorem exec_decodeBody_cut {s : State} {tree : HTree} {bytes : List (BitVec 8)} {c p y : Bits}
    (hv : s.status.treeValid = true) (ho : s.out.closed = false) (h : s.HoldsTree tree) (hc : tree.Encodes bytes c)
    (hp : (256, p) ∈ tree.paths) (hu : s.unread ++ y = c ++ p) (hy : y ≠ []) :
    ∃ t : State, exec .decodeBody s = .next (t.completeErr .truncBody) := by
  obtain ⟨bytes', c', q, z, sym, hc', hq, hz, hbits⟩ := HTree.encodes_cut hc hp hu hy
  obtain ⟨-, -, htrunc⟩ := decodeBodyReportsTruncation s
  exact ⟨_, htrunc tree bytes' c' q z sym hv ho h hc' hq hz hbits⟩

/-- R221: DECOMPRESS of a magic word, a header, the codes of bytes and the sentinel's code, cut before their end. -/
theorem exec_decompress_cut {s : State} {tree : HTree} {bytes : List (BitVec 8)} {c p y : Bits}
    (ho : s.out.closed = false) (hn : tree.size ≤ 513) (hl : tree.symbolsLegal) (hc : tree.Encodes bytes c)
    (hp : (256, p) ∈ tree.paths) (hu : s.unread ++ y = bin 32 s.magic.toNat ++ (tree.header ++ (c ++ p)))
    (hy : y ≠ []) :
    ∃ (v : State) (e : ErrCode), exec .decompress s = .next (v.completeErr e) ∧
      (e = .badMagic ∨ e = .truncHeader ∨ e = .truncBody) := by
  rcases cut_append hu with ⟨z, hz, hmagic⟩ | ⟨bits, hbits, hrest⟩
  · have hshort : s.unread.length < 32 := by
      have hlen := congrArg List.length hmagic
      have hpos := List.length_pos_iff.2 hz
      rw [List.length_append, bin_length] at hlen
      omega
    rw [exec_decompress_eq_steps, execUntilError_of_err (exec_checkMagic_short hshort)]
    exact ⟨_, _, rfl, .inl rfl⟩
  rcases cut_append hrest with ⟨z, hz, hheader⟩ | ⟨bits', rfl, hcodes⟩
  · obtain ⟨t, ht⟩ := exec_readHeader_cut (s := s.magicChecked)
      (by rw [State.magicChecked_unread hbits, hheader]) hz hn hl
    rw [exec_decompress_magicChecked hbits, execUntilError_of_err ht]
    exact ⟨_, _, rfl, .inr (.inl rfl)⟩
  · obtain ⟨t, ht⟩ := exec_decodeBody_cut (s.treeRead_treeValid tree) (s.treeRead_out tree ▸ ho)
      (s.treeRead_holdsTree hn hl) (HTree.encodes_unweighted.2 hc) (tree.unweighted_paths ▸ hp)
      (by rw [State.treeRead_unread hbits, hcodes]) hy
    rw [exec_decompress_treeRead hbits hn hl, execUntilError_of_err ht]
    exact ⟨_, _, rfl, .inr (.inr rfl)⟩

/-- A cut at a byte boundary before the end, in whole bytes, comes before fewer than eight bits of padding. -/
theorem take_before_padding {bits : Bits} {j k : Nat} (hj : j < 8)
    (hmod : (bits ++ List.replicate j false).length % 8 = 0) (hk : 8 * k < (bits ++ List.replicate j false).length) :
    ∃ y, y ≠ [] ∧ (bits ++ List.replicate j false).take (8 * k) ++ y = bits := by
  rw [List.length_append, List.length_replicate] at hmod hk
  have hlt : 8 * k < bits.length := by omega
  refine ⟨bits.drop (8 * k), ?_, ?_⟩
  · rw [Ne, List.drop_eq_nil_iff]
    omega
  · rw [List.take_append_of_le_length hlt.le, List.take_append_drop]

/-- Settles O35: the cut comes before the padding, and DECOMPRESS stops in the part of the container where it comes. -/
theorem truncatedContainerIsDetected : Obligations.TruncatedContainerIsDetected := by
  intro s bytes t r k hn hi hout he hk hri hro hrm
  obtain ⟨u, t', tree, j, hcoded, hmagic, he', -, hj, htout, hmod⟩ := exec_compress_fresh hn hi hout
  cases he'.symm.trans he
  rw [htout] at hk hri
  obtain ⟨y, hy, hcut⟩ := take_before_padding hj hmod hk
  have hread : r.unread ++ y = bin 32 r.magic.toNat ++ (tree.header ++ (u.codesOf bytes ++ u.codeString 256)) := by
    rw [State.unread, hri, List.drop_zero, hcut, State.container, hmagic, hrm]
  obtain ⟨v, e, hv, hcode⟩ := exec_decompress_cut hro hcoded.holdsTree.fits hcoded.holdsTree.legal hcoded.encodes
    hcoded.sentinel_mem_paths hread hy
  exact ⟨_, hv, rfl, hcode⟩

end Sys2Proof.Machine

/-! PROOFS. How a performed command ends, what it raises, and the interrupt and the bus errors that HOST sees
(60_exceptions.md R230, R232, R239, R240). -/

namespace Sys2Proof.Machine

/-! ### The outcome of a command -/

/-- Settles O4: the next state is a completion, and the code of an error completion is one of the command's own. -/
theorem performedCommandEndsInOneOutcome : Obligations.PerformedCommandEndsInOneOutcome := by
  intro i s t h
  rcases next_cases h with ⟨u, -, rfl⟩ | ⟨c, u, -, rfl, hc⟩
  · exact ⟨rfl, .inl ⟨rfl, rfl, rfl⟩⟩
  · exact ⟨rfl, .inr ⟨rfl, rfl, ne_of_mem_of_not_mem hc (none_notMem_errorsOf i)⟩⟩

/-- A command that ends with ERR ends in one of its own errors. -/
theorem errCode_mem_errorsOf {i : Instr} {s t : State} (h : exec i s = .next t) (ht : t.status.err = true) :
    t.status.errCode ∈ errorsOf i := by
  rcases next_cases h with ⟨u, -, rfl⟩ | ⟨c, u, -, rfl, hc⟩
  · exact absurd ht Bool.false_ne_true
  · exact hc

/-- Settles O5: only an error completion sets ERR; the codes are numbered by R230's table. -/
theorem commandRaisesOnlyItsErrors : Obligations.CommandRaisesOnlyItsErrors :=
  ⟨fun _ _ _ => errCode_mem_errorsOf, rfl⟩

/-! ### The interrupt -/

/-- R232, R240: one of DONE and ERR is set by every completion, so IRQ is IRQ_EN, which no command writes. -/
theorem irq_of_exec {i : Instr} {s t : State} (h : exec i s = .next t) : t.irq = s.cfg.irqEn := by
  obtain ⟨-, -, hcfg, -⟩ := commandsLeaveHostRegisters i s t h
  obtain ⟨-, ⟨hdone, -, -⟩ | ⟨-, herr, -⟩⟩ := performedCommandEndsInOneOutcome i s t h
  · rw [State.irq, hcfg, hdone, Bool.true_or, Bool.and_true]
  · rw [State.irq, hcfg, herr, Bool.or_true, Bool.and_true]

/-- R27: acceptance clears both flags that IRQ looks at. -/
theorem accept_irq (s : State) (v : Word) : (s.accept v).irq = false :=
  Bool.and_false _

/-- R29, R240: writing 1 to the set bits of DONE and ERR. -/
theorem clearStatus_irq {s : State} {v : Word} (hdone : s.status.done = true → v.getLsbD 1 = true)
    (herr : s.status.err = true → v.getLsbD 2 = true) : (s.clearStatus v).irq = false := by
  obtain ⟨hd, he, -⟩ := clearStatus_flags s v
  have hdone' : (s.clearStatus v).status.done ≠ true := fun h => ne_true_of_eq_false (hd.1 h).2 (hdone (hd.1 h).1)
  have herr' : (s.clearStatus v).status.err ≠ true := fun h => ne_true_of_eq_false (he.1 h).2 (herr (he.1 h).1)
  rw [State.irq, eq_false_of_ne_true hdone', eq_false_of_ne_true herr']
  exact Bool.and_false _

/-- The turns to come and HOST's response play no part in IRQ. -/
theorem State.HostWrites.exists_irq_eq_false {s t : State} {off : Nat} {v : Word} (h : s.HostWrites off v t)
    (ht : t.irq = false) (rest : List Turn) :
    ∃ u, step { s with queue := .host (.write off .word v) :: rest } = .next u ∧ u.irq = false :=
  ⟨_, h rest, ht⟩

/-- Settles O54: a completion sets one of the flags, acceptance and the write to STATUS clear both, and the write to CFG
clears IRQ_EN. -/
theorem irqSignalsCompletion : Obligations.IrqSignalsCompletion := by
  refine ⟨fun _ => rfl, fun _ _ _ => irq_of_exec, fun s v rest hb => ⟨?_, fun hdone herr => ?_, fun hv => ?_⟩⟩
  · exact (commandAcceptance s v hb).exists_irq_eq_false (accept_irq s v) rest
  · exact (hostWrites_status s v).exists_irq_eq_false (clearStatus_irq hdone herr) rest
  · have hcfg : s.HostWrites 0x10 v { s with cfg := Cfg.ofWord v } :=
      hostWrites_idle hb v (by decide) rfl (by decide)
    refine hcfg.exists_irq_eq_false ?_ rest
    rw [State.irq, Cfg.ofWord, hv, Bool.false_and]

/-! ### Bus errors -/

/-- R78: what makes an access ill-formed. -/
theorem accessWf_eq_false {off : Nat} {width : AccessWidth} (h : off % 4 ≠ 0 ∨ width ≠ .word) :
    accessWf off width.bits = false := by
  rw [accessWf, Bool.and_eq_false_iff]
  rcases h with h4 | hw
  · exact .inl (beq_false_of_ne h4)
  · cases width with
    | byte | half => exact .inr rfl
    | word => exact absurd rfl hw

/-- R239: an ill-formed access to the window is answered with a bus error, whatever it would have done. -/
theorem access_of_illFormed {off : Nat} {width : AccessWidth} (hoff : off < 0x80) (h : off % 4 ≠ 0 ∨ width ≠ .word)
    (go : BitVec 7 → State → State) (s : State) : access off width go s = s.respond .busError := by
  have hnat : (BitVec.ofNat 7 off).toNat = off := (BitVec.toNat_ofNat off 7).trans (Nat.mod_eq_of_lt hoff)
  simp only [access, windowOffset_lt hoff, hnat, accessWf_eq_false h, Bool.false_eq_true, if_false]

/-- Settles O50: neither the read nor the write reaches a register. -/
theorem busErrorChangesNothing : Obligations.BusErrorChangesNothing := fun _ _ _ _ _ hoff h =>
  ⟨congrArg _ (access_of_illFormed hoff h _ _), congrArg _ (access_of_illFormed hoff h _ _)⟩

end Sys2Proof.Machine

/-! PROOFS. Resets of a pending command (70_reset_and_hazards.md R260 to R263), what stops the model (R270), and that an
accepted command does not wait for ever (R278, R279). -/

namespace Sys2Proof.Machine

/-! ### What stops the model -/

/-- Settles O6: every end of a body but a broken arena is a completion, and a truthful TREE_VALID rules that one out. -/
theorem everyCommandCompletes : Obligations.EveryCommandCompletes := by
  intro i s hs
  rw [exec_eq_finish]
  cases hb : bodyOf i s with
  | ok u => exact ⟨_, rfl⟩
  | raised c u => exact ⟨_, rfl⟩
  | stuck f u => exact absurd hb (body_notStuck i s hs f u)

/-- Settles O60: a step stops at a stream move or where a command stops, and no command does. -/
theorem onlyHostMisuseStopsTheModel : Obligations.OnlyHostMisuseStopsTheModel := by
  intro s hs
  by_cases hsafe : SafeAt s
  · exact .inl hsafe
  · rcases step_stops (not_exists.1 hsafe) with hmove | ⟨u, i, hu, -, -, he⟩
    · exact .inr hmove
    · obtain ⟨t, ht⟩ := everyCommandCompletes i u (treeInvariant_treeOk.popped hu hs)
      exact absurd ⟨t, he.trans ht⟩ hsafe

/-! ### The turns to come while a command waits -/

theorem resetHtb_queue (s post : State) : (s.resetHtb post).queue = s.queue := by
  rw [State.resetHtb]
  split <;> rfl

theorem writeReg_queue (s post : State) (v : Word) (r : HostReg) : (s.writeReg v post r).queue = s.queue := by
  cases r with
  | ctrl =>
    rw [State.writeReg]
    split
    · exact resetHtb_queue s post
    · rfl
  | _ => rfl

theorem hostRead_queue (r : HostReg) (s : State) : (hostRead r s).queue = s.queue := by
  rw [hostRead]
  split <;> rfl

theorem hostWrite_queue (r : HostReg) (v : Word) (post s : State) : (hostWrite r v post s).queue = s.queue := by
  rw [hostWrite]
  split
  · rfl
  · exact writeReg_queue s post v r

theorem access_queue (off : Nat) (width : AccessWidth) {go : BitVec 7 → State → State} {s : State}
    (hgo : ∀ o, (go o s).queue = s.queue) : (access off width go s).queue = s.queue := by
  rcases access_cases off width go s with h | h | ⟨o, -, h⟩ <;> rw [h]
  · rfl
  · rfl
  · exact hgo o

theorem streamAction_queue {s t u : State} (h : streamAction s t = .next u) : u.queue = t.queue := by
  rw [streamAction] at h
  split at h
  · cases h
  · cases h
    rfl

/-- A move of HOST adds no turn and takes none away. -/
theorem hostTurn_queue {a : HostAction} {s t : State} (h : hostTurnWith exec a s = .next t) : t.queue = s.queue := by
  cases a with
  | read off width =>
    cases h
    exact access_queue off width fun _ => hostRead_queue _ s
  | write off width v =>
    cases h
    exact access_queue off width fun _ => hostWrite_queue _ v _ s
  | attachIn | openOut =>
    rw [hostTurnWith] at h
    exact (streamAction_queue h :)
  | takeOut =>
    cases h
    rfl
  | hardReset =>
    cases h
    exact resetHtb_queue s _

/-- R53, R232: a turn of CORE completes the pending word, whether it selects a command or not. -/
theorem coreTurn_clears_busy {s t : State} (hb : s.status.busy = true) (h : coreTurnWith exec s = .next t) :
    t.status.busy = false := by
  rw [coreTurn_of_busy hb] at h
  cases hd : decode s.pending with
  | ok i =>
    rw [perform_of_decode hd] at h
    exact (performedCommandEndsInOneOutcome i s t h).1
  | error e =>
    rw [perform_of_illegal (by simp [hd])] at h
    cases h
    rfl

/-- A step with a command pending ends the wait or takes a turn from the queue. -/
theorem step_clears_busy_or_shortens_queue {s t : State} (hb : s.status.busy = true) (h : step s = .next t) :
    t.status.busy = false ∨ t.queue.length < s.queue.length := by
  rw [step, stepWith] at h
  split at h
  next => exact .inl (coreTurn_clears_busy hb h)
  next rest _ => exact .inl (coreTurn_clears_busy (s := { s with queue := rest }) hb h)
  next a rest hq =>
    right
    rw [hostTurn_queue h, hq]
    exact Nat.lt_succ_self _

/-! ### The end of the wait -/

/-- R278: some run of at most `n` steps ends with BUSY = 0, or at a stream move of HOST (log entry 8). -/
def State.WaitEndsWithin (s : State) (n : Nat) : Prop :=
  ∃ k ≤ n, (∃ t : State, Sys2Proof.core.run k s = .next t ∧ t.status.busy = false) ∨
    Sys2Proof.core.run k s = .fault Fault.streamMoveWhileBusy

theorem waitEndsWithin_of_idle {s : State} (hb : s.status.busy = false) (n : Nat) : s.WaitEndsWithin n :=
  ⟨0, Nat.zero_le n, .inl ⟨s, rfl, hb⟩⟩

theorem waitEndsWithin_of_fault {s : State} (h : step s = .fault .streamMoveWhileBusy) (n : Nat) :
    s.WaitEndsWithin (n + 1) :=
  ⟨1, Nat.succ_pos n, .inr (core_run_fault h)⟩

theorem State.WaitEndsWithin.of_step {s t : State} {n : Nat} (h : step s = .next t) (ht : t.WaitEndsWithin n) :
    s.WaitEndsWithin (n + 1) := by
  obtain ⟨k, hk, hrun⟩ := ht
  refine ⟨k + 1, Nat.succ_le_succ hk, ?_⟩
  rw [core_run_next h]
  exact hrun

theorem waitEndsWithin_of_queue_length_lt {s : State} {n : Nat} (hs : s.TreeOk) (hq : s.queue.length < n) :
    s.WaitEndsWithin n := by
  induction n generalizing s with
  | zero => exact absurd hq (Nat.not_lt_zero _)
  | succ n ih =>
    cases hb : s.status.busy with
    | false => exact waitEndsWithin_of_idle hb _
    | true =>
      rcases onlyHostMisuseStopsTheModel s hs with ⟨t, ht⟩ | ⟨-, hf, -⟩
      · refine .of_step ht ?_
        rcases step_clears_busy_or_shortens_queue hb ht with hidle | hlt
        · exact waitEndsWithin_of_idle hidle n
        · exact ih (stepKeepsTreeValid s t hs ht) (by omega)
      · exact waitEndsWithin_of_fault hf n

/-- Settles O55: each step of the wait takes a turn from the queue, and CORE has the turn when the queue is empty. -/
theorem acceptedCommandIsNotLeftPending : Obligations.AcceptedCommandIsNotLeftPending := by
  intro s hs _
  obtain ⟨k, hk, ⟨t, hrun, hidle⟩ | hrun⟩ := waitEndsWithin_of_queue_length_lt hs (Nat.lt_succ_self s.queue.length)
  · refine ⟨k, hk, ?_⟩
    rw [hrun]
    exact hidle
  · refine ⟨k, hk, ?_⟩
    rw [hrun]

/-! ### IN moves forward -/

/-- R71: a read moves IN.pos forward. -/
theorem InStream.pos_le_read_pos {i : InStream} (h : i.pos ≤ i.data.length) (n : Nat) : i.pos ≤ (i.read n).2 := by
  rw [InStream.read]
  split
  · exact Nat.le_add_right _ _
  · exact h

/-- IN.pos lies within IN and has not moved back. -/
def State.MovesOn (s t : State) : Prop := s.StreamsOk → t.StreamsOk ∧ s.inp.pos ≤ t.inp.pos

theorem movesOn_of_inp_eq {s t : State} (h : t.inp = s.inp) : s.MovesOn t := fun hs =>
  ⟨streamsOk_congr hs h, by rw [h]⟩

theorem chains_movesOn : Chains State.MovesOn where
  refl _ := movesOn_of_inp_eq rfl
  trans h1 h2 hs :=
    have ⟨ht, hst⟩ := h1 hs
    have ⟨hu, htu⟩ := h2 ht
    ⟨hu, hst.trans htu⟩

/-- R71, R73: only Rewind moves IN.pos back. -/
theorem keeps_movesOn {es : List Effect} (hes : .rewind ∉ es) : Keeps es State.MovesOn where
  toChains := chains_movesOn
  read _ s n hs := ⟨s.inp.read_pos_le n, InStream.pos_le_read_pos hs n⟩
  toEnd _ _ hs := ⟨Nat.le_refl _, hs⟩
  rewind m := absurd m hes
  write _ _ _ := movesOn_of_inp_eq rfl
  close _ _ := movesOn_of_inp_eq rfl
  dec _ _ _ := movesOn_of_inp_eq rfl
  clearFreq _ _ := movesOn_of_inp_eq rfl
  freq _ _ _ _ := movesOn_of_inp_eq rfl
  dropTree _ _ := movesOn_of_inp_eq rfl
  node _ _ _ _ := movesOn_of_inp_eq rfl
  publishTree _ _ _ _ _ _ := movesOn_of_inp_eq rfl
  dropCodes _ _ := movesOn_of_inp_eq rfl
  code _ _ _ _ := movesOn_of_inp_eq rfl
  publishCodes _ _ := movesOn_of_inp_eq rfl

/-- R202, R212: REWIND_IN and COMPRESS are the commands that rewind IN. -/
theorem rewind_notMem_effectsOf {i : Instr} (hi : i ∉ [.rewindIn, .compress]) : .rewind ∉ effectsOf i := by
  revert hi
  cases i <;> decide

theorem exec_movesOn {i : Instr} {s t : State} (hi : i ∉ [.rewindIn, .compress]) (h : exec i s = .next t) :
    s.MovesOn t :=
  exec_state (keeps_movesOn (rewind_notMem_effectsOf hi)) (fun _ => movesOn_of_inp_eq rfl)
    (fun _ _ => movesOn_of_inp_eq rfl) h

/-! ### The bounds on the streams after a reset of a pending command (R263) -/

theorem pendingRewinds_eq_false {s : State} {i : Instr} (hd : decode s.pending = .ok i)
    (hi : i ∉ [.rewindIn, .compress]) : s.pendingRewinds = false := by
  rw [State.pendingRewinds, hd]
  revert hi
  cases i <;> decide

theorem abandonedPos_bounds {s : State} {pos1 : Nat} (hr : s.pendingRewinds = false) (h1 : s.inp.pos ≤ pos1) :
    s.inp.pos ≤ s.abandonedPos pos1 ∧ s.abandonedPos pos1 ≤ pos1 := by
  have hmove : Config.freePos s.draws % (pos1 - s.inp.pos + 1) < pos1 - s.inp.pos + 1 := Nat.mod_lt _ (Nat.succ_pos _)
  rw [State.abandonedPos, hr, if_neg Bool.false_ne_true]
  omega

theorem prefix_abandonedBits (s : State) (bits1 : Bits) : s.out.bits <+: s.abandonedBits bits1 :=
  List.prefix_append _ _

theorem abandonedBits_prefix {s : State} {bits1 : Bits} (h : s.out.bits <+: bits1) :
    s.abandonedBits bits1 <+: bits1 := by
  obtain ⟨appended, rfl⟩ := h
  rw [State.abandonedBits, List.drop_left]
  exact (List.prefix_append_right_inj _).2 (List.take_prefix _ _)

theorem abandonedClosed_cases (s : State) (bits1 : Bits) :
    s.abandonedClosed bits1 = s.out.closed ∨ (s.abandonedClosed bits1 = true ∧ s.abandonedBits bits1 = bits1) := by
  cases hc : s.abandonedClosed bits1 with
  | false => exact .inl (Bool.or_eq_false_iff.1 hc).1.symm
  | true =>
    rcases Bool.or_eq_true_iff.1 hc with hold | hdrawn
    · exact .inl hold.symm
    · obtain ⟨hsame, -⟩ := Bool.and_eq_true_iff.1 hdrawn
      obtain ⟨-, hbits⟩ := Bool.and_eq_true_iff.1 hsame
      exact .inr ⟨rfl, eq_of_beq hbits⟩

/-! ### The two resets -/

theorem postWith_of_exec {s p : State} {i : Instr} (hd : decode s.pending = .ok i) (he : exec i s = .next p) :
    postWith exec s = p := by
  rw [postWith, perform_of_decode hd, he]

theorem resetHtb_of_pending {s p : State} {i : Instr} (hb : s.status.busy = true) (hd : decode s.pending = .ok i)
    (he : exec i s = .next p) : s.resetHtb (postWith exec s) = (s.abandon p).resetCore := by
  rw [postWith_of_exec hd he]
  exact if_pos hb

/-- R260, R262: the hardware reset and the soft reset by CTRL.SRST have one effect, busy or not. -/
theorem step_reset {s t : State} {rest : List Turn}
    (h : ({ s with queue := rest } : State).resetHtb (postWith exec { s with queue := rest }) = t) :
    step { s with queue := .host .hardReset :: rest } = .next (t.respond .acted) ∧
      ∀ v : Word, v.getLsbD 0 = true →
        step { s with queue := .host (.write 0x04 .word v) :: rest } = .next (t.respond .written) := by
  subst h
  refine ⟨rfl, fun v hv => ?_⟩
  rw [step_write_writableBusy v (by decide) (by decide) rfl, regAt_ctrl, writeReg_ctrl_of_set _ _ hv]

/-- R263: where a reset of the pending command `i`, which would have left `p`, leaves the streams. -/
theorem abandon_bounds {s p : State} {i : Instr} (hs : s.StreamsOk) (hd : decode s.pending = .ok i)
    (he : exec i s = .next p) :
    (i ∉ [.rewindIn, .compress] → s.inp.pos ≤ s.abandonedPos p.inp.pos ∧ s.abandonedPos p.inp.pos ≤ p.inp.pos) ∧
      s.abandonedPos p.inp.pos ≤ s.inp.data.length ∧ s.out.bits <+: s.abandonedBits p.out.bits ∧
      s.abandonedBits p.out.bits <+: p.out.bits ∧
      (s.abandonedClosed p.out.bits = s.out.closed ∨
        (s.abandonedClosed p.out.bits = true ∧ s.abandonedBits p.out.bits = p.out.bits)) := by
  have hpos : p.inp.pos ≤ s.inp.data.length := postWith_of_exec hd he ▸ postWith_pos_le hs
  refine ⟨fun hi => ?_, abandonedPos_le hs hpos, prefix_abandonedBits s _, abandonedBits_prefix (exec_out_grows he),
    abandonedClosed_cases s _⟩
  obtain ⟨-, hforward⟩ := exec_movesOn hi he hs
  exact abandonedPos_bounds (pendingRewinds_eq_false hd hi) hforward

/-- Settles O52: both resets leave the draws of `abandon`, which lie within the bounds; the illegal word moves no stream. -/
theorem resetWhileBusyIsBounded : Obligations.ResetWhileBusyIsBounded := by
  intro s rest hb
  refine ⟨fun p i hs hd he => ?_, fun hno => ?_⟩
  · obtain ⟨hhard, hsoft⟩ := step_reset (resetHtb_of_pending (s := { s with queue := rest }) hb hd he)
    exact ⟨_, _, _, hhard, hsoft, abandon_bounds (s := { s with queue := rest }) hs hd he⟩
  · have hreset := State.resetHtb_illegal (s := { s with queue := rest }) hb hno
    rw [← postWith_illegal (s := { s with queue := rest }) hno] at hreset
    exact step_reset hreset

end Sys2Proof.Machine
